-- ==== Sys2Proof/Word.lean ====
section
/-! DEFINITION. The fixed-width words of PEDSP-CORE (00_scope R8, R10; 30_encoding R90): what crosses a port, and the samples. -/

namespace Sys2Proof

/-- The 32-bit words of the host port: command argument (`CW`) and response (`RW`), 00_scope R8. The finite arithmetics
that `State` can hold also keep their values in it (10_state R20, `NUM.R` and `NUM.P`; log 2). -/
abbrev Word := BitVec 32

/-- Format H, the host command word `cw : U(36)` (30_encoding R91). -/
abbrev CommandWord := BitVec 36

/-- Format E, the DMA event word `ew : U(34)` (30_encoding R92). -/
abbrev EventWord := BitVec 34

/-- Format U, a sequencer operation code: the value of `PH` (30_encoding R93). -/
abbrev PhaseCode := BitVec 4

/-- Format W, the level of the reset wire `rst : U(1)` (30_encoding R94). -/
abbrev ResetLevel := BitVec 1

/-- A sample in its widest container: `SAMPLE_W` is at most 16 (00_scope R8, R9). That a stored sample is below
`2^SAMPLE_W` is the invariant `Memory.wf` (log 18). -/
abbrev Sample := BitVec 16

/-- A sample index in the event word's field, wide enough for every supported `N` (30_encoding R92). -/
abbrev IndexField := BitVec 16

end Sys2Proof
end

