-- ==== Sys2Proof/Config.lean ====
section
/-! DEFINITION. What is fixed when a block is built, the tuple `(N, SAMPLE_W, NUM)` of 00_scope R2 and R8 with its check
`CfgOK` (R9); the arithmetic record `NUM` of 45_numerics R220; and the free values: what the spec leaves unspecified, as
constants without a body. -/

namespace Sys2Proof

/-- `NUM` (45_numerics R220): the arithmetic of the block over a carrier `R` of real-valued quantities and a carrier `P`
of acquisition periods. Every field is a total function of its arguments alone (R221). `binResDom` is the domain of
`binRes`. `tol` is used by no operation (R231). -/
structure Num (R P : Type) where
  zero      : R
  ofSample  : Nat → R
  ofIndex   : Nat → R
  add       : R → R → R
  sub       : R → R → R
  mul       : R → R → R
  scaleInvN : R → R
  sqrt      : R → R
  gt        : R → R → Bool
  twc       : Nat → R
  tws       : Nat → R
  binRes    : P → R
  binResDom : P → Bool
  tol       : R
  deriving Inhabited

/-- `NUM` with its two port fields `decP` and `enc` (45_numerics R220, R236): `A` is what the host port carries for the
argument of `INIT` and `W` for the response of `RDFREQ`. Both are the 32-bit `Word` of R220, except over a `NUM` with no
finite encoding, where they are `P` and `R` themselves and the two fields are the identity (30_encoding R95, R233). -/
structure NumPort (R P A W : Type) extends Num R P where
  decP : A → P
  enc  : R → W
  deriving Inhabited

/-- Which arithmetic the block of a `State` is built with (00_scope R8, parameter `NUM`; log 2). A block over any other
record, of any carriers, is a `Built`. -/
inductive NumSel where
  /-- `NUM_F32`, IEEE 754 binary32 (45_numerics R234). -/
  | f32
  /-- Any other `NUM` whose values fit a 32-bit word: nothing is known of its functions (`Config.param`, R221). -/
  | param
  deriving DecidableEq, Repr

/-- `N` is in `SUPPORTED_N = {2^e : 1 <= e <= 16}` (00_scope R8). -/
def supportedN (n : Nat) : Bool := (List.range 16).any fun e => n == 2 ^ (e + 1)

/-- `CfgOK` (00_scope R9). That `NUM` has every field holds by its type. -/
def cfgOK (n sampleW : Nat) : Bool := supportedN n && decide (1 ≤ sampleW) && decide (sampleW ≤ 16)

/-- The two sizes a block is built with, `N` and `SAMPLE_W`, with the proof of `CfgOK` (93 U13): sizes that fail the check
are refused at construction, before any step (00_scope R9). `logN` is the spec's `L`. -/
structure Size where
  logN    : Nat
  sampleW : Nat
  ok      : cfgOK (2 ^ logN) sampleW = true
  deriving DecidableEq, Repr

/-- `N`, the block size. -/
def Size.n (c : Size) : Nat := 2 ^ c.logN

/-- `N/2`, the number of scanned bins. -/
def Size.bins (c : Size) : Nat := c.n / 2

/-- The configuration `(N, SAMPLE_W, NUM)` of the block of a `State` (00_scope R2), as plain data. -/
structure Config extends Size where
  num : NumSel
  deriving DecidableEq, Repr

/-- What the spec leaves unspecified in a block over the carriers `R` and `P`, one draw for each reset (10_state R50, 44
R202; 93 U1, U2, U5): the sample of each location, `PERIOD`, `BINRES`, and `BINRES` for a period with no resolution. -/
structure Unspecified (R P : Type) where
  sample     : Nat → Nat → Sample
  period     : Nat → P
  binRes     : Nat → R
  binResInit : Nat → P → R

/-- A block as it is built (00_scope R2, R8): the tuple `(N, SAMPLE_W, NUM)` for any `NUM` of 45_numerics R220 over any
carriers, with the draws of what is unspecified. Every operation is written over it. -/
structure Built (R P A W : Type) extends Size where
  num         : NumPort R P A W
  unspecified : Unspecified R P

/-- Building a block (00_scope R9; 95 V17): none where `CfgOK` fails. -/
def Config.build? (n sampleW : Nat) (num : NumSel) : Option Config :=
  if h : cfgOK (2 ^ n.log2) sampleW = true ∧ 2 ^ n.log2 = n then some { logN := n.log2, sampleW := sampleW, ok := h.1, num := num } else none

/-- The defaults of 00_scope R8, `N = 1024` and `SAMPLE_W = 12`, with `NUM_F32` (DESIGN CHOICE, log 1 and log 2). -/
def Config.default : Config := { logN := 10, sampleW := 12, ok := by decide, num := .f32 }

/-! ## Free values

No body: nothing can evaluate them or prove a value of them, so a claim proved about them holds for every value. The
`epoch` argument is the model's counter of resets: each `RESET` draws anew (log 12). -/

/-- `SB[i]` where nothing has been written since the reset of this epoch (10_state R50, 93 U2; log 9). -/
opaque Config.freeSample (epoch index : Nat) : Sample

/-- `PERIOD` after the reset of this epoch (10_state R50, 93 U1; log 10). -/
opaque Config.freePeriod (epoch : Nat) : Word

/-- `BINRES` after the reset of this epoch (10_state R50, 93 U1; log 10). -/
opaque Config.freeBinRes (epoch : Nat) : Word

/-- `BINRES` after an accepted `INIT` whose period is outside `binResDom` (44 R202, 93 U5; log 11). -/
opaque Config.freeBinResInit (epoch : Nat) (period : Word) : Word

/-- The operation whose NaN result is asked for. -/
inductive NanOp where
  | add | sub | mul | div | sqrt
  deriving DecidableEq, Repr

/-- Which quiet NaN a binary32 operation delivers: its sign and payload, which 45_numerics R234 leaves to IEEE 754 and
IEEE 754 leaves open (log 19). -/
opaque Config.freeNan (op : NanOp) (a b : Word) : Word

/-- `NUM_F32.tol`, left open by 45_numerics R231 (log 22). -/
opaque Config.freeTol : Word

/-- The arithmetic of a block built with `NumSel.param`, for each `L`: an arbitrary record of total functions
(45_numerics R220, R221; log 2). -/
opaque Config.param (logN : Nat) : NumPort Word Word Word Word

/-- The draws of the block of a `State`. -/
def Config.unspecified : Unspecified Word Word where
  sample     := Config.freeSample
  period     := Config.freePeriod
  binRes     := Config.freeBinRes
  binResInit := Config.freeBinResInit

end Sys2Proof
end

