-- ==== Sys2Proof/Machine/F32.lean ====
section
/-! DEFINITION. `NUM_F32`, IEEE 754 binary32 (45_numerics R234 to R239), by exact integer arithmetic narrowed at the end.

Every finite binary32 number is a whole multiple of `2^-149`, the least subnormal; `units` gives that multiple. An
operation computes its exact result as a fraction of units (for the square root, as a fraction on the same side of
every rounding boundary) and `roundUnits` rounds it to nearest, ties to even. -/

namespace Sys2Proof.Machine.F32

/-- bit 31 -/
def sign (w : Word) : Bool := w.msb

/-- bits 30:23 -/
def exponent (w : Word) : Nat := (w.extractLsb' 23 8).toNat

/-- bits 22:0 -/
def fraction (w : Word) : Nat := (w.extractLsb' 0 23).toNat

def isNan (w : Word) : Bool := exponent w == 255 && fraction w != 0

def isInf (w : Word) : Bool := exponent w == 255 && fraction w == 0

def isFinite (w : Word) : Bool := exponent w != 255

/-- `|w|` as a multiple of `2^-149`, for finite `w` (45_numerics R234; a subnormal has exponent field 0). -/
def magnitude (w : Word) : Nat :=
  if exponent w = 0 then fraction w else (2 ^ 23 + fraction w) * 2 ^ (exponent w - 1)

/-- `w` as a multiple of `2^-149`, for finite `w`. -/
def units (w : Word) : Int := if sign w then -(magnitude w : Int) else magnitude w

/-- The word with sign `s` and the 31 low bits `m`. -/
def pack (s : Bool) (m : Nat) : Word := BitVec.ofBool s ++ BitVec.ofNat 31 m

def inf (s : Bool) : Word := pack s (255 * 2 ^ 23)

/-- How many low bits of `n` are rounded away: `n` keeps 24 significant bits (a subnormal fewer). -/
def dropBits (n : Nat) : Nat := n.log2 - 23

/-- `p / q` to the nearest integer, ties to even. -/
def roundDiv (p q : Nat) : Nat :=
  let r := p % q
  if q < 2 * r ∨ (2 * r = q ∧ (p / q) % 2 = 1) then p / q + 1 else p / q

/-- The binary32 number nearest to `(-1)^s × (p/q) × 2^-149`, ties to even, infinity on overflow. With `k` bits dropped the
rounded significand `m` is at most `2^24` and `k × 2^23 + m` is the exponent and fraction field together, a carry out of
the significand included. -/
def roundUnits (s : Bool) (p q : Nat) : Word :=
  let k := dropBits (p / q)
  let bits := k * 2 ^ 23 + roundDiv p (q * 2 ^ k)
  if 255 * 2 ^ 23 ≤ bits then inf s else pack s bits

/-- A quiet NaN with the free sign and payload (log 19). -/
def nan (op : NanOp) (a b : Word) : Word := (Config.freeNan op a b &&& 0x803FFFFF#32) ||| 0x7FC00000#32

/-- The exact sum of two finite numbers, rounded. An exact zero is `+0` unless both are negative (R237). -/
def addFinite (a b : Word) : Word :=
  let v := units a + units b
  if v = 0 then pack (sign a && sign b) 0 else roundUnits (decide (v < 0)) v.natAbs 1

def neg (w : Word) : Word := w ^^^ 0x80000000#32

/-- IEEE 754 addition; `op` names the operation whose NaN this is. -/
def addAs (op : NanOp) (a b : Word) : Word :=
  if isNan a || isNan b then nan op a b
  else if isInf a then (if isInf b && (sign a != sign b) then nan op a b else a)
  else if isInf b then b
  else addFinite a b

def add (a b : Word) : Word := addAs .add a b

def sub (a b : Word) : Word := if isNan a || isNan b then nan .sub a b else addAs .sub a (neg b)

/-- IEEE 754 multiplication. -/
def mul (a b : Word) : Word :=
  let s := sign a != sign b
  if isNan a || isNan b then nan .mul a b
  else if isInf a || isInf b then
    (if (isFinite a && magnitude a == 0) || (isFinite b && magnitude b == 0) then nan .mul a b else inf s)
  else roundUnits s (magnitude a * magnitude b) (2 ^ 149)

/-- IEEE 754 division; used by `binRes` only. -/
def div (a b : Word) : Word :=
  let s := sign a != sign b
  if isNan a || isNan b then nan .div a b
  else if isInf a then (if isInf b then nan .div a b else inf s)
  else if isInf b then pack s 0
  else if magnitude b = 0 then (if magnitude a = 0 then nan .div a b else inf s)
  else roundUnits s (magnitude a * 2 ^ 149) (magnitude b)

/-- The integer square root of `m` built from bit `k - 1` down, `r` being the part already fixed. -/
def isqrtBits (m : Nat) : Nat → Nat → Nat
  | 0, r => r
  | k + 1, r => if (r + 2 ^ k) * (r + 2 ^ k) ≤ m then isqrtBits m k (r + 2 ^ k) else isqrtBits m k r

/-- The integer square root. -/
def isqrt (m : Nat) : Nat := isqrtBits m (m.log2 / 2 + 1) 0

/-- IEEE 754 square root. In units the root of `u` is the real root of `m = u × 2^149`, which is above `2^74`: every
rounding boundary is then an integer, so `isqrt m` with half a unit added where the root is not exact rounds alike. -/
def sqrt (a : Word) : Word :=
  if isNan a then nan .sqrt a a
  else if isFinite a && magnitude a == 0 then a
  else if sign a then nan .sqrt a a
  else if isInf a then a
  else
    let m := magnitude a * 2 ^ 149
    let r := isqrt m
    roundUnits false (if r * r = m then 2 * r else 2 * r + 1) 2

/-- IEEE 754 `a > b`, false if either is a NaN; the two zeros are equal. -/
def gt (a b : Word) : Bool :=
  if isNan a || isNan b then false
  else if isInf a then !sign a && !(isInf b && !sign b)
  else if isInf b then sign b
  else decide (units b < units a)

/-- A natural number, rounded; exact below `2^24` (R222, R223, R234). -/
def ofNat (n : Nat) : Word := roundUnits false (n * 2 ^ 149) 1

/-! ## The twiddle table (45_numerics R225, R234; log 20)

The cosine and sine of `2π t / N` with 160 fractional bits, from their power series, then rounded. -/

/-- `2π × 2^160`, rounded down (PRESUMED: the decimal expansion of π). -/
def twoPi : Nat := 9182885614096437842769610399486622256908310048836

/-- `Σ ± term` for the series whose next term is the last one times `x²/(k(k+1))`, 160 fractional bits, `fuel` terms. -/
def seriesSum (x2 : Nat) : Nat → Nat → Nat → Int
  | 0, _, _ => 0
  | fuel + 1, k, term => (term : Int) - seriesSum x2 fuel (k + 2) (term * x2 / (k * (k + 1)) / 2 ^ 160)

/-- The angle `2π t / 2^L` with 160 fractional bits. -/
def angle (logN t : Nat) : Nat := twoPi * t / 2 ^ logN

def cosFixed (x : Nat) : Int := seriesSum (x * x / 2 ^ 160) 40 1 (2 ^ 160)

def sinFixed (x : Nat) : Int := seriesSum (x * x / 2 ^ 160) 40 2 x

/-- A number with 160 fractional bits, rounded. -/
def ofFixed (v : Int) : Word := roundUnits (decide (v < 0)) v.natAbs (2 ^ 11)

/-- `cos(2π t / N)`, exact where it is an integer or zero (R225). -/
def twc (logN t : Nat) : Word :=
  if t = 0 then ofNat 1 else if 4 * t = 2 ^ logN then 0 else ofFixed (cosFixed (angle logN t))

/-- `sin(2π t / N)`, exact where it is an integer or zero (R225). -/
def tws (logN t : Nat) : Word :=
  if t = 0 then 0 else if 4 * t = 2 ^ logN then ofNat 1 else ofFixed (sinFixed (angle logN t))

/-- `2^-L`, for `L` at most 126. -/
def invPow2 (logN : Nat) : Word := pack false ((127 - logN) * 2 ^ 23)

/-- `1 / (N × p)`: one multiplication, one division (R226, R234). -/
def binRes (logN : Nat) (p : Word) : Word := div (ofNat 1) (mul (ofNat (2 ^ logN)) p)

def isPositive (w : Word) : Bool := isFinite w && !sign w && magnitude w != 0

/-- The finite positive periods whose resolution is finite and positive (R234, R237). -/
def binResDom (logN : Nat) (p : Word) : Bool := isPositive p && isPositive (binRes logN p)

end Sys2Proof.Machine.F32

namespace Sys2Proof.Machine

/-- `NUM_F32` for `N = 2^L` (45_numerics R234). `decP` and `enc` are the bit patterns (R236). -/
def numF32 (logN : Nat) : NumPort Word Word Word Word where
  zero      := 0
  ofSample  := F32.ofNat
  ofIndex   := F32.ofNat
  add       := F32.add
  sub       := F32.sub
  mul       := F32.mul
  scaleInvN := fun a => F32.mul a (F32.invPow2 logN)
  sqrt      := F32.sqrt
  gt        := F32.gt
  twc       := F32.twc logN
  tws       := F32.tws logN
  binRes    := F32.binRes logN
  binResDom := F32.binResDom logN
  tol       := Config.freeTol
  decP      := fun w => w
  enc       := fun x => x

end Sys2Proof.Machine
end

