-- ==== Sys2Proof/Syntax.lean ====
section
/-! DEFINITION. The 14 operations of spec/opcode_table.json (30_encoding R96), the agents that issue them (00_scope R6) and
the words they arrive in (30_encoding R90). -/

namespace Sys2Proof

/-- One constructor per row of the operation map, in the table's order. Fields the operation ignores (R91, R92) are no
part of it; `INIT` keeps its argument word, `SWR` its two fields. -/
inductive Instr where
  | nop
  | init (arg : Word)
  | rdfreq
  | rdstat
  | swr (idx : IndexField) (data : Sample)
  | cplt
  | claim
  | dcr
  | fft
  | mag
  | peak
  | pub
  | rearm
  | reset
  deriving DecidableEq, Repr

/-- The three agents (00_scope R6). -/
inductive Agent where
  | host
  | dma
  | seq
  deriving DecidableEq, Repr

/-- A word on one of the ports of 30_encoding R90. The formats are told apart by the port, not by any bit (R96). -/
inductive PortWord where
  /-- format H, the host command port -/
  | command (cw : CommandWord)
  /-- format E, the DMA event port -/
  | event (ew : EventWord)
  /-- format U, the value of `PH` -/
  | phase (code : PhaseCode)
  /-- format W, the reset wire -/
  | resetWire (rst : ResetLevel)
  deriving DecidableEq, Repr

/-- Who issues an operation (00_scope R6; the table's column `agent`). -/
def Instr.agent : Instr → Agent
  | .nop => .host
  | .init _ => .host
  | .rdfreq => .host
  | .rdstat => .host
  | .swr _ _ => .dma
  | .cplt => .dma
  | .claim => .seq
  | .dcr => .seq
  | .fft => .seq
  | .mag => .seq
  | .peak => .seq
  | .pub => .seq
  | .rearm => .seq
  | .reset => .host

/-- What the environment offers next (00_scope R6, R7): a word on a port of the host or of the DMA engine, a level of the
reset wire, or the sequencer's turn. The DMA engine has only the event port and the host only the other two (60 R262). -/
inductive Input where
  | command (cw : CommandWord)
  | event (ew : EventWord)
  | resetWire (rst : ResetLevel)
  | sequencer
  deriving DecidableEq, Repr

end Sys2Proof
end

