-- ==== Sys2Proof/Machine/State.lean ====
section
/-! DEFINITION. The state of PEDSP-CORE (10_state R20) as plain data, its state after reset (10_state R50), and the reasons a
step can stop. -/

namespace Sys2Proof.Machine

/-- `ST` (10_state R21). -/
inductive CtrlState where
  /-- no acquisition armed -/
  | idle
  /-- hardware actively filling the block -/
  | acquiring
  /-- block complete, awaiting pipeline consumption -/
  | ready
  /-- the pipeline has claimed the block -/
  | processing
  deriving DecidableEq, Repr

/-- `PH` (10_state R30): which sequencer operation is enabled. Exactly the eight values of 30_encoding R103. -/
inductive Phase where
  | wait
  | claim
  | dcr
  | fft
  | mag
  | peak
  | pub
  | rearm
  deriving DecidableEq, Repr

/-- The sample memory `SB` (10_state R44, 20_memory R60) as the samples written since the last reset, by rising index. A
location not listed has not been written since and holds that reset's unspecified value (log 9, log 17). -/
abbrev Memory := List (Nat × Sample)

/-- The registers an operation can find without a value, each live only from one operation to the next (10_state R43). `MEAN`
and `MAXM` also hold no value outside their live range, but no operation reads one that another wrote (R25, R27). -/
inductive Transient where
  | cs
  | xr
  | xi
  | mg
  | kmax
  deriving DecidableEq, Repr

/-- Why the machine stops with a fault. -/
inductive Fault where
  /-- A sequencer operation read a transient register that holds no value (10_state R43, 93 U6). Raised by `execFft`,
  `execMag`, `execPeak` and `execPub`, only in states outside the invariant `State.Inv`. Safe: the spec defines nothing there. -/
  | noValue (r : Transient)
  deriving DecidableEq, Repr

/-- Why the machine gives an instruction no step. -/
inductive Refusal where
  /-- The instruction has no meaning in this model. Raised only by a refused arm of `exec`. Safe. -/
  | notModelled (mnemonic : String)
  /-- A sequencer operation was asked for while `PH` does not hold its code: an operation that is not enabled has no step
  (00_scope R12, 10_state R31). Raised by the seven sequencer meanings, never through `step`. Safe. -/
  | notEnabled (mnemonic : String)
  deriving DecidableEq, Repr

/-- The registers of a block (10_state R20) over the carriers `R` and `P` of its `NUM`, and the model's count of resets. -/
structure BlockState (R P : Type) where
  st      : CtrlState
  ph      : Phase
  /-- the flag reading-valid (10_state R34) -/
  rv      : Bool
  /-- CR1 (10_state R37) -/
  period  : P
  /-- CR2 (10_state R38) -/
  binres  : R
  /-- CR3 (10_state R39) -/
  reading : R
  sb      : Memory
  mean    : Option R
  cs      : Option (List R)
  xr      : Option (List R)
  xi      : Option (List R)
  mg      : Option (List R)
  kmax    : Option Nat
  maxm    : Option R
  /-- the ghost generation counter (10_state R47, log 21) -/
  gen     : Nat
  /-- the model's own count of resets, which the free values are drawn by (log 12) -/
  epoch   : Nat
  deriving DecidableEq, Repr

/-- The whole state of the machine, plain data: the registers, over 32-bit carriers, then what the model keeps beside them
(INVENTORY.md). A block over any other carriers is a `BlockMachine` of Machine/Over.lean, on the same registers and operations
(log 2, log 3). -/
structure State extends BlockState Word Word where
  /-- the tuple `(N, SAMPLE_W, NUM)` the block was built with (00_scope R8); no step writes it (log 1) -/
  cfg     : Config
  /-- the response word of the step just taken, none where it gave none (30_encoding R91, log 8) -/
  resp    : Option Word
  /-- the environment's operations still to come, in step order (00_scope R7, log 4) -/
  script  : List Input
  deriving DecidableEq, Repr

/-- The state after reset (10_state R50, 70 R280), for the default configuration, with nothing offered by the environment.
`READING` is `NUM.zero` of `NUM_F32`, `+0` (45_numerics R237). `PERIOD`, `BINRES` and every `SB[i]` are unspecified: the free
values of epoch 0 (log 9, log 10). -/
def State.reset : State where
  cfg     := Config.default
  st      := .idle
  ph      := .wait
  rv      := false
  period  := Config.freePeriod 0
  binres  := Config.freeBinRes 0
  reading := 0
  sb      := []
  mean    := none
  cs      := none
  xr      := none
  xi      := none
  mg      := none
  kmax    := none
  maxm    := none
  gen     := 0
  epoch   := 0
  resp    := none
  script  := []

end Sys2Proof.Machine
end

