-- ==== Sys2Proof/WellFormed.lean ====
section
/-! DEFINITION. Which operations have an encoding that is not reserved, for a given configuration (30_encoding R95, R102). -/

namespace Sys2Proof

/-- The index of an `SWR` names a location: `idx < N` (30_encoding R92, R102). -/
def indexOk (c : Size) (idx : IndexField) : Bool := decide (idx.toNat < c.n)

/-- The data of an `SWR` fits a sample: `data < 2^SAMPLE_W` (30_encoding R92, R102). -/
def dataOk (c : Size) (data : Sample) : Bool := decide (data.toNat < 2 ^ c.sampleW)

/-- Well-formed under `c`. Only `SWR` has a constraint (opcode_table.json, `constraints`). -/
def Instr.wf (c : Config) : Instr → Bool
  | .nop => true
  | .init _ => true
  | .rdfreq => true
  | .rdstat => true
  | .swr idx data => indexOk c.toSize idx && dataOk c.toSize data
  | .cplt => true
  | .claim => true
  | .dcr => true
  | .fft => true
  | .mag => true
  | .peak => true
  | .pub => true
  | .rearm => true
  | .reset => true

end Sys2Proof
end

