-- ==== Sys2Proof/Machine/Ops.lean ====
section
/-! DEFINITION. The named operations the meanings are written over: the sample memory, the transient registers, dropping an
operation, entering and leaving the pipeline. -/

namespace Sys2Proof.Machine

/-- What an operation on the registers of a block answers. -/
abbrev BlockResult (R P : Type) := Host.Outcome (BlockState R P) Fault Refusal

/-- What every meaning answers. -/
abbrev Result := Host.Outcome State Fault Refusal

/-- The arithmetic a configuration names (00_scope R8, `NUM`). -/
def numOf (c : Config) : NumPort Word Word Word Word :=
  match c.num with
  | .f32 => numF32 c.logN
  | .param => Config.param c.logN

/-- The block a configuration describes. -/
def Config.built (c : Config) : Built Word Word Word Word where
  toSize      := c.toSize
  num         := numOf c
  unspecified := Config.unspecified

/-- The block of a state. -/
def State.built (s : State) : Built Word Word Word Word := Config.built s.cfg

/-- `NUM` of the block of a state. -/
def State.num (s : State) : NumPort Word Word Word Word := numOf s.cfg

/-- The state with other registers. -/
def State.withBlock (s : State) (x : BlockState Word Word) : State := { s with toBlockState := x }

/-- An operation on the registers, on the whole state. -/
def State.onBlock (s : State) : BlockResult Word Word → Result
  | .next x => .next (s.withBlock x)
  | .fault f => .fault f
  | .refused r => .refused r

/-- The output `dma_en` (10_state R49, 40 R123). -/
def BlockState.dmaEn {R P : Type} (x : BlockState R P) : Bool := x.st == .acquiring

/-! ## The sample memory (20_memory R60) -/

/-- The sample last written to location `i`, none where nothing has been written since reset. -/
def Memory.find : Memory → Nat → Option Sample
  | [], _ => none
  | (j, w) :: m, i => if j = i then some w else Memory.find m i

/-- Writes location `i`, keeping the indices rising. -/
def Memory.store : Memory → Nat → Sample → Memory
  | [], i, v => [(i, v)]
  | (j, w) :: m, i, v =>
    if i < j then (i, v) :: (j, w) :: m
    else if i = j then (i, v) :: m
    else (j, w) :: Memory.store m i v

/-- The canonical form: rising indices, each below `N`, each sample below `2^SAMPLE_W` (20_memory R60, R62). -/
def Memory.wf (c : Size) (m : Memory) : Bool :=
  decide (m.Pairwise fun a b => a.1 < b.1) && m.all fun e => decide (e.1 < c.n) && dataOk c e.2

/-- What a location not written since the reset of `epoch` holds: an unspecified sample of `SAMPLE_W` bits (10_state R50,
93 U2; log 9). -/
def unwrittenSample {R P A W : Type} (b : Built R P A W) (epoch i : Nat) : Sample :=
  BitVec.ofNat 16 ((b.unspecified.sample epoch i).toNat % 2 ^ b.sampleW)

/-- `MemRead(i, 1)` (00_scope R11, 20_memory R60): no side effect (R63). -/
def readOver {R P A W : Type} (b : Built R P A W) (x : BlockState R P) (i : Nat) : Sample :=
  (x.sb.find i).getD (unwrittenSample b x.epoch i)

/-- `MemWrite(i, 1, v)` (00_scope R11, 20_memory R60). -/
def memWrite {R P : Type} (i : Nat) (v : Sample) (x : BlockState R P) : BlockState R P := { x with sb := x.sb.store i v }

/-- The block `SB[0], ..., SB[N-1]`. -/
def samplesOver {R P A W : Type} (b : Built R P A W) (x : BlockState R P) : List Sample :=
  (List.range b.n).map (readOver b x)

/-- `MemRead(i, 1)` in a state. -/
def memRead (s : State) (i : Nat) : Sample := readOver s.built s.toBlockState i

/-- The samples in the buffer of a state. -/
def samples (s : State) : List Sample := samplesOver s.built s.toBlockState

/-! ## Dropped operations (60 R250, R251) -/

/-- The reasons an operation is dropped. The hardware records none of them (R250; log 26). -/
inductive DropReason where
  | spurious
  | gateClosed
  | alreadyInitialised
  | reservedHostOp
  | reservedEvent
  deriving DecidableEq, Repr

/-- `raise Drop(reason)` (00_scope R11): the state as it was. -/
def drop {S : Type} (_reason : DropReason) (s : S) : S := s

/-! ## The transient registers (10_state R43) -/

/-- An array register as an operation reads it: it holds a value only as a whole array of `n` elements (log 13). -/
def liveArray {R : Type} (n : Nat) : Option (List R) → Option (List R)
  | some l => if l.length = n then some l else none
  | none => none

/-- Reading a transient register: a fault where it holds no value (10_state R43). -/
def withValue {T S : Type} (r : Transient) (v : Option T) (act : T → Host.Outcome S Fault Refusal) :
    Host.Outcome S Fault Refusal :=
  match v with
  | some x => act x
  | none => .fault (.noValue r)

/-- `MEAN, CS, XR, XI, MG, KMAX, MAXM <- no value` (40 R128, 70 R280). -/
def clearTransients {R P : Type} (x : BlockState R P) : BlockState R P :=
  { x with mean := none, cs := none, xr := none, xi := none, mg := none, kmax := none, maxm := none }

/-! ## Enabledness and control transfer (00_scope R12, 10_state R31, R32) -/

/-- A sequencer operation acts only when `PH` holds its code; otherwise it has no step (log 14). -/
def whenEnabled {R P : Type} (p : Phase) (mnemonic : String) (x : BlockState R P) (act : BlockResult R P) :
    BlockResult R P :=
  if x.ph = p then act else .refused (.notEnabled mnemonic)

/-- The interrupt entry (60 R255), the accepted completion signal: it saves nothing, closes the gate and enables `CLAIM`. -/
def acceptCompletion {R P : Type} (x : BlockState R P) : BlockState R P := { x with st := .ready, ph := .claim }

/-- The return (60 R256): the gate opens, the sequencer waits, the transients lose their values, the ghost generation
counter advances (40 R128). -/
def returnToAcquiring {R P : Type} (x : BlockState R P) : BlockState R P :=
  { clearTransients x with st := .acquiring, ph := .wait, gen := x.gen + 1 }

end Sys2Proof.Machine
end

