-- ==== Sys2Proof/Machine/Flags.lean ====
section
/-! DEFINITION. The one flag `RV` and the status view (10_state R22, R30, R34, R36). There are no arithmetic condition codes
(R34). -/

namespace Sys2Proof.Machine

/-- The encoding of `ST` (10_state R22). -/
def ctrlCode : CtrlState → BitVec 2
  | .idle => 0
  | .acquiring => 1
  | .ready => 2
  | .processing => 3

/-- The code `PH` holds (10_state R30, 30_encoding R93). -/
def phaseCode : Phase → PhaseCode
  | .wait => 0x0
  | .claim => 0x8
  | .dcr => 0x9
  | .fft => 0xA
  | .mag => 0xB
  | .peak => 0xC
  | .pub => 0xD
  | .rearm => 0xE

/-- `STATUS` (10_state R36, 44 R204): `PH ++ 0b0 ++ RV ++ ST`, zero-extended to 32 bits. -/
def statusOver {R P : Type} (x : BlockState R P) : Word :=
  (((phaseCode x.ph ++ 0#1) ++ BitVec.ofBool x.rv) ++ ctrlCode x.st).setWidth 32

/-- `STATUS` of a state. -/
def status (s : State) : Word := statusOver s.toBlockState

/-- `RV <- 1` (43 R187). -/
def setReadingValid {R P : Type} (x : BlockState R P) : BlockState R P := { x with rv := true }

end Sys2Proof.Machine
end

