-- ==== Sys2Proof/Machine/Operands.lean ====
section
/-! DEFINITION. Operand and response forms (30_encoding R95). There is no sign extension, scaling or shifting. -/

namespace Sys2Proof.Machine

/-- The period of an `INIT`: `NUM.decP(arg)`. -/
def periodOperand {R P A W : Type} (b : Built R P A W) (arg : A) : P := b.num.decP arg

/-- The index of an `SWR`, an unsigned integer. -/
def indexOperand (idx : IndexField) : Nat := idx.toNat

/-- The legality of an `SWR`'s operands (30_encoding R95, R102). -/
def sampleOperandsOk (c : Size) (idx : IndexField) (data : Sample) : Bool := indexOk c idx && dataOk c data

/-- What a host operation returns (30_encoding R91, R95): `0x00000000`, the status word, or `NUM.enc` of the Reading in the
form `W` the host port carries it in. -/
inductive Response (W : Type) where
  | null
  | status (w : Word)
  | reading (w : W)
  deriving DecidableEq, Repr

/-- The 32-bit response word, where the port carries words. -/
def responseWord : Response Word → Word
  | .null => 0
  | .status w => w
  | .reading w => w

/-- The response of `RDFREQ`: `NUM.enc(READING)`. -/
def readingResponse {R P A W : Type} (b : Built R P A W) (x : BlockState R P) : Response W := .reading (b.num.enc x.reading)

/-- The response of `RDSTAT`: `STATUS`. -/
def statusResponse {R P W : Type} (x : BlockState R P) : Response W := .status (statusOver x)

/-- Presents a response word in this step (30_encoding R91; log 8). -/
def respond (r : Response Word) (s : State) : State := { s with resp := some (responseWord r) }

end Sys2Proof.Machine
end

