-- ==== Sys2Proof/Machine/Controller.lean ====
section
/-! DEFINITION. The acquisition controller's operations `SWR`, `CPLT`, `CLAIM`, `REARM` (40_acquisition_controller), each on the
registers of any block and then on the state. -/

namespace Sys2Proof.Machine

/-- 40 R124, after the reserved encodings of 30_encoding R102. -/
def swrOver {R P A W : Type} (b : Built R P A W) (idx : IndexField) (data : Sample) (x : BlockState R P) : BlockState R P :=
  if sampleOperandsOk b.toSize idx data then
    (if x.st = .acquiring then memWrite (indexOperand idx) data x else drop .gateClosed x)
  else drop .reservedEvent x

/-- 40 R124. -/
def execSwr (idx : IndexField) (data : Sample) (s : State) : Result :=
  .next (s.withBlock (swrOver s.built idx data s.toBlockState))

/-- 40 R126, on the registers of any block. -/
def cpltOver {R P : Type} (x : BlockState R P) : BlockState R P :=
  if x.st = .acquiring then acceptCompletion x else drop .spurious x

/-- 40 R126. -/
def execCplt (s : State) : Result := .next (s.withBlock (cpltOver s.toBlockState))

/-- 40 R127, on the registers of any block. -/
def claimOver {R P : Type} (x : BlockState R P) : BlockResult R P :=
  whenEnabled .claim "CLAIM" x (.next { x with st := .processing, ph := .dcr })

/-- 40 R127. -/
def execClaim (s : State) : Result := s.onBlock (claimOver s.toBlockState)

/-- 40 R128, on the registers of any block. -/
def rearmOver {R P : Type} (x : BlockState R P) : BlockResult R P :=
  whenEnabled .rearm "REARM" x (.next (returnToAcquiring x))

/-- 40 R128. -/
def execRearm (s : State) : Result := s.onBlock (rearmOver s.toBlockState)

end Sys2Proof.Machine
end

