-- ==== Sys2Proof/Machine/Detector.lean ====
section
/-! DEFINITION. The magnitude converter and the peak detector (43_magnitude_peak): the arithmetic over any `NUM`, and `MAG`,
`PEAK`, `PUB`. -/

namespace Sys2Proof.Machine

/-- The magnitude of one bin (43 R181): the square root is taken (R182). -/
def magnitudeOf {R P : Type} (num : Num R P) (re im : R) : R :=
  num.sqrt (num.add (num.mul re re) (num.mul im im))

/-- The magnitudes of bins `0 .. bins - 1` (43 R181). -/
def magnitudes {R P : Type} (num : Num R P) (bins : Nat) (xr xi : List R) : List R :=
  (List.range bins).map fun k => magnitudeOf num (xr.getD k num.zero) (xi.getD k num.zero)

/-- 43 R184's loop from bin `k` on, with the stored maximum so far: strict greater-than replaces it. -/
def scanFrom {R P : Type} (num : Num R P) : Nat → Nat × R → List R → Nat × R
  | _, best, [] => best
  | k, best, v :: vs => scanFrom num (k + 1) (if num.gt v best.2 then (k, v) else best) vs

/-- `(KMAX, MAXM)` of the magnitudes: start at bin 0, scan from bin 1 (43 R184). The array is never empty (`N >= 2`). -/
def peakScan {R P : Type} (num : Num R P) : List R → Nat × R
  | [] => (0, num.zero)
  | m :: ms => scanFrom num 1 (0, m) ms

/-- The Reading of a bin (43 R187). -/
def readingOf {R P : Type} (num : Num R P) (kmax : Nat) (binres : R) : R := num.mul (num.ofIndex kmax) binres

/-- 43 R181, on the registers of any block. -/
def magOver {R P A W : Type} (b : Built R P A W) (x : BlockState R P) : BlockResult R P :=
  whenEnabled .mag "MAG" x
    (withValue .xr (liveArray b.n x.xr) fun xr =>
      withValue .xi (liveArray b.n x.xi) fun xi =>
        .next { x with mg := some (magnitudes b.num.toNum b.bins xr xi), xr := none, xi := none, ph := .peak })

/-- 43 R181. -/
def execMag (s : State) : Result := s.onBlock (magOver s.built s.toBlockState)

/-- 43 R184, on the registers of any block. -/
def peakOver {R P A W : Type} (b : Built R P A W) (x : BlockState R P) : BlockResult R P :=
  whenEnabled .peak "PEAK" x
    (withValue .mg (liveArray b.bins x.mg) fun mg =>
      .next { x with
        kmax := some (peakScan b.num.toNum mg).1
        maxm := some (peakScan b.num.toNum mg).2
        mg := none
        ph := .pub })

/-- 43 R184. -/
def execPeak (s : State) : Result := s.onBlock (peakOver s.built s.toBlockState)

/-- 43 R187, on the registers of any block. `READING` is written whole, in the step that sets `RV`. -/
def pubOver {R P A W : Type} (b : Built R P A W) (x : BlockState R P) : BlockResult R P :=
  whenEnabled .pub "PUB" x
    (withValue .kmax x.kmax fun k =>
      .next (setReadingValid
        { x with reading := readingOf b.num.toNum k x.binres, kmax := none, maxm := none, ph := .rearm }))

/-- 43 R187. -/
def execPub (s : State) : Result := s.onBlock (pubOver s.built s.toBlockState)

end Sys2Proof.Machine
end

