-- ==== Sys2Proof/Machine/HostPort.lean ====
section
/-! DEFINITION. The host operations `NOP`, `INIT`, `RDFREQ`, `RDSTAT` (44_host_interface). -/

namespace Sys2Proof.Machine

/-- 44 R200. -/
def execNop (s : State) : Result := .next (respond .null s)

/-- `BINRES` of a period: `NUM.binRes(p)` in its domain, unspecified outside (44 R201, R202; log 11). -/
def resolutionOf {R P A W : Type} (b : Built R P A W) (epoch : Nat) (p : P) : R :=
  if b.num.binResDom p then b.num.binRes p else b.unspecified.binResInit epoch p

/-- The accepted `INIT` (44 R201). -/
def initialise {R P A W : Type} (b : Built R P A W) (p : P) (x : BlockState R P) : BlockState R P :=
  { x with period := p, binres := resolutionOf b x.epoch p, st := .acquiring, gen := x.gen + 1 }

/-- 44 R201, on the registers of any block. -/
def initOver {R P A W : Type} (b : Built R P A W) (arg : A) (x : BlockState R P) : BlockState R P :=
  if x.st = .idle then initialise b (periodOperand b arg) x else drop .alreadyInitialised x

/-- 44 R201. -/
def execInit (arg : Word) (s : State) : Result :=
  .next (respond .null (s.withBlock (initOver s.built arg s.toBlockState)))

/-- 44 R203. -/
def execRdfreq (s : State) : Result := .next (respond (readingResponse s.built s.toBlockState) s)

/-- 44 R204. -/
def execRdstat (s : State) : Result := .next (respond (statusResponse s.toBlockState) s)

end Sys2Proof.Machine
end

