-- ==== Sys2Proof/Machine/Remover.lean ====
section
/-! DEFINITION. The DC-offset remover (41_dc_offset_remover): the arithmetic over any `NUM`, and `DCR`. -/

namespace Sys2Proof.Machine

/-- The running accumulation of 41 R151's first loop: from `NUM.zero`, ascending, each term scaled by `1/N`. -/
def blockMean {R P : Type} (num : Num R P) (sb : List Sample) : R :=
  sb.foldl (fun m v => num.add m (num.scaleInvN (num.ofSample v.toNat))) num.zero

/-- 41 R151's second loop: every sample less the mean. -/
def centred {R P : Type} (num : Num R P) (sb : List Sample) : List R :=
  sb.map fun v => num.sub (num.ofSample v.toNat) (blockMean num sb)

/-- 41 R151, on the registers of any block. -/
def dcrOver {R P A W : Type} (b : Built R P A W) (x : BlockState R P) : BlockResult R P :=
  whenEnabled .dcr "DCR" x
    (.next { x with
      mean := some (blockMean b.num.toNum (samplesOver b x))
      cs := some (centred b.num.toNum (samplesOver b x))
      ph := .fft })

/-- 41 R151. -/
def execDcr (s : State) : Result := s.onBlock (dcrOver s.built s.toBlockState)

end Sys2Proof.Machine
end

