-- ==== Sys2Proof/Machine/Reset.lean ====
section
/-! DEFINITION. `RESET` (70_reset_and_hazards R280). -/

namespace Sys2Proof.Machine

/-- The registers after the reset with number `epoch` (70 R280, 10_state R50). `PERIOD`, `BINRES` and every `SB[i]` are
unspecified: the draws of that number (log 9, log 10, log 12). -/
def resetBlock {R P A W : Type} (b : Built R P A W) (epoch : Nat) : BlockState R P where
  st      := .idle
  ph      := .wait
  rv      := false
  period  := b.unspecified.period epoch
  binres  := b.unspecified.binRes epoch
  reading := b.num.zero
  sb      := []
  mean    := none
  cs      := none
  xr      := none
  xi      := none
  mg      := none
  kmax    := none
  maxm    := none
  gen     := 0
  epoch   := epoch

/-- 70 R280, on the registers of any block. -/
def resetOver {R P A W : Type} (b : Built R P A W) (x : BlockState R P) : BlockState R P := resetBlock b (x.epoch + 1)

/-- 70 R280. The configuration and the environment's script are no state of the block. -/
def execReset (s : State) : Result := .next (s.withBlock (resetOver s.built s.toBlockState))

end Sys2Proof.Machine
end

