-- ==== Sys2Proof/Machine/Transform.lean ====
section
/-! DEFINITION. The spectral transform (42_spectral_transform): the reference algorithm over any `NUM`, and `FFT`. -/

namespace Sys2Proof.Machine

/-- The arrays `XR`, `XI` (10_state R41). -/
structure Spectrum (R : Type) where
  re : List R
  im : List R
  deriving DecidableEq, Repr

/-- `bitrev_L(n)` (00_scope R10): the `L` low bits of `n` in reverse. -/
def bitrev : Nat → Nat → Nat
  | 0, _ => 0
  | l + 1, n => (n % 2) * 2 ^ l + bitrev l (n / 2)

/-- The initial permutation: `XR[bitrev_L(n)] <- CS[n]`, `XI <- 0` (42 R161). -/
def loadReversed {R P : Type} (num : Num R P) (logN : Nat) (cs : List R) : Spectrum R where
  re := cs.zipIdx.foldl (fun xr e => xr.set (bitrev logN e.2) e.1) (List.replicate (2 ^ logN) num.zero)
  im := List.replicate (2 ^ logN) num.zero

/-- One butterfly of 42 R161: group base `b`, index `j`, half size `h`, twiddle `wr - j ws`. -/
def butterfly {R P : Type} (num : Num R P) (b j h : Nat) (wr ws : R) (x : Spectrum R) : Spectrum R :=
  let a := x.re.getD (b + j + h) num.zero
  let c := x.im.getD (b + j + h) num.zero
  let vr := num.add (num.mul a wr) (num.mul c ws)
  let vi := num.sub (num.mul c wr) (num.mul a ws)
  let ur := x.re.getD (b + j) num.zero
  let ui := x.im.getD (b + j) num.zero
  { re := (x.re.set (b + j) (num.add ur vr)).set (b + j + h) (num.sub ur vr)
    im := (x.im.set (b + j) (num.add ui vi)).set (b + j + h) (num.sub ui vi) }

/-- The butterflies of one group, `j` ascending; the twiddle index is `j × (N/m)` with `m = 2^stage` (42 R161). -/
def group {R P : Type} (num : Num R P) (logN stage b : Nat) (x : Spectrum R) : Spectrum R :=
  (List.range (2 ^ stage / 2)).foldl
    (fun x j =>
      butterfly num b j (2 ^ stage / 2) (num.twc (j * (2 ^ logN / 2 ^ stage))) (num.tws (j * (2 ^ logN / 2 ^ stage))) x)
    x

/-- One stage: the groups at `0, m, 2m, ..., N - m`, ascending (42 R161). -/
def fftStage {R P : Type} (num : Num R P) (logN stage : Nat) (x : Spectrum R) : Spectrum R :=
  (List.range (2 ^ logN / 2 ^ stage)).foldl (fun x g => group num logN stage (g * 2 ^ stage) x) x

/-- The reference algorithm of 42 R161: stages `1 .. L` over the bit-reversed input. -/
def transform {R P : Type} (num : Num R P) (logN : Nat) (cs : List R) : Spectrum R :=
  (List.range logN).foldl (fun x k => fftStage num logN (k + 1) x) (loadReversed num logN cs)

/-- 42 R161, on the registers of any block. -/
def fftOver {R P A W : Type} (b : Built R P A W) (x : BlockState R P) : BlockResult R P :=
  whenEnabled .fft "FFT" x
    (withValue .cs (liveArray b.n x.cs) fun cs =>
      .next { x with
        xr := some (transform b.num.toNum b.logN cs).re
        xi := some (transform b.num.toNum b.logN cs).im
        cs := none
        ph := .mag })

/-- 42 R161. -/
def execFft (s : State) : Result := s.onBlock (fftOver s.built s.toBlockState)

end Sys2Proof.Machine
end

