-- ==== Sys2Proof/Machine/Dispatch.lean ====
section
/-! DEFINITION. Which meaning each instruction has. -/

namespace Sys2Proof.Machine

def exec (i : Instr) (s : State) : Host.Outcome State Fault Refusal :=
  match i with
  | .nop => Sys2Proof.Machine.execNop s
  | .init arg => Sys2Proof.Machine.execInit arg s
  | .rdfreq => Sys2Proof.Machine.execRdfreq s
  | .rdstat => Sys2Proof.Machine.execRdstat s
  | .swr idx data => Sys2Proof.Machine.execSwr idx data s
  | .cplt => Sys2Proof.Machine.execCplt s
  | .claim => Sys2Proof.Machine.execClaim s
  | .dcr => Sys2Proof.Machine.execDcr s
  | .fft => Sys2Proof.Machine.execFft s
  | .mag => Sys2Proof.Machine.execMag s
  | .peak => Sys2Proof.Machine.execPeak s
  | .pub => Sys2Proof.Machine.execPub s
  | .rearm => Sys2Proof.Machine.execRearm s
  | .reset => Sys2Proof.Machine.execReset s

end Sys2Proof.Machine
end

