-- ==== Sys2Proof/Decode.lean ====
section
/-! DEFINITION. Decoding of the words of 30_encoding R90 to R103, total and rejecting by name, and the encoder. -/

namespace Sys2Proof

/-- Why a word is no operation. -/
inductive Reject where
  /-- a host operation code 0x4 to 0xF (30_encoding R101) -/
  | reservedHostOp
  /-- a DMA event word with kind 0b11 (R102) -/
  | reservedKind
  /-- an `SWR` with `idx >= N` (R102) -/
  | indexOutOfRange
  /-- an `SWR` with `data >= 2^SAMPLE_W` (R102) -/
  | dataOutOfRange
  /-- a DMA event word with kind 0b00: the absence of an event (R92) -/
  | noEvent
  /-- the reset wire at 0: no operation (R94) -/
  | noReset
  /-- the phase 0x0: no sequencer operation is enabled (R93) -/
  | waiting
  /-- a phase code 0x1 to 0x7 or 0xF, which `PH` never holds (R103) -/
  | noSuchPhase
  deriving DecidableEq, Repr

/-- Format H: `op = cw[35:32]`, `arg = cw[31:0]` (30_encoding R91, R96). -/
def decodeCommand (cw : CommandWord) : Except Reject Instr :=
  match (cw.extractLsb' 32 4).toNat with
  | 0x0 => .ok .nop
  | 0x1 => .ok (.init (cw.extractLsb' 0 32))
  | 0x2 => .ok .rdfreq
  | 0x3 => .ok .rdstat
  | _ => .error .reservedHostOp

/-- The `SWR` of an event word: `idx = ew[31:16]`, `data = ew[15:0]`, both in range (30_encoding R92, R95, R102). -/
def decodeSampleWrite (c : Config) (ew : EventWord) : Except Reject Instr :=
  if indexOk c.toSize (ew.extractLsb' 16 16) then
    if dataOk c.toSize (ew.extractLsb' 0 16) then .ok (.swr (ew.extractLsb' 16 16) (ew.extractLsb' 0 16))
    else .error .dataOutOfRange
  else .error .indexOutOfRange

/-- Format E: `kind = ew[33:32]` (30_encoding R92, R96). -/
def decodeEvent (c : Config) (ew : EventWord) : Except Reject Instr :=
  match (ew.extractLsb' 32 2).toNat with
  | 0b00 => .error .noEvent
  | 0b01 => decodeSampleWrite c ew
  | 0b10 => .ok .cplt
  | _ => .error .reservedKind

/-- Format U: the operation codes of 30_encoding R93 and R96. -/
def decodePhase (code : PhaseCode) : Except Reject Instr :=
  match code.toNat with
  | 0x0 => .error .waiting
  | 0x8 => .ok .claim
  | 0x9 => .ok .dcr
  | 0xA => .ok .fft
  | 0xB => .ok .mag
  | 0xC => .ok .peak
  | 0xD => .ok .pub
  | 0xE => .ok .rearm
  | _ => .error .noSuchPhase

/-- Format W (30_encoding R94). -/
def decodeReset (rst : ResetLevel) : Except Reject Instr :=
  if rst = 1#1 then .ok .reset else .error .noReset

/-- The operation of a word on its port (30_encoding R90, R96). -/
def decode (c : Config) : PortWord → Except Reject Instr
  | .command cw => decodeCommand cw
  | .event ew => decodeEvent c ew
  | .phase code => decodePhase code
  | .resetWire rst => decodeReset rst

/-- A command word from its two fields (30_encoding R91). -/
def commandWord (op : BitVec 4) (arg : Word) : CommandWord := op ++ arg

/-- An event word from its three fields (30_encoding R92). -/
def eventWord (kind : BitVec 2) (idx : IndexField) (data : Sample) : EventWord := (kind ++ idx) ++ data

/-- The word of an operation, ignored fields zero as in 30_encoding R105. -/
def encode : Instr → PortWord
  | .nop => .command (commandWord 0x0 0)
  | .init arg => .command (commandWord 0x1 arg)
  | .rdfreq => .command (commandWord 0x2 0)
  | .rdstat => .command (commandWord 0x3 0)
  | .swr idx data => .event (eventWord 0b01 idx data)
  | .cplt => .event (eventWord 0b10 0 0)
  | .claim => .phase 0x8
  | .dcr => .phase 0x9
  | .fft => .phase 0xA
  | .mag => .phase 0xB
  | .peak => .phase 0xC
  | .pub => .phase 0xD
  | .rearm => .phase 0xE
  | .reset => .resetWire 1

/-- The port a table word of `nbits` bits belongs to (log 7). The formats have 36, 34, 4 and 1 bits (30_encoding R90); in
whole bytes H and E are both 40 and U and W both 8, and only the port could tell them apart (R96): a 40-bit word is taken
as a host command, an 8-bit word as the reset wire when it is 0 or 1 and as a phase code otherwise. -/
def tableWordPort (nbits w : Nat) : Option PortWord :=
  match nbits with
  | 36 => if w < 2 ^ 36 then some (.command (BitVec.ofNat 36 w)) else none
  | 40 => if w < 2 ^ 36 then some (.command (BitVec.ofNat 36 w)) else none
  | 34 => if w < 2 ^ 34 then some (.event (BitVec.ofNat 34 w)) else none
  | 4 => if w < 2 ^ 4 then some (.phase (BitVec.ofNat 4 w)) else none
  | 1 => if w < 2 then some (.resetWire (BitVec.ofNat 1 w)) else none
  | 8 =>
    if w < 2 then some (.resetWire (BitVec.ofNat 1 w))
    else if w < 2 ^ 4 then some (.phase (BitVec.ofNat 4 w)) else none
  | _ => none

/-- The operation of a table word, read by the decoder under the default configuration. -/
def decodeTableWord (nbits w : Nat) : Option Instr :=
  match tableWordPort nbits w with
  | none => none
  | some p => (decode Config.default p).toOption

end Sys2Proof
end

