-- ==== Sys2Proof/Machine/Fetch.lean ====
section
/-! DEFINITION. Which operation comes next: the environment's script, and the sequencer's turn (00_scope R6, R7, R12; log 4,
log 5). The block fetches nothing (20_memory R71). -/

namespace Sys2Proof.Machine

/-- The word of the next step: the first entry of the script, where the sequencer's turn offers the value of `PH`
(10_state R30, R31). With an empty script the sequencer has the turn: an enabled sequencer operation is taken
(40 R132, weak fairness), and with `PH = 0x0` the block is at rest (70 R293). -/
def offered (s : State) : PortWord :=
  match s.script with
  | [] => .phase (phaseCode s.ph)
  | .command cw :: _ => .command cw
  | .event ew :: _ => .event ew
  | .resetWire rst :: _ => .resetWire rst
  | .sequencer :: _ => .phase (phaseCode s.ph)

/-- The state an operation starts from: its word taken from the script, no response yet. -/
def beginStep (s : State) : State := { s with resp := none, script := s.script.tail }

/-- What a word that is no operation does: a reserved host word is answered `0x00000000` (30_encoding R101; log 15), a
reserved event word is dropped (R102), the absence of an event, of a reset or of an enabled sequencer operation is
nothing at all (R92, R94, 10_state R31; log 16). -/
def noOperation (r : Reject) (s : State) : State :=
  match r with
  | .reservedHostOp => respond .null (drop .reservedHostOp s)
  | .reservedKind => drop .reservedEvent s
  | .indexOutOfRange => drop .reservedEvent s
  | .dataOutOfRange => drop .reservedEvent s
  | .noEvent => s
  | .noReset => s
  | .waiting => s
  | .noSuchPhase => s

/-! ## Placing one operation (log 6) -/

/-- The phase of a code, none for a code `PH` never holds (30_encoding R103). -/
def phaseOfCode (code : PhaseCode) : Option Phase :=
  match code.toNat with
  | 0x0 => some .wait
  | 0x8 => some .claim
  | 0x9 => some .dcr
  | 0xA => some .fft
  | 0xB => some .mag
  | 0xC => some .peak
  | 0xD => some .pub
  | 0xE => some .rearm
  | _ => none

/-- The controller state that goes with a phase (10_state R23). -/
def stateOfPhase (p : Phase) (st : CtrlState) : CtrlState :=
  match p with
  | .wait => st
  | .claim => .ready
  | _ => .processing

/-- The block at a phase: `PH`, the `ST` that goes with it, and a value in the transient registers that are live there
and are read by that phase's operation (10_state R43), kept where they hold one. -/
def atPhase (p : Phase) (s : State) : State :=
  { s with
    ph := p
    st := stateOfPhase p s.st
    cs := if p = .fft then some ((liveArray s.cfg.n s.cs).getD (List.replicate s.cfg.n s.num.zero)) else s.cs
    xr := if p = .mag then some ((liveArray s.cfg.n s.xr).getD (List.replicate s.cfg.n s.num.zero)) else s.xr
    xi := if p = .mag then some ((liveArray s.cfg.n s.xi).getD (List.replicate s.cfg.n s.num.zero)) else s.xi
    mg := if p = .peak then some ((liveArray s.cfg.bins s.mg).getD (List.replicate s.cfg.bins s.num.zero)) else s.mg
    kmax := if p = .pub then some (s.kmax.getD 0) else s.kmax }

/-- The state whose next step takes the word `p`. -/
def placeWord (p : PortWord) (s : State) : State :=
  match p with
  | .command cw => { s with script := .command cw :: s.script }
  | .event ew => { s with script := .event ew :: s.script }
  | .resetWire rst => { s with script := .resetWire rst :: s.script }
  | .phase code =>
    match phaseOfCode code with
    | none => s
    | some q => { atPhase q s with script := .sequencer :: s.script }

end Sys2Proof.Machine
end

