-- ==== Sys2Proof/Machine/Step.lean ====
section
/-! DEFINITION. One atomic step of the block (00_scope R6). -/

namespace Sys2Proof.Machine

/-- One step: the operation of the next word, or, where that word is no operation, what such a word does. -/
def step (s : State) : Host.Outcome State Fault Refusal :=
  match decode s.cfg (offered s) with
  | .ok i => exec i (beginStep s)
  | .error r => .next (noOperation r (beginStep s))

/-- `s` with the table word `w` of `nbits` bits as the word of its next step (log 6). -/
def State.withFetchWord (s : State) (nbits w : Nat) : State :=
  match tableWordPort nbits w with
  | none => s
  | some p => placeWord p s

end Sys2Proof.Machine
end

