-- ==== Sys2Proof/Machine/Over.lean ====
section
/-! DEFINITION. A block over any `NUM` of 45_numerics R220, `NUM_REAL` and carriers of any width among them, as a machine of its
own: its operations, a step, a run. The registers and the operations are those of `State` and `exec`, which are the same
machine at 32-bit carriers behind the words of 30_encoding (Laws/Over.lean; log 2, log 3, log 30). -/

namespace Sys2Proof.Machine

/-- The 14 operations with the operand of `INIT` in the form `A` the host port carries it in: where `A` is `NUM.P`, the period
itself (30_encoding R95). -/
inductive Op (A : Type) where
  | nop
  | init (arg : A)
  | rdfreq
  | rdstat
  | swr (idx : IndexField) (data : Sample)
  | cplt
  | claim
  | dcr
  | fft
  | mag
  | peak
  | pub
  | rearm
  | reset
  deriving DecidableEq, Repr

/-- An instruction as an operation over the host port of 32-bit words. -/
def opOfInstr : Instr → Op Word
  | .nop => .nop
  | .init arg => .init arg
  | .rdfreq => .rdfreq
  | .rdstat => .rdstat
  | .swr idx data => .swr idx data
  | .cplt => .cplt
  | .claim => .claim
  | .dcr => .dcr
  | .fft => .fft
  | .mag => .mag
  | .peak => .peak
  | .pub => .pub
  | .rearm => .rearm
  | .reset => .reset

/-- What an operation leaves: the registers, and the response it presents, if any (30_encoding R91). -/
structure Effect (R P W : Type) where
  block : BlockState R P
  resp  : Option (Response W)
  deriving DecidableEq, Repr

/-- A sequencer operation presents no response. -/
def noResponse {R P W : Type} : BlockResult R P → Host.Outcome (Effect R P W) Fault Refusal
  | .next x => .next { block := x, resp := none }
  | .fault f => .fault f
  | .refused r => .refused r

/-- What each operation does to the registers of any block, and what it answers. -/
def execOver {R P A W : Type} (b : Built R P A W) (o : Op A) (x : BlockState R P) :
    Host.Outcome (Effect R P W) Fault Refusal :=
  match o with
  | .nop => .next { block := x, resp := some .null }
  | .init arg => .next { block := initOver b arg x, resp := some .null }
  | .rdfreq => .next { block := x, resp := some (readingResponse b x) }
  | .rdstat => .next { block := x, resp := some (statusResponse x) }
  | .swr idx data => .next { block := swrOver b idx data x, resp := none }
  | .cplt => .next { block := cpltOver x, resp := none }
  | .claim => noResponse (claimOver x)
  | .dcr => noResponse (dcrOver b x)
  | .fft => noResponse (fftOver b x)
  | .mag => noResponse (magOver b x)
  | .peak => noResponse (peakOver b x)
  | .pub => noResponse (pubOver b x)
  | .rearm => noResponse (rearmOver x)
  | .reset => .next { block := resetOver b x, resp := none }

/-- An effect on the whole state: a response that is presented replaces the one held (log 8). -/
def State.withEffect (s : State) : Host.Outcome (Effect Word Word Word) Fault Refusal → Result
  | .next e => .next { s.withBlock e.block with resp := (e.resp.map responseWord).or s.resp }
  | .fault f => .fault f
  | .refused r => .refused r

/-- The sequencer operation enabled at a phase (10_state R30, R31). -/
def enabledOp {A : Type} : Phase → Option (Op A)
  | .wait => none
  | .claim => some .claim
  | .dcr => some .dcr
  | .fft => some .fft
  | .mag => some .mag
  | .peak => some .peak
  | .pub => some .pub
  | .rearm => some .rearm

/-- A block over any `NUM` with its environment: the registers, the response of the step just taken, and the script of
operations to come (00_scope R7, 30_encoding R105; log 4). It is a value of its carriers, so over the reals it is no plain
data. -/
structure BlockMachine (R P A W : Type) extends BlockState R P where
  resp   : Option (Response W)
  script : List (Op A)

/-- The block after reset with a script before it (10_state R50). -/
def machineAfterReset {R P A W : Type} (b : Built R P A W) (script : List (Op A)) : BlockMachine R P A W :=
  { resetBlock b 0 with resp := none, script := script }

/-- The operation of the next step: the script's first, or with an empty script the enabled sequencer operation (40 R132;
log 5), none at rest. -/
def nextOp {R P A W : Type} (m : BlockMachine R P A W) : Option (Op A) :=
  match m.script with
  | [] => enabledOp m.ph
  | o :: _ => some o

/-- One atomic step (00_scope R6) of a block over any `NUM`. A script line whose sequencer operation is not enabled is
ill-formed and has no step (00_scope R12; log 14). -/
def stepOver {R P A W : Type} (b : Built R P A W) (m : BlockMachine R P A W) :
    Host.Outcome (BlockMachine R P A W) Fault Refusal :=
  match nextOp m with
  | none => .next { m with resp := none }
  | some o =>
    match execOver b o m.toBlockState with
    | .next e => .next { e.block with resp := e.resp, script := m.script.tail }
    | .fault f => .fault f
    | .refused r => .refused r

/-- `k` steps, stopping at the first fault or refusal. -/
def runOver {R P A W : Type} (b : Built R P A W) :
    Nat → BlockMachine R P A W → Host.Outcome (BlockMachine R P A W) Fault Refusal
  | 0, m => .next m
  | k + 1, m =>
    match stepOver b m with
    | .next m' => runOver b k m'
    | .fault f => .fault f
    | .refused r => .refused r

/-- `D: BLOCK v0, v1, ...` (30_encoding R106) as operations. -/
def blockOps {A : Type} (vs : List Sample) : List (Op A) :=
  (vs.zipIdx.map fun e => .swr (BitVec.ofNat 16 e.2) e.1) ++ [.cplt]

/-- `S: RUN` (30_encoding R106) as operations. -/
def runOps {A : Type} : List (Op A) := [.claim, .dcr, .fft, .mag, .peak, .pub, .rearm]

end Sys2Proof.Machine
end

