-- ==== Sys2Proof/Machine/NumReal.lean ====
section
/-! DEFINITION. `NUM_REAL`, the exact real numbers (45_numerics R233), under which the spec's values are normative: an instance
of the record every operation is written over, and the blocks built with it. The reals are no plain data, so it is a
`BlockMachine` and not a `State` that runs over them (log 3). -/

namespace Sys2Proof.Machine

/-- 45_numerics R233 with the third column of R220, for `N = 2^L`. -/
noncomputable def numReal (logN : Nat) : Num ℝ ℝ where
  zero      := 0
  ofSample  := fun v => v
  ofIndex   := fun k => k
  add       := fun a b => a + b
  sub       := fun a b => a - b
  mul       := fun a b => a * b
  scaleInvN := fun a => a * (1 / 2 ^ logN)
  sqrt      := Real.sqrt
  gt        := fun a b => decide (b < a)
  twc       := fun t => Real.cos (2 * Real.pi * t / 2 ^ logN)
  tws       := fun t => Real.sin (2 * Real.pi * t / 2 ^ logN)
  binRes    := fun p => 1 / (2 ^ logN * p)
  binResDom := fun p => decide (0 < p)
  tol       := 0

/-- `NUM_REAL` with its port: the period and the Reading are passed as values, `decP` and `enc` the identity (45_numerics R233,
30_encoding R95). -/
noncomputable def numRealPort (logN : Nat) : NumPort ℝ ℝ ℝ ℝ where
  toNum := numReal logN
  decP  := fun p => p
  enc   := fun x => x

/-- The block of given sizes over `NUM_REAL`; `stepOver` and `runOver` run it. -/
noncomputable def realBlock (c : Size) (u : Unspecified ℝ ℝ) : Built ℝ ℝ ℝ ℝ where
  toSize      := c
  num         := numRealPort c.logN
  unspecified := u

/-- The real part of the discrete Fourier transform of `x` at bin `k`, negative exponent, no scale factor (42 R162). -/
noncomputable def dftRe (logN : Nat) (x : List ℝ) (k : Nat) : ℝ :=
  ∑ n ∈ Finset.range (2 ^ logN), x.getD n 0 * Real.cos (2 * Real.pi * n * k / 2 ^ logN)

/-- The imaginary part (42 R162). -/
noncomputable def dftIm (logN : Nat) (x : List ℝ) (k : Nat) : ℝ :=
  -∑ n ∈ Finset.range (2 ^ logN), x.getD n 0 * Real.sin (2 * Real.pi * n * k / 2 ^ logN)

/-- The magnitude of the transform at bin `k`. -/
noncomputable def dftAbs (logN : Nat) (x : List ℝ) (k : Nat) : ℝ := Real.sqrt (dftRe logN x k ^ 2 + dftIm logN x k ^ 2)

/-- The real part of the mathematical inverse at index `n` (42 R171); the block has no such operation (R172). -/
noncomputable def inverseDftRe (logN : Nat) (x : Spectrum ℝ) (n : Nat) : ℝ :=
  (1 / 2 ^ logN) * ∑ k ∈ Finset.range (2 ^ logN),
    (x.re.getD k 0 * Real.cos (2 * Real.pi * n * k / 2 ^ logN)
      - x.im.getD k 0 * Real.sin (2 * Real.pi * n * k / 2 ^ logN))

/-- The imaginary part of the mathematical inverse at index `n` (42 R171). -/
noncomputable def inverseDftIm (logN : Nat) (x : Spectrum ℝ) (n : Nat) : ℝ :=
  (1 / 2 ^ logN) * ∑ k ∈ Finset.range (2 ^ logN),
    (x.re.getD k 0 * Real.sin (2 * Real.pi * n * k / 2 ^ logN)
      + x.im.getD k 0 * Real.cos (2 * Real.pi * n * k / 2 ^ logN))

end Sys2Proof.Machine
end

