-- ==== Sys2Proof/Machine/Script.lean ====
section
/-! DEFINITION. Scripts of environment operations: the lines and pseudo-operations of 30_encoding R105 and R106, and the
order in which a clocked realisation takes simultaneous events (60 R254). -/

namespace Sys2Proof.Machine

/-- A word on a port as an entry of the script; a sequencer operation is the sequencer's turn. -/
def inputOfPort : PortWord → Input
  | .command cw => .command cw
  | .event ew => .event ew
  | .resetWire rst => .resetWire rst
  | .phase _ => .sequencer

/-- The script line of an operation (30_encoding R105). -/
def line (i : Instr) : Input := inputOfPort (encode i)

/-- `D: FILL v0, v1, ...`: one `SWR` per sample, index ascending (30_encoding R106). -/
def fill (vs : List Sample) : List Input := vs.zipIdx.map fun e => line (.swr (BitVec.ofNat 16 e.2) e.1)

/-- `D: BLOCK v0, v1, ...` (30_encoding R106). -/
def block (vs : List Sample) : List Input := fill vs ++ [line .cplt]

/-- `S: PIPE` (30_encoding R106). -/
def pipe : List Input := [line .dcr, line .fft, line .mag, line .peak]

/-- `S: RUN` (30_encoding R106). -/
def run : List Input := [line .claim] ++ pipe ++ [line .pub, line .rearm]

/-- The events a clocked realisation is offered in one clock. -/
structure ClockEvents where
  reset     : Bool
  write     : Option (IndexField × Sample)
  complete  : Bool
  command   : Option CommandWord
  sequencer : Bool
  deriving DecidableEq, Repr

/-- The order in which it must act as if it took them: `RESET` and nothing else that clock; else `SWR`, `CPLT`, the host
command, the sequencer operation (60 R254; log 28). -/
def ClockEvents.serialise (e : ClockEvents) : List Input :=
  if e.reset then [line .reset]
  else
    (e.write.toList.map fun w => line (.swr w.1 w.2))
      ++ (if e.complete then [line .cplt] else [])
      ++ (e.command.toList.map fun cw => .command cw)
      ++ (if e.sequencer then [.sequencer] else [])

end Sys2Proof.Machine
end

