-- ==== Sys2Proof/Safety.lean ====
section
/-! DEFINITION. What claims about the block are stated with: the invariant of reachable states, observations, runs, the
transition tables, the well-behaved DMA agent, and the named properties of `NUM`. No step depends on this file. -/

namespace Sys2Proof.Machine

/-! ## The invariant (10_state R23, R43) -/

/-- An array register holds a value: an array of `n` elements. -/
def HoldsArray (n : Nat) (v : Option (List Word)) : Prop := ∃ l, v = some l ∧ l.length = n

/-- The phases at which `ST` is `Processing` (10_state R23). -/
def Phase.inPipeline : Phase → Bool
  | .wait => false
  | .claim => false
  | .dcr => true
  | .fft => true
  | .mag => true
  | .peak => true
  | .pub => true
  | .rearm => true

/-- The phases at which `MEAN` holds a value: after `DCR`, until `REARM` (41 R151, 40 R128; log 29). -/
def Phase.afterMean : Phase → Bool
  | .wait => false
  | .claim => false
  | .dcr => false
  | .fft => true
  | .mag => true
  | .peak => true
  | .pub => true
  | .rearm => true

/-- What every reachable state satisfies: the lines of 10_state R23, the canonical memory, and each transient register
holding a value exactly in its live range (10_state R40 to R43). -/
structure State.Inv (s : State) : Prop where
  idle_waits       : s.st = .idle → s.ph = .wait
  acquiring_waits  : s.st = .acquiring → s.ph = .wait
  ready_iff        : s.st = .ready ↔ s.ph = .claim
  processing_iff   : s.st = .processing ↔ s.ph.inPipeline = true
  unread_is_zero   : s.rv = false → s.reading = s.num.zero
  idle_unread      : s.st = .idle → s.rv = false
  published        : s.ph = .rearm → s.rv = true
  memory           : Memory.wf s.cfg.toSize s.sb = true
  mean_live        : s.mean.isSome = s.ph.afterMean
  cs_live          : if s.ph = .fft then HoldsArray s.cfg.n s.cs else s.cs = none
  xr_live          : if s.ph = .mag then HoldsArray s.cfg.n s.xr else s.xr = none
  xi_live          : if s.ph = .mag then HoldsArray s.cfg.n s.xi else s.xi = none
  mg_live          : if s.ph = .peak then HoldsArray s.cfg.bins s.mg else s.mg = none
  kmax_live        : if s.ph = .pub then ∃ k, s.kmax = some k ∧ k < s.cfg.bins else s.kmax = none
  maxm_live        : s.maxm.isSome = true ↔ s.ph = .pub

/-! ## The transition tables -/

/-- 40 R120: the controller's transitions; every pair not listed leaves `ST` unchanged. -/
def nextCtrl : CtrlState → Instr → CtrlState
  | _, .reset => .idle
  | .idle, .init _ => .acquiring
  | .acquiring, .cplt => .ready
  | .ready, .claim => .processing
  | .processing, .rearm => .acquiring
  | st, _ => st

/-- 10_state R32: how each operation moves `PH`, from the controller state it finds. -/
def nextPhase (st : CtrlState) (ph : Phase) : Instr → Phase
  | .reset => .wait
  | .cplt => if st = .acquiring then .claim else ph
  | .claim => .dcr
  | .dcr => .fft
  | .fft => .mag
  | .mag => .peak
  | .peak => .pub
  | .pub => .rearm
  | .rearm => .wait
  | .nop => ph
  | .init _ => ph
  | .rdfreq => ph
  | .rdstat => ph
  | .swr _ _ => ph

/-! ## Runs and observations (70 R293, R295) -/

/-- Whether a word that is no operation is a step all the same: a reserved word is answered or dropped (30_encoding R101,
R102; log 31), the absence of an event, of a reset, of an enabled sequencer operation is no step (R92, R94, 10_state R31). -/
def Reject.isStep : Reject → Bool
  | .reservedHostOp => true
  | .reservedKind => true
  | .indexOutOfRange => true
  | .dataOutOfRange => true
  | .noEvent => false
  | .noReset => false
  | .waiting => false
  | .noSuchPhase => false

/-- Whether a word is a step of the block. -/
def wordIsStep (c : Config) (p : PortWord) : Bool :=
  match decode c p with
  | .ok _ => true
  | .error r => Reject.isStep r

/-- The next `step` is a step of the block, and does not only take an entry from the script that is none (log 16). -/
def State.takesStep (s : State) : Bool := wordIsStep s.cfg (offered s)

/-- An entry of the script that offers a host or DMA operation; the sequencer's turn is neither. -/
def offersOperation (c : Config) : Input → Bool
  | .command cw => wordIsStep c (.command cw)
  | .event ew => wordIsStep c (.event ew)
  | .resetWire rst => wordIsStep c (.resetWire rst)
  | .sequencer => false

/-- The block at rest: `PH = 0x0` and the environment offers no further host or DMA operation (70 R293). -/
def State.atRest (s : State) : Prop := s.ph = .wait ∧ s.script.all (fun i => !offersOperation s.cfg i) = true

/-- What leaves the block in a step (70 R295): the response word, if any, and the level of `dma_en` after it. -/
structure Obs where
  resp  : Option Word
  dmaEn : Bool
  deriving DecidableEq, Repr

def State.obs (s : State) : Obs := { resp := s.resp, dmaEn := s.dmaEn }

/-- The observation of a run (70 R295): what leaves the block in each step, over the first `k` entries taken. What is no step
of the block leaves no entry. -/
def observations : Nat → State → List Obs
  | 0, _ => []
  | k + 1, s =>
    match step s with
    | .next t => if s.takesStep then t.obs :: observations k t else observations k t
    | .fault _ => []
    | .refused _ => []

/-- The operation the next step takes, none where its word is no operation. -/
def nextInstr (s : State) : Option Instr := (decode s.cfg (offered s)).toOption

/-- How many of the first `k` steps, each from its state to the next, satisfy `p`. -/
def countSteps (p : State → State → Bool) : Nat → State → Nat
  | 0, _ => 0
  | k + 1, s =>
    match step s with
    | .next t => (if p s t then 1 else 0) + countSteps p k t
    | .fault _ => 0
    | .refused _ => 0

/-- The step takes a `CLAIM`. -/
def isClaimStep (s _t : State) : Bool := nextInstr s == some .claim

/-- `dma_en` rises in the step (40 R123). -/
def isArmingStep (s t : State) : Bool := !s.dmaEn && t.dmaEn

/-- The part of the state that decides which operation runs next (40 R129). -/
structure SameControl (s t : State) : Prop where
  cfg    : s.cfg = t.cfg
  st     : s.st = t.st
  ph     : s.ph = t.ph
  rv     : s.rv = t.rv
  script : s.script = t.script

/-- What a host sees of the controller: `STATUS` and `dma_en`. -/
def controlView (s : State) : Word × Bool := (status s, s.dmaEn)

/-- The controller's view after each of the first `k` steps. -/
def controlTrace : Nat → State → List (Word × Bool)
  | 0, _ => []
  | k + 1, s =>
    match step s with
    | .next t => controlView t :: controlTrace k t
    | .fault _ => []
    | .refused _ => []

/-- The Reading a block of samples gives: the whole pipeline of 41 R151, 42 R161, 43 R181, R184, R187 over any `NUM`. -/
def generationReading {R P : Type} (num : Num R P) (logN : Nat) (sb : List Sample) (binres : R) : R :=
  let x := transform num logN (centred num sb)
  readingOf num (peakScan num (magnitudes num (2 ^ logN / 2) x.re x.im)).1 binres

/-! ## The well-behaved DMA agent (40 R122): an assumption about the environment, not state of the block (log 25) -/

/-- The agent's own state: the write pointer `WP`, the level of `dma_en` it last saw, and whether it has signalled. -/
structure DmaAgent where
  wp        : Nat
  armed     : Bool
  signalled : Bool
  deriving DecidableEq, Repr

/-- The agent sees the level of `dma_en`: `WP <- 0` when it changes from 0 to 1. -/
def DmaAgent.see (en : Bool) (a : DmaAgent) : DmaAgent :=
  if en && !a.armed then { wp := 0, armed := true, signalled := false } else { a with armed := en }

/-- What the agent delivers next, `v i` being the sample it has for index `i`, and itself after it; nothing while the gate is
closed or after its one completion signal. -/
def DmaAgent.deliver (c : Config) (v : Nat → Sample) (a : DmaAgent) : Option (Instr × DmaAgent) :=
  if a.armed then
    if a.wp < c.n then some (.swr (BitVec.ofNat 16 a.wp) (v a.wp), { a with wp := a.wp + 1 })
    else if a.signalled then none
    else some (.cplt, { a with signalled := true })
  else none

/-- What the agent delivers in one generation, from the moment the gate rises, given enough turns. -/
def DmaAgent.deliveries (c : Config) (v : Nat → Sample) : Nat → DmaAgent → List Instr
  | 0, _ => []
  | k + 1, a =>
    match a.deliver c v with
    | none => []
    | some (i, a') => i :: DmaAgent.deliveries c v k a'

/-! ## Named properties of `NUM` (45_numerics R222 to R230)

`same` is the instance's equality of values, under which the two zeros of binary32 are one (R229, R237). -/

/-- R229, NP3. -/
structure ZeroLaws {R P : Type} (num : Num R P) (finite : R → Prop) (same : R → R → Prop) : Prop where
  zero_mul : ∀ b, finite b → same (num.mul num.zero b) num.zero
  mul_zero : ∀ a, finite a → same (num.mul a num.zero) num.zero
  add_zero : ∀ a, finite a → same (num.add a num.zero) a
  zero_add : ∀ a, finite a → same (num.add num.zero a) a
  sub_zero : ∀ a, finite a → same (num.sub a num.zero) a
  sub_self : ∀ a, finite a → same (num.sub a a) num.zero

/-- R227: `gt` is a strict total order on the values satisfying `dom`. -/
structure StrictOrderOn {R P : Type} (num : Num R P) (dom : R → Prop) (same : R → R → Prop) : Prop where
  irrefl : ∀ a, dom a → num.gt a a = false
  trans  : ∀ a b c, dom a → dom b → dom c → num.gt a b = true → num.gt b c = true → num.gt a c = true
  total  : ∀ a b, dom a → dom b → num.gt a b = true ∨ num.gt b a = true ∨ same a b
  congr_left  : ∀ a b c, dom a → dom b → dom c → same a b → num.gt a c = num.gt b c
  congr_right : ∀ a b c, dom a → dom b → dom c → same a b → num.gt c a = num.gt c b

/-- R230 NP5's second half: `a >= b >= 0` implies `not gt(sqrt(b), sqrt(a))`. -/
def SqrtMonotone {R P : Type} (num : Num R P) (nonneg : R → Prop) : Prop :=
  ∀ a b, nonneg a → nonneg b → num.gt b a = false → num.gt (num.sqrt b) (num.sqrt a) = false

/-- R225: the twiddle tables are exact where the value is an integer. `one` is the instance's 1. -/
structure TwiddlesExact {R P : Type} (num : Num R P) (logN : Nat) (one : R) : Prop where
  cos_zero    : num.twc 0 = one
  sin_zero    : num.tws 0 = num.zero
  cos_quarter : 2 ≤ logN → num.twc (2 ^ logN / 4) = num.zero
  sin_quarter : 2 ≤ logN → num.tws (2 ^ logN / 4) = one

/-! ### The named properties of 45_numerics R230

NP1, that every field is a function of its arguments alone, holds by the type of `Num`. -/

/-- How values of a `NUM` are read as real numbers: the value of a finite `R`, the value of a period, and which values of
`R` are finite. -/
structure Valuation (R P : Type) where
  val    : R → ℝ
  valP   : P → ℝ
  finite : R → Prop

/-- Two finite values that are the same real number. -/
def Valuation.same {R P : Type} (v : Valuation R P) (a b : R) : Prop := v.finite a ∧ v.finite b ∧ v.val a = v.val b

/-- NP2: the running mean of a constant block is exact at every partial sum, and a sample less itself is zero. -/
structure PartialSumsExact {R P : Type} (num : Num R P) (logN sampleW : Nat) (v : Valuation R P) : Prop where
  sum : ∀ c k : Nat, c < 2 ^ sampleW → 1 ≤ k → k ≤ 2 ^ logN →
    v.finite ((fun a => num.add a (num.scaleInvN (num.ofSample c)))^[k] num.zero)
      ∧ v.val ((fun a => num.add a (num.scaleInvN (num.ofSample c)))^[k] num.zero) = k * c / 2 ^ logN
  sub : ∀ c : Nat, c < 2 ^ sampleW → v.same (num.sub (num.ofSample c) (num.ofSample c)) num.zero

/-- NP4: the transform of an all-zero `CS` is all-zero. -/
def ZeroSpectrum {R P : Type} (num : Num R P) (logN : Nat) (v : Valuation R P) : Prop :=
  ∀ z, z ∈ (transform num logN (List.replicate (2 ^ logN) num.zero)).re
      ∨ z ∈ (transform num logN (List.replicate (2 ^ logN) num.zero)).im → v.same z num.zero

/-- The sinusoid inputs of 43 R189 at bin `k0`, each value within the share `δ` of the amplitude (log 32); exact at `δ = 0`. -/
def NearSinusoid {R P : Type} (logN : Nat) (v : Valuation R P) (δ : ℝ) (k0 : Nat) (cs : List R) : Prop :=
  cs.length = 2 ^ logN ∧ ∃ amp phase : ℝ, 0 < amp ∧ ∀ (n : Nat) (x : R), cs[n]? = some x →
    v.finite x ∧ |v.val x - amp * Real.cos (2 * Real.pi * k0 * n / 2 ^ logN + phase)| ≤ δ * amp

/-- NP6: for the sinusoid inputs the computed `MG[k0]` exceeds every other computed `MG[k]`. -/
def SinusoidPeak {R P : Type} (num : Num R P) (logN : Nat) (v : Valuation R P) (δ : ℝ) : Prop :=
  ∀ (k0 k : Nat) (cs : List R), 1 ≤ k0 → k0 < 2 ^ logN / 2 → NearSinusoid logN v δ k0 cs → k < 2 ^ logN / 2 → k ≠ k0 →
    ∃ a b, (magnitudes num (2 ^ logN / 2) (transform num logN cs).re (transform num logN cs).im)[k0]? = some a
      ∧ (magnitudes num (2 ^ logN / 2) (transform num logN cs).re (transform num logN cs).im)[k]? = some b
      ∧ num.gt a b = true

/-- NP7: the Reading of bin `k` is a nearest value to `k / (N p)`, and exact when that is representable. -/
def ReadingNearest {R P : Type} (num : Num R P) (logN : Nat) (v : Valuation R P) : Prop :=
  ∀ (k : Nat) (p : P), k < 2 ^ logN / 2 → num.binResDom p = true →
    v.finite (readingOf num k (num.binRes p))
      ∧ ∀ c, v.finite c →
        |v.val (readingOf num k (num.binRes p)) - k / (2 ^ logN * v.valP p)| ≤ |v.val c - k / (2 ^ logN * v.valP p)|

/-- R230, NP2 to NP7. -/
structure NamedProperties {R P : Type} (num : Num R P) (logN sampleW : Nat) (v : Valuation R P) (δ : ℝ) : Prop where
  np2       : PartialSumsExact num logN sampleW v
  np3       : ZeroLaws num v.finite v.same
  np4       : ZeroSpectrum num logN v
  np5_order : StrictOrderOn num (fun a => v.finite a ∧ 0 ≤ v.val a) v.same
  np5_sqrt  : SqrtMonotone num (fun a => v.finite a ∧ 0 ≤ v.val a)
  np6       : SinusoidPeak num logN v δ
  np7       : ReadingNearest num logN v

/-- Over `NUM_REAL` a value is itself. -/
def realValuation : Valuation ℝ ℝ where
  val    := fun x => x
  valP   := fun p => p
  finite := fun _ => True

/-! ### Binary32 -/

/-- The real value of a finite binary32 number (45_numerics R234). -/
noncomputable def F32.val (w : Word) : ℝ := (F32.units w : ℝ) / 2 ^ 149

/-- `w` is the correctly rounded binary32 result for the real `v`: no finite number is nearer, and at equal distance from
another value `w` is the even one (45_numerics R234, round to nearest with ties to even). -/
def F32.Nearest (w : Word) (v : ℝ) : Prop :=
  F32.isFinite w = true ∧
    ∀ c, F32.isFinite c = true →
      |F32.val w - v| < |F32.val c - v| ∨
        (|F32.val w - v| = |F32.val c - v| ∧ (F32.val c = F32.val w ∨ w.getLsbD 0 = false))

/-- Where rounding to nearest overflows to infinity: half a unit in the last place above the largest finite number, a tie
that goes to even (45_numerics R234). -/
noncomputable def F32.overflowBound : ℝ := 2 ^ 128 - 2 ^ 103

/-- `w` is the correctly rounded binary32 result for the real `v`: the nearest number below the overflow bound, the infinity
of the sign of `v` at or above it (45_numerics R234). -/
def F32.RoundsTo (w : Word) (v : ℝ) : Prop :=
  (|v| < F32.overflowBound → F32.Nearest w v)
    ∧ (F32.overflowBound ≤ v → w = F32.inf false)
    ∧ (v ≤ -F32.overflowBound → w = F32.inf true)

/-- Two finite words of the same value. -/
def F32.SameValue (a b : Word) : Prop :=
  F32.isFinite a = true ∧ F32.isFinite b = true ∧ F32.units a = F32.units b

end Sys2Proof.Machine
end

