-- ==== Sys2Proof/Certificates/Slice0/Obligations.lean ====
section
/-! DEFINITION. What is claimed of the block, one definition per statement, for the provers. Each docstring names the rule of
spec/ it formalises, or says that it is derived and from what. -/

open Sys2Proof Sys2Proof.Machine

/-! ## Words and decoding -/

/-- Derived from 30_encoding R96 and R105 and from the words printed in 95 V3 and V15. -/
def Obligations.SpecWordsDecodeAsPrinted : Prop :=
  decode Config.default (.command 0x0DEADBEEF#36) = .ok .nop
    ∧ decode Config.default (.command 0x13E800000#36) = .ok (.init 0x3E800000#32)
    ∧ decode Config.default (.command 0x200000000#36) = .ok .rdfreq
    ∧ decode Config.default (.command 0x300000000#36) = .ok .rdstat
    ∧ decode Config.default (.event 0x100020009#34) = .ok (.swr 2#16 9#16)
    ∧ decode Config.default (.event 0x212345678#34) = .ok .cplt
    ∧ decode Config.default (.phase 0x8#4) = .ok .claim
    ∧ decode Config.default (.phase 0xE#4) = .ok .rearm
    ∧ decode Config.default (.resetWire 1#1) = .ok .reset

/-- Derived from 30_encoding R95 and R96: every well-formed operation of every family survives its own encoding. -/
def Obligations.DecodeOfEncodeIsTheInstruction : Prop :=
  ∀ (c : Config) (i : Instr), i.wf c = true → decode c (encode i) = .ok i

/-- Derived from 30_encoding R95, R96 and R102: what decodes is well-formed, and where no field is ignored the word is the
encoding. -/
def Obligations.DecodedWordIsItsEncoding : Prop :=
  ∀ (c : Config) (p : PortWord) (i : Instr), decode c p = .ok i →
    i.wf c = true
      ∧ (i ≠ .nop → i ≠ .rdfreq → i ≠ .rdstat → i ≠ .cplt → p = encode i)

/-- Derived from 30_encoding R91 and R92: `arg` is ignored by every host operation but `INIT`, `idx` and `data` by `CPLT`. -/
def Obligations.IgnoredFieldsDoNotMatter : Prop :=
  (∀ arg : Word,
      decodeCommand (commandWord 0 arg) = .ok .nop
        ∧ decodeCommand (commandWord 2 arg) = .ok .rdfreq
        ∧ decodeCommand (commandWord 3 arg) = .ok .rdstat)
    ∧ ∀ (c : Config) (idx : IndexField) (data : Sample), decodeEvent c (eventWord 2 idx data) = .ok .cplt

/-- Derived from 30_encoding R101 and R103: the reserved host codes and the phase codes that never occur are no operation. -/
def Obligations.ReservedCodesAreNoOperation : Prop :=
  (∀ (op : BitVec 4) (arg : Word), 4 ≤ op.toNat → decodeCommand (commandWord op arg) = .error .reservedHostOp)
    ∧ ∀ code : PhaseCode, (∀ p : Phase, phaseCode p ≠ code) → decodePhase code = .error .noSuchPhase

/-! ## Steps -/

/-- Derived from 00_scope R6 and R7 (the schedule in `script` is the model's, log 4): a step runs the operation whose word is
offered, on the state with that word taken from the script and no response yet. -/
def Obligations.StepRunsTheDecodedInstruction : Prop :=
  ∀ s : State,
    (∀ i, decode s.cfg (offered s) = .ok i → step s = exec i { s with resp := none, script := s.script.tail })
      ∧ (∀ cw rest, s.script = .command cw :: rest → offered s = .command cw)
      ∧ (∀ ew rest, s.script = .event ew :: rest → offered s = .event ew)
      ∧ (∀ rst rest, s.script = .resetWire rst :: rest → offered s = .resetWire rst)
      ∧ (∀ rest, s.script = .sequencer :: rest → offered s = .phase (phaseCode s.ph))
      ∧ (s.script = [] → offered s = .phase (phaseCode s.ph))

/-- Derived from 30_encoding R102, of the reserved event words, and R92, of the absence of an event (`kind = 0b00`, which R92
calls no step; that the model takes a step which only removes the entry is its own choice, log 16). -/
def Obligations.ReservedEventWordChangesNoState : Prop :=
  ∀ (s : State) (kind : BitVec 2) (idx : IndexField) (data : Sample) (rest : List Input),
    s.script = .event (eventWord kind idx data) :: rest →
    (kind = 0 ∨ kind = 3 ∨ (kind = 1 ∧ (s.cfg.n ≤ idx.toNat ∨ 2 ^ s.cfg.sampleW ≤ data.toNat))) →
    step s = .next { s with resp := none, script := rest }

/-- Derived from 10_state R31 and 00_scope R12: on the sequencer's turn the operation whose code `PH` holds is taken, and with
`PH = 0x0` none is. That a turn stands in the script (log 4), that an empty script gives the sequencer the turn (log 5), and
that a turn with nothing enabled, by R12 and R31 no step at all, is a step that only removes the entry (log 16) are the
model's choices. -/
def Obligations.SequencerTakesTheOperationOfPhase : Prop :=
  ∀ s : State, (s.script = [] ∨ ∃ rest, s.script = .sequencer :: rest) →
    (s.ph = .wait → step s = .next { s with resp := none, script := s.script.tail })
      ∧ ∀ i : Instr, i.agent = .seq → encode i = .phase (phaseCode s.ph) →
          step s = exec i { s with resp := none, script := s.script.tail }

/-- Derived from 00_scope R12 and 60 R252 (the refusal is the model's way to give no step, log 14): a host or DMA operation is always enabled, a sequencer operation exactly when `PH` holds its
code, and then, in every state the block can be in (`State.Inv`), it completes. -/
def Obligations.OperationsAreEnabledAsSpecified : Prop :=
  ∀ (i : Instr) (s : State),
    (i.agent ≠ .seq → ∃ t, exec i s = .next t)
      ∧ (i.agent = .seq → encode i ≠ .phase (phaseCode s.ph) → ∃ m, exec i s = .refused (.notEnabled m))
      ∧ (i.agent = .seq → encode i = .phase (phaseCode s.ph) → s.Inv → ∃ t, exec i s = .next t)

/-! ## Host operations -/

/-- 44 R200. -/
def Obligations.NopRespondsZeroAndChangesNothing : Prop :=
  ∀ s : State, exec .nop s = .next { s with resp := some 0 }

/-- 44 R201: accepted in `Idle`, where a period with no resolution leaves only `BINRES` unspecified (the corner case R202), and
dropped elsewhere; the response is zero in every arm. -/
def Obligations.InitArmsFromIdleAndIsDroppedElsewhere : Prop :=
  ∀ (s : State) (arg : Word),
    (s.st = .idle → s.num.binResDom (s.num.decP arg) = true →
      exec (.init arg) s = .next { s with
        period := s.num.decP arg
        binres := s.num.binRes (s.num.decP arg)
        st := .acquiring
        gen := s.gen + 1
        resp := some 0 })
      ∧ (s.st = .idle → s.num.binResDom (s.num.decP arg) = false →
        ∃ v : Word, exec (.init arg) s = .next { s with
          period := s.num.decP arg
          binres := v
          st := .acquiring
          gen := s.gen + 1
          resp := some 0 })
      ∧ (s.st ≠ .idle → exec (.init arg) s = .next { s with resp := some 0 })

/-- 44 R203. -/
def Obligations.RdfreqRespondsWithTheReading : Prop :=
  ∀ s : State, exec .rdfreq s = .next { s with resp := some (s.num.enc s.reading) }

/-- 44 R204, in the layout of 10_state R36. -/
def Obligations.RdstatRespondsWithTheStatusLayout : Prop :=
  ∀ s : State, ∃ w : Word,
    exec .rdstat s = .next { s with resp := some w }
      ∧ w.extractLsb' 0 2 = ctrlCode s.st
      ∧ w.getLsbD 2 = s.rv
      ∧ w.getLsbD 3 = false
      ∧ w.extractLsb' 4 4 = phaseCode s.ph
      ∧ w.extractLsb' 8 24 = 0#24

/-- Derived from 10_state R36's closing list: the 16 values of `STATUS` that can be read. -/
def Obligations.StatusTakesSixteenValues : Prop :=
  ∀ s : State, s.Inv →
    (status s).toNat ∈
      [0x00, 0x01, 0x05, 0x82, 0x86, 0x93, 0xA3, 0xB3, 0xC3, 0xD3, 0x97, 0xA7, 0xB7, 0xC7, 0xD7, 0xE7]

/-- Derived from 30_encoding R90 and R91: of the operations, exactly the four host commands present a response. -/
def Obligations.OnlyHostCommandsRespond : Prop :=
  ∀ (i : Instr) (s t : State), s.resp = none → exec i s = .next t →
    (t.resp.isSome = true ↔ i.agent = .host ∧ i ≠ .reset)

/-! ## The acquisition controller -/

/-- 40 R124 with 30_encoding R102: with the gate open the one location holds the sample, and every other location and every
register is unchanged; with the gate closed, or an index or a sample out of range, nothing changes. -/
def Obligations.SwrWritesOneSampleOnlyWhileAcquiring : Prop :=
  ∀ (s : State) (idx : IndexField) (data : Sample),
    (s.st = .acquiring → idx.toNat < s.cfg.n → data.toNat < 2 ^ s.cfg.sampleW →
      ∃ m : Memory, exec (.swr idx data) s = .next { s with sb := m }
        ∧ memRead { s with sb := m } idx.toNat = data
        ∧ ∀ j, j ≠ idx.toNat → memRead { s with sb := m } j = memRead s j)
      ∧ ((s.st ≠ .acquiring ∨ s.cfg.n ≤ idx.toNat ∨ 2 ^ s.cfg.sampleW ≤ data.toNat) →
        exec (.swr idx data) s = .next s)

/-- 40 R126: accepted exactly in `Acquiring`, dropped with no trace elsewhere, and consecutive signals equal one. -/
def Obligations.CpltIsAcceptedExactlyWhileAcquiring : Prop :=
  (∀ s : State,
    (s.st = .acquiring → exec .cplt s = .next { s with st := .ready, ph := .claim })
      ∧ (s.st ≠ .acquiring → exec .cplt s = .next s))
    ∧ ∀ s t : State, exec .cplt s = .next t → exec .cplt t = .next t

/-- 40 R127. -/
def Obligations.ClaimTakesTheBuffer : Prop :=
  ∀ s : State, s.ph = .claim → exec .claim s = .next { s with st := .processing, ph := .dcr }

/-- 40 R128: the gate opens, the sequencer waits, the transients hold no value; the Reading, the configuration registers and
the buffer are as they were. -/
def Obligations.RearmReopensTheBuffer : Prop :=
  ∀ s : State, s.ph = .rearm →
    ∃ t, exec .rearm s = .next t
      ∧ t = { s with
          st := .acquiring, ph := .wait, gen := s.gen + 1, mean := none, cs := none, xr := none, xi := none
          mg := none, kmax := none, maxm := none }
      ∧ t.dmaEn = true
      ∧ ∀ j, memRead t j = memRead s j

/-! ## The pipeline -/

/-- 41 R151: the mean is the running sum of the scaled samples from zero in ascending order, and `CS[i]` is sample `i` less
the mean; nothing else changes. -/
def Obligations.DcrCentresTheBlock : Prop :=
  ∀ s : State, s.ph = .dcr →
    ∃ (m : Word) (l : List Word),
      exec .dcr s = .next { s with mean := some m, cs := some l, ph := .fft }
        ∧ m = (List.range s.cfg.n).foldl
            (fun a i => s.num.add a (s.num.scaleInvN (s.num.ofSample (memRead s i).toNat))) s.num.zero
        ∧ l.length = s.cfg.n
        ∧ ∀ i, i < s.cfg.n → l[i]? = some (s.num.sub (s.num.ofSample (memRead s i).toNat) m)

/-- Derived from 42 R161 and R163: the arrays hold the reference algorithm's result, both of length `N`; `CS` holds no value; nothing else changes. -/
def Obligations.FftTransformsTheCentredSignal : Prop :=
  ∀ (s : State) (l : List Word), s.ph = .fft → s.cs = some l → l.length = s.cfg.n →
    ∃ xr xi : List Word,
      exec .fft s = .next { s with xr := some xr, xi := some xi, cs := none, ph := .mag }
        ∧ xr.length = s.cfg.n
        ∧ xi.length = s.cfg.n
        ∧ ({ re := xr, im := xi } : Spectrum Word) = transform s.num.toNum s.cfg.logN l

/-- 43 R181: the magnitude of every bin of the first half; `XR`, `XI` hold no value; nothing else changes. -/
def Obligations.MagComputesTheFirstHalf : Prop :=
  ∀ (s : State) (xr xi : List Word), s.ph = .mag → s.xr = some xr → s.xi = some xi →
    xr.length = s.cfg.n → xi.length = s.cfg.n →
    ∃ mg : List Word,
      exec .mag s = .next { s with mg := some mg, xr := none, xi := none, ph := .peak }
        ∧ mg.length = s.cfg.bins
        ∧ ∀ (k : Nat) (a b : Word), k < s.cfg.bins → xr[k]? = some a → xi[k]? = some b →
            mg[k]? = some (s.num.sqrt (s.num.add (s.num.mul a a) (s.num.mul b b)))

/-- 43 R184: `KMAX` and `MAXM` are what the ascending scan with strict greater-than leaves, `MG` holds no value, nothing else
changes; and where `gt` is a strict total order on the magnitudes, the bin is the lowest one that no magnitude exceeds. -/
def Obligations.PeakFindsTheLowestMaximum : Prop :=
  ∀ (s : State) (mg : List Word), s.ph = .peak → s.mg = some mg → mg.length = s.cfg.bins →
    ∃ (k : Nat) (m : Word),
      exec .peak s = .next { s with kmax := some k, maxm := some m, mg := none, ph := .pub }
        ∧ (k, m) = (List.range' 1 (s.cfg.bins - 1)).foldl
            (fun best j => if s.num.gt (mg.getD j s.num.zero) best.2 then (j, mg.getD j s.num.zero) else best)
            (0, mg.getD 0 s.num.zero)
        ∧ k < s.cfg.bins
        ∧ mg[k]? = some m
        ∧ ∀ same : Word → Word → Prop, StrictOrderOn s.num.toNum (fun w => w ∈ mg) same →
            (∀ w ∈ mg, s.num.gt w m = false)
              ∧ ∀ j v, j < k → mg[j]? = some v → ∃ w ∈ mg, s.num.gt w v = true

/-- Derived from 43 R185 and R186: equal magnitudes tie to bin 0, over any `NUM` whose `gt` is irreflexive there. -/
def Obligations.EqualMagnitudesReportBinZero : Prop :=
  ∀ (R P : Type) (num : Num R P) (z : R) (bins : Nat), num.gt z z = false → 0 < bins →
    peakScan num (List.replicate bins z) = (0, z)

/-- 43 R187. -/
def Obligations.PubPublishesTheReading : Prop :=
  ∀ (s : State) (k : Nat), s.ph = .pub → s.kmax = some k →
    exec .pub s = .next { s with
      reading := s.num.mul (s.num.ofIndex k) s.binres
      rv := true
      kmax := none
      maxm := none
      ph := .rearm }

/-- Derived from 10_state R43 with 93 U6 (the fault is the treatment the spec advises, log 13): an operation that finds no
value in the register it reads stops with a fault that names it. -/
def Obligations.ReadingAnAbsentTransientFaults : Prop :=
  ∀ s : State,
    (s.ph = .fft → s.cs = none → exec .fft s = .fault (.noValue .cs))
      ∧ (s.ph = .mag → s.xr = none → exec .mag s = .fault (.noValue .xr))
      ∧ (s.ph = .mag → HoldsArray s.cfg.n s.xr → s.xi = none → exec .mag s = .fault (.noValue .xi))
      ∧ (s.ph = .peak → s.mg = none → exec .peak s = .fault (.noValue .mg))
      ∧ (s.ph = .pub → s.kmax = none → exec .pub s = .fault (.noValue .kmax))

/-! ## Reset -/

/-- 70 R280: what `RESET` leaves, from every state; `PERIOD`, `BINRES` and `SB` are unspecified, each location holding some
sample of `SAMPLE_W` bits. -/
def Obligations.ResetPutsTheBlockInItsInitialState : Prop :=
  ∀ s : State, ∃ t, exec .reset s = .next t
    ∧ t.st = .idle ∧ t.ph = .wait ∧ t.rv = false ∧ t.reading = s.num.zero ∧ t.gen = 0
    ∧ t.mean = none ∧ t.cs = none ∧ t.xr = none ∧ t.xi = none ∧ t.mg = none ∧ t.kmax = none ∧ t.maxm = none
    ∧ t.cfg = s.cfg ∧ t.script = s.script ∧ t.resp = s.resp
    ∧ status t = 0 ∧ t.dmaEn = false
    ∧ ∀ j, (memRead t j).toNat < 2 ^ s.cfg.sampleW

/-- Derived from 70 R280's corner case: two resets equal one, but for what a reset leaves unspecified. -/
def Obligations.TwoResetsEqualOne : Prop :=
  ∀ s t u : State, exec .reset s = .next t → exec .reset t = .next u →
    { u with period := t.period, binres := t.binres, epoch := t.epoch } = t

/-- Derived from 10_state R50 and R23: the model's reset state satisfies the invariant. -/
def Obligations.ResetStateSatisfiesTheInvariant : Prop := State.reset.Inv

/-! ## The whole machine -/

/-- Derived from 10_state R23 and R40 to R43: every step of the block, whatever the environment offers, completes and keeps the
invariant; no fault and no refusal is ever met. -/
def Obligations.EveryStepCompletesAndKeepsTheInvariant : Prop :=
  ∀ s : State, s.Inv → ∃ t, step s = .next t ∧ t.Inv

/-- 40 R120: the transitions of `ST` are exactly the listed ones. -/
def Obligations.ControllerTransitionsAreTheListedOnes : Prop :=
  ∀ (i : Instr) (s t : State), s.Inv → exec i s = .next t → t.st = nextCtrl s.st i

/-- 10_state R32: how each operation moves `PH`, and the value it finds there where the table lists one. -/
def Obligations.PhaseMovesAreTheListedOnes : Prop :=
  ∀ (i : Instr) (s t : State), exec i s = .next t →
    t.ph = nextPhase s.st s.ph i
      ∧ (i.agent = .seq → encode i = .phase (phaseCode s.ph))
      ∧ (s.Inv → i = .cplt → s.st = .acquiring → s.ph = .wait)

/-- Derived from 40 R123: `dma_en` rises only at `INIT` and `REARM` and falls only at the accepted `CPLT` and `RESET`. -/
def Obligations.GateMovesOnlyAtTheNamedSteps : Prop :=
  ∀ (i : Instr) (s t : State), exec i s = .next t →
    (s.dmaEn = false → t.dmaEn = true → (∃ arg, i = .init arg) ∨ i = .rearm)
      ∧ (s.Inv → s.dmaEn = true → t.dmaEn = false → i = .cplt ∨ i = .reset)

/-- Derived from 10_state R37, R38 and 00_scope R8: the configuration never changes, and `PERIOD` and `BINRES` are written
only by `RESET` and by an `INIT` in `Idle`. -/
def Obligations.ConfigurationRegistersAreImmutable : Prop :=
  ∀ (i : Instr) (s t : State), exec i s = .next t →
    t.cfg = s.cfg
      ∧ (i ≠ .reset → (s.st ≠ .idle ∨ ∀ arg, i ≠ .init arg) → t.period = s.period ∧ t.binres = s.binres)

/-- Derived from 10_state R34 and R39: the Reading and `RV` persist under every operation but `PUB` and `RESET`. -/
def Obligations.ReadingPersistsUntilPublished : Prop :=
  ∀ (i : Instr) (s t : State), exec i s = .next t → i ≠ .pub → i ≠ .reset →
    t.reading = s.reading ∧ t.rv = s.rv

/-- Derived from 10_state R44 and 20_memory R68 item 4: every operation but `SWR` and `RESET`, `REARM` among them, leaves
every location of the buffer as it was. -/
def Obligations.OtherOperationsLeaveTheBufferAlone : Prop :=
  ∀ (i : Instr) (s t : State), exec i s = .next t → (∀ idx data, i ≠ .swr idx data) → i ≠ .reset →
    ∀ j, memRead t j = memRead s j

/-- Derived from 20_memory R66, R68 item 2 and 40 R131 item 3: while the gate is closed no step but a reset changes the buffer. -/
def Obligations.ClosedGateKeepsTheBuffer : Prop :=
  ∀ s t : State, step s = .next t → s.dmaEn = false → nextInstr s ≠ some .reset →
    samples t = samples s

/-- Derived from 40 R129: no data decides what runs next. Two blocks of the same configuration, controller state and
schedule show the same `STATUS` and `dma_en` after every step, whatever is in their buffers, arrays and Readings. -/
def Obligations.ControlDoesNotDependOnData : Prop :=
  ∀ (k : Nat) (s t : State), s.Inv → t.Inv → SameControl s t → controlTrace k s = controlTrace k t

/-- Derived from 40 R131 item 1, under an arbitrary environment: `CLAIM`s are separated by risings of `dma_en`. -/
def Obligations.AtMostOneClaimBetweenArmings : Prop :=
  ∀ (k : Nat) (s : State), s.Inv → countSteps isClaimStep k s ≤ countSteps isArmingStep k s + 1

/-- Derived from 40 R132 (the fairness is the model's empty script, log 5): after an accepted completion signal the
sequencer reaches `REARM` in exactly seven steps, having published the Reading of the block in the buffer. -/
def Obligations.SevenSequencerStepsPublishAndRearm : Prop :=
  ∀ s : State, s.Inv → s.ph = .claim → s.script = [] →
    ∃ t, Host.Core.run Sys2Proof.core 7 s = .next t
      ∧ t.st = .acquiring ∧ t.ph = .wait ∧ t.rv = true ∧ t.gen = s.gen + 1
      ∧ t.reading = generationReading s.num.toNum s.cfg.logN (samples s) s.binres
      ∧ samples t = samples s

/-- Derived from 40 R122, R131 and 20_memory R68 item 1: one generation under the well-behaved DMA agent. From an armed
block, the `N` sample writes, the completion signal and the sequencer's seven turns end in an armed block whose Reading is
the pipeline's result for exactly those samples. -/
def Obligations.OneGenerationReportsItsBlock : Prop :=
  ∀ (s : State) (vs : List Sample), s.Inv → s.st = .acquiring → vs.length = s.cfg.n →
    (∀ v ∈ vs, v.toNat < 2 ^ s.cfg.sampleW) → s.script = block vs ++ run →
    ∃ t, Host.Core.run Sys2Proof.core (s.cfg.n + 8) s = .next t
      ∧ t.st = .acquiring ∧ t.ph = .wait ∧ t.rv = true ∧ t.gen = s.gen + 1 ∧ t.script = []
      ∧ samples t = vs
      ∧ t.reading = generationReading s.num.toNum s.cfg.logN vs s.binres

/-- Derived from 40 R122 and 30_encoding R106: what the well-behaved agent delivers after the gate rises is the block of its
samples, ascending, then one completion signal, then nothing. -/
def Obligations.WellBehavedAgentDeliversOneBlock : Prop :=
  ∀ (c : Config) (v : Nat → Sample) (a : DmaAgent) (extra : Nat), a.armed = false →
    (DmaAgent.deliveries c v (c.n + 1 + extra) (a.see true)).map line = block ((List.range c.n).map v)

/-! ## The arithmetic over the real numbers -/

/-- Derived from 41 R152, which the spec itself marks as an inference from R151: over the real numbers the mean is the
arithmetic mean, and the centred block is the samples less it and sums to zero. -/
def Obligations.RealMeanIsTheArithmeticMean : Prop :=
  ∀ (logN : Nat) (sb : List Sample), sb.length = 2 ^ logN →
    blockMean (numReal logN) sb = (1 / 2 ^ logN) * (sb.map fun v : Sample => (v.toNat : ℝ)).sum
      ∧ (∀ (i : Nat) (v : Sample), sb[i]? = some v →
          (centred (numReal logN) sb)[i]? = some ((v.toNat : ℝ) - blockMean (numReal logN) sb))
      ∧ (centred (numReal logN) sb).sum = 0

/-- Derived from 41 R153, over the real numbers. -/
def Obligations.RealConstantBlockCentresToZero : Prop :=
  ∀ (logN : Nat) (c : Sample),
    blockMean (numReal logN) (List.replicate (2 ^ logN) c) = c.toNat
      ∧ centred (numReal logN) (List.replicate (2 ^ logN) c) = List.replicate (2 ^ logN) 0

/-- Derived from 42 R163's normative result and R164: over the real numbers the reference algorithm computes the transform of R162. -/
def Obligations.RealTransformIsTheFourierTransform : Prop :=
  ∀ (logN : Nat) (x : List ℝ), x.length = 2 ^ logN →
    ∀ k : Nat, k < 2 ^ logN →
      (transform (numReal logN) logN x).re[k]? = some (dftRe logN x k)
        ∧ (transform (numReal logN) logN x).im[k]? = some (dftIm logN x k)

/-- Derived from 42 R167 and R168: conjugate symmetry, and a zero DC bin for an input of zero sum. -/
def Obligations.RealSpectrumIsConjugateSymmetric : Prop :=
  ∀ (logN : Nat) (x : List ℝ), 1 ≤ logN → x.length = 2 ^ logN →
    (∀ k, 1 ≤ k → k < 2 ^ logN →
      (transform (numReal logN) logN x).re.getD (2 ^ logN - k) 0 = (transform (numReal logN) logN x).re.getD k 0
        ∧ (transform (numReal logN) logN x).im.getD (2 ^ logN - k) 0
            = -(transform (numReal logN) logN x).im.getD k 0)
      ∧ (transform (numReal logN) logN x).im.getD 0 0 = 0
      ∧ (transform (numReal logN) logN x).im.getD (2 ^ logN / 2) 0 = 0
      ∧ (x.sum = 0 → (transform (numReal logN) logN x).re.getD 0 0 = 0)

/-- Derived from 43 R189: a sinusoid of the centred signal at an integer bin is reported exactly. -/
def Obligations.RealSinusoidIsReportedExactly : Prop :=
  ∀ (logN k0 : Nat) (amp phase binres : ℝ) (cs : List ℝ), 1 ≤ k0 → k0 < 2 ^ logN / 2 → 0 < amp →
    cs.length = 2 ^ logN →
    (∀ n : Nat, n < 2 ^ logN → cs[n]? = some (amp * Real.cos (2 * Real.pi * k0 * n / 2 ^ logN + phase))) →
    let x := transform (numReal logN) logN cs
    let mg := magnitudes (numReal logN) (2 ^ logN / 2) x.re x.im
    mg[k0]? = some (amp * 2 ^ logN / 2)
      ∧ (∀ k : Nat, k < 2 ^ logN / 2 → k ≠ k0 → mg[k]? = some 0)
      ∧ (peakScan (numReal logN) mg).1 = k0
      ∧ readingOf (numReal logN) (peakScan (numReal logN) mg).1 binres = k0 * binres

/-- Derived from 42 R171: over the real numbers the mathematical inverse, a complex number, is the input: its real part is
the input value and its imaginary part zero. -/
def Obligations.RealRoundTripGivesTheInputBack : Prop :=
  ∀ (logN : Nat) (x : List ℝ), x.length = 2 ^ logN →
    ∀ n : Nat, n < 2 ^ logN →
      x[n]? = some (inverseDftRe logN (transform (numReal logN) logN x) n)
        ∧ inverseDftIm logN (transform (numReal logN) logN x) n = 0

/-! ## The binary32 arithmetic -/

/-- Derived from 45_numerics R222, R223 and R234: every integer below `2^24` is represented exactly. -/
def Obligations.F32IntegersAreExact : Prop :=
  ∀ n : Nat, n < 2 ^ 24 → F32.isFinite (F32.ofNat n) = true ∧ F32.units (F32.ofNat n) = n * 2 ^ 149

/-- Derived from 45_numerics R225 and R234: the twiddle tables are exact where the value is an integer. -/
def Obligations.F32TwiddlesAreExactAtTheQuarters : Prop :=
  ∀ logN : Nat, TwiddlesExact (numF32 logN).toNum logN 0x3F800000#32

/-- Derived from 45_numerics R227 and R234: on finite values `gt` is a strict total order, the two zeros being one value. -/
def Obligations.F32ComparisonIsAStrictTotalOrder : Prop :=
  ∀ logN : Nat, StrictOrderOn (numF32 logN).toNum (fun w => F32.isFinite w = true) F32.SameValue

/-- Derived from 45_numerics R229: the zero laws, with either signed zero as zero. -/
def Obligations.F32ZeroLawsHold : Prop :=
  ∀ logN : Nat, ZeroLaws (numF32 logN).toNum (fun w => F32.isFinite w = true) F32.SameValue

/-- Derived from 45_numerics R234 and R237: on finite operands addition and subtraction are correctly rounded, overflow to
infinity included, and an exact zero is `+0` unless both terms are negative zeros. -/
def Obligations.F32AddAndSubAreCorrectlyRounded : Prop :=
  ∀ a b : Word, F32.isFinite a = true → F32.isFinite b = true →
    F32.RoundsTo (F32.add a b) (F32.val a + F32.val b)
      ∧ F32.RoundsTo (F32.sub a b) (F32.val a - F32.val b)
      ∧ (F32.val a + F32.val b = 0 → F32.add a b = if a = 0x80000000 ∧ b = 0x80000000 then 0x80000000 else 0)
      ∧ (F32.val a - F32.val b = 0 → F32.sub a b = if a = 0x80000000 ∧ b = 0 then 0x80000000 else 0)

/-- Derived from 45_numerics R234, R226 and R237: on finite operands multiplication and division by a non-zero number are
correctly rounded, overflow to infinity included, and a zero factor gives a zero of the product's sign; a period is in
`binResDom` exactly when it is finite and positive, `N p` is finite and `1 / (N p)` does not overflow, and `binRes` of it is
then the correctly rounded, positive `1 / (N p)`. -/
def Obligations.F32MulDivAndBinResAreCorrectlyRounded : Prop :=
  (∀ a b : Word, F32.isFinite a = true → F32.isFinite b = true →
    F32.RoundsTo (F32.mul a b) (F32.val a * F32.val b)
      ∧ (F32.val b ≠ 0 → F32.RoundsTo (F32.div a b) (F32.val a / F32.val b))
      ∧ (F32.val a * F32.val b = 0 → F32.mul a b = if F32.sign a = F32.sign b then 0 else 0x80000000))
    ∧ ∀ (c : Size) (p : Word),
      ((numF32 c.logN).binResDom p = true ↔
        F32.isFinite p = true ∧ 0 < F32.val p ∧ 2 ^ c.logN * F32.val p < 2 ^ 128
          ∧ 1 / (2 ^ c.logN * F32.val p) < F32.overflowBound)
        ∧ ((numF32 c.logN).binResDom p = true →
          F32.Nearest ((numF32 c.logN).binRes p) (1 / (2 ^ c.logN * F32.val p))
            ∧ 0 < F32.val ((numF32 c.logN).binRes p))

/-- Derived from 45_numerics R228 and R234: the square root of a non-negative value is correctly rounded, and not negative. -/
def Obligations.F32SqrtIsCorrectlyRounded : Prop :=
  ∀ a : Word, F32.isFinite a = true → 0 ≤ F32.val a →
    F32.Nearest (F32.sqrt a) (Real.sqrt (F32.val a)) ∧ 0 ≤ F32.val (F32.sqrt a)

/-- Derived from 45_numerics R230, NP5's second half: on finite values that are not negative the square root is monotone. -/
def Obligations.F32SqrtIsMonotone : Prop :=
  ∀ logN : Nat, SqrtMonotone (numF32 logN).toNum (fun w => F32.isFinite w = true ∧ 0 ≤ F32.val w)

/-- Derived from 45_numerics R238 and 41 R153: where `L + SAMPLE_W <= 24` the mean of a constant block is exact in `NUM_F32` and the
centred block is all zero. -/
def Obligations.F32ConstantBlockIsExact : Prop :=
  ∀ (c : Config) (v : Sample), c.logN + c.sampleW ≤ 24 → v.toNat < 2 ^ c.sampleW →
    blockMean (numF32 c.logN).toNum (List.replicate c.n v) = F32.ofNat v.toNat
      ∧ centred (numF32 c.logN).toNum (List.replicate c.n v) = List.replicate c.n 0

/-- Derived from 43 R186 and 45_numerics R237 and R238: over `NUM_F32` a constant block goes through the whole pipeline to the
Reading `0x00000000`, for every positive resolution. -/
def Obligations.F32ConstantBlockReadsZero : Prop :=
  ∀ (c : Config) (v : Sample) (binres : Word), c.logN + c.sampleW ≤ 24 → v.toNat < 2 ^ c.sampleW →
    F32.isPositive binres = true →
    generationReading (numF32 c.logN).toNum c.logN (List.replicate c.n v) binres = 0

/-! ## A block over any `NUM` -/

/-- Derived from 45_numerics R230 and R233: `NUM_REAL` is exact, its port the identity, its periods the positive ones, its
tolerance 0, and it has every named property, the sinusoids of NP6 being exact. -/
def Obligations.RealHasTheNamedProperties : Prop :=
  ∀ logN sampleW : Nat,
    NamedProperties (numReal logN) logN sampleW realValuation 0
      ∧ TwiddlesExact (numReal logN) logN 1
      ∧ (∀ v : ℝ, (numRealPort logN).decP v = v ∧ (numRealPort logN).enc v = v)
      ∧ (∀ p : ℝ, ((numReal logN).binResDom p = true ↔ 0 < p) ∧ (numReal logN).binRes p = 1 / (2 ^ logN * p))
      ∧ (numReal logN).tol = 0

/-- Derived from 45_numerics R220 and R233, 42 R163, 43 R184 and R187 and 44 R201 and R203: one generation from reset, over any
`NUM` of any carriers, from `INIT` with a period in the domain to `RDFREQ`, answers the encoding of the pipeline's result for
the block's samples; and over `NUM_REAL` that is `k / (N p)` for the lowest bin `k` at which the discrete Fourier transform
of the samples less their mean is greatest. That the run is the model's `runOver` on a script is log 4 and log 30. -/
def Obligations.OneGenerationOverAnyNumReportsItsBlock : Prop :=
  (∀ (R P A W : Type) (b : Built R P A W) (arg : A) (vs : List Sample), vs.length = b.n →
    (∀ v ∈ vs, v.toNat < 2 ^ b.sampleW) → b.num.binResDom (b.num.decP arg) = true →
    ∃ m, runOver b (b.n + 10) (machineAfterReset b ([.init arg] ++ blockOps vs ++ runOps ++ [.rdfreq])) = .next m
      ∧ m.st = .acquiring ∧ m.ph = .wait ∧ m.rv = true ∧ m.gen = 2 ∧ m.script = []
      ∧ m.resp = some (.reading (b.num.enc
          (generationReading b.num.toNum b.logN vs (b.num.binRes (b.num.decP arg))))))
    ∧ ∀ (c : Size) (u : Unspecified ℝ ℝ) (p : ℝ) (vs : List Sample), vs.length = c.n →
      (∀ v ∈ vs, v.toNat < 2 ^ c.sampleW) → 0 < p →
      ∃ (m : BlockMachine ℝ ℝ ℝ ℝ) (k : Nat),
        runOver (realBlock c u) (c.n + 10)
            (machineAfterReset (realBlock c u) ([.init p] ++ blockOps vs ++ runOps ++ [.rdfreq])) = .next m
          ∧ m.resp = some (.reading (k / (2 ^ c.logN * p)))
          ∧ k < c.bins
          ∧ (∀ j, j < c.bins → dftAbs c.logN (centred (numReal c.logN) vs) j ≤ dftAbs c.logN (centred (numReal c.logN) vs) k)
          ∧ ∀ j, j < k → dftAbs c.logN (centred (numReal c.logN) vs) j < dftAbs c.logN (centred (numReal c.logN) vs) k
end

