-- ==== Sys2Proof/Laws/Config.lean ====
section
/-! SUPPORT. What `CfgOK` gives: the ranges of 00_scope R9. -/

namespace Sys2Proof

theorem supportedN_iff (n : Nat) : supportedN n = true ↔ ∃ e, 1 ≤ e ∧ e ≤ 16 ∧ n = 2 ^ e := by
  simp only [supportedN, List.any_eq_true, List.mem_range, beq_iff_eq]
  constructor
  · rintro ⟨e, he, rfl⟩
    exact ⟨e + 1, by omega, by omega, rfl⟩
  · rintro ⟨e, h1, h16, rfl⟩
    exact ⟨e - 1, by omega, by rw [Nat.sub_add_cancel h1]⟩

/-- `CfgOK` (00_scope R9). -/
theorem cfgOK_iff (n w : Nat) : cfgOK n w = true ↔ (∃ e, 1 ≤ e ∧ e ≤ 16 ∧ n = 2 ^ e) ∧ 1 ≤ w ∧ w ≤ 16 := by
  simp [cfgOK, supportedN_iff, and_assoc]

theorem Size.logN_range (c : Size) : 1 ≤ c.logN ∧ c.logN ≤ 16 := by
  obtain ⟨⟨e, h1, h16, he⟩, -⟩ := (cfgOK_iff _ _).1 c.ok
  rw [Nat.pow_right_injective le_rfl he]
  exact ⟨h1, h16⟩

theorem Size.sampleW_range (c : Size) : 1 ≤ c.sampleW ∧ c.sampleW ≤ 16 := ((cfgOK_iff _ _).1 c.ok).2

theorem Size.n_le (c : Size) : c.n ≤ 2 ^ 16 := Nat.pow_le_pow_right (by norm_num) c.logN_range.2

theorem Size.bins_eq (c : Size) : c.bins = 2 ^ (c.logN - 1) := by
  rw [bins, n, ← Nat.pow_div c.logN_range.1 (by norm_num), pow_one]

theorem Size.bins_pos (c : Size) : 0 < c.bins := by rw [c.bins_eq]; positivity

theorem Size.bins_le_n (c : Size) : c.bins ≤ c.n := Nat.div_le_self _ _

/-- Building a block succeeds exactly on the supported configurations (00_scope R9). -/
theorem Config.build?_isSome (n w : Nat) (sel : NumSel) : (Config.build? n w sel).isSome = cfgOK n w := by
  rw [Bool.eq_iff_iff]
  constructor
  · intro h
    simp only [Config.build?] at h
    split at h
    · next hc => rw [← hc.2]; exact hc.1
    · simp at h
  · intro h
    obtain ⟨⟨e, -, -, rfl⟩, -⟩ := (cfgOK_iff _ _).1 h
    simp [Config.build?, Nat.log2_two_pow, h]

end Sys2Proof
end

