-- ==== Sys2Proof/Laws/State.lean ====
section
/-! SUPPORT. What each operation on the registers, and on the state, leaves in each field. -/

namespace Sys2Proof.Machine

section registers

variable {R P A W : Type} (b : Built R P A W) (x : BlockState R P)

@[simp] theorem memWrite_st (i : Nat) (v : Sample) : (memWrite i v x).st = x.st := rfl
@[simp] theorem memWrite_ph (i : Nat) (v : Sample) : (memWrite i v x).ph = x.ph := rfl
@[simp] theorem memWrite_rv (i : Nat) (v : Sample) : (memWrite i v x).rv = x.rv := rfl
@[simp] theorem memWrite_period (i : Nat) (v : Sample) : (memWrite i v x).period = x.period := rfl
@[simp] theorem memWrite_binres (i : Nat) (v : Sample) : (memWrite i v x).binres = x.binres := rfl
@[simp] theorem memWrite_reading (i : Nat) (v : Sample) : (memWrite i v x).reading = x.reading := rfl
@[simp] theorem memWrite_sb (i : Nat) (v : Sample) : (memWrite i v x).sb = x.sb.store i v := rfl
@[simp] theorem memWrite_mean (i : Nat) (v : Sample) : (memWrite i v x).mean = x.mean := rfl
@[simp] theorem memWrite_cs (i : Nat) (v : Sample) : (memWrite i v x).cs = x.cs := rfl
@[simp] theorem memWrite_xr (i : Nat) (v : Sample) : (memWrite i v x).xr = x.xr := rfl
@[simp] theorem memWrite_xi (i : Nat) (v : Sample) : (memWrite i v x).xi = x.xi := rfl
@[simp] theorem memWrite_mg (i : Nat) (v : Sample) : (memWrite i v x).mg = x.mg := rfl
@[simp] theorem memWrite_kmax (i : Nat) (v : Sample) : (memWrite i v x).kmax = x.kmax := rfl
@[simp] theorem memWrite_maxm (i : Nat) (v : Sample) : (memWrite i v x).maxm = x.maxm := rfl
@[simp] theorem memWrite_gen (i : Nat) (v : Sample) : (memWrite i v x).gen = x.gen := rfl
@[simp] theorem memWrite_epoch (i : Nat) (v : Sample) : (memWrite i v x).epoch = x.epoch := rfl

@[simp] theorem clearTransients_st : (clearTransients x).st = x.st := rfl
@[simp] theorem clearTransients_ph : (clearTransients x).ph = x.ph := rfl
@[simp] theorem clearTransients_rv : (clearTransients x).rv = x.rv := rfl
@[simp] theorem clearTransients_period : (clearTransients x).period = x.period := rfl
@[simp] theorem clearTransients_binres : (clearTransients x).binres = x.binres := rfl
@[simp] theorem clearTransients_reading : (clearTransients x).reading = x.reading := rfl
@[simp] theorem clearTransients_sb : (clearTransients x).sb = x.sb := rfl
@[simp] theorem clearTransients_mean : (clearTransients x).mean = none := rfl
@[simp] theorem clearTransients_cs : (clearTransients x).cs = none := rfl
@[simp] theorem clearTransients_xr : (clearTransients x).xr = none := rfl
@[simp] theorem clearTransients_xi : (clearTransients x).xi = none := rfl
@[simp] theorem clearTransients_mg : (clearTransients x).mg = none := rfl
@[simp] theorem clearTransients_kmax : (clearTransients x).kmax = none := rfl
@[simp] theorem clearTransients_maxm : (clearTransients x).maxm = none := rfl
@[simp] theorem clearTransients_gen : (clearTransients x).gen = x.gen := rfl
@[simp] theorem clearTransients_epoch : (clearTransients x).epoch = x.epoch := rfl

@[simp] theorem acceptCompletion_st : (acceptCompletion x).st = .ready := rfl
@[simp] theorem acceptCompletion_ph : (acceptCompletion x).ph = .claim := rfl
@[simp] theorem acceptCompletion_rv : (acceptCompletion x).rv = x.rv := rfl
@[simp] theorem acceptCompletion_period : (acceptCompletion x).period = x.period := rfl
@[simp] theorem acceptCompletion_binres : (acceptCompletion x).binres = x.binres := rfl
@[simp] theorem acceptCompletion_reading : (acceptCompletion x).reading = x.reading := rfl
@[simp] theorem acceptCompletion_sb : (acceptCompletion x).sb = x.sb := rfl
@[simp] theorem acceptCompletion_mean : (acceptCompletion x).mean = x.mean := rfl
@[simp] theorem acceptCompletion_cs : (acceptCompletion x).cs = x.cs := rfl
@[simp] theorem acceptCompletion_xr : (acceptCompletion x).xr = x.xr := rfl
@[simp] theorem acceptCompletion_xi : (acceptCompletion x).xi = x.xi := rfl
@[simp] theorem acceptCompletion_mg : (acceptCompletion x).mg = x.mg := rfl
@[simp] theorem acceptCompletion_kmax : (acceptCompletion x).kmax = x.kmax := rfl
@[simp] theorem acceptCompletion_maxm : (acceptCompletion x).maxm = x.maxm := rfl
@[simp] theorem acceptCompletion_gen : (acceptCompletion x).gen = x.gen := rfl
@[simp] theorem acceptCompletion_epoch : (acceptCompletion x).epoch = x.epoch := rfl

@[simp] theorem returnToAcquiring_st : (returnToAcquiring x).st = .acquiring := rfl
@[simp] theorem returnToAcquiring_ph : (returnToAcquiring x).ph = .wait := rfl
@[simp] theorem returnToAcquiring_rv : (returnToAcquiring x).rv = x.rv := rfl
@[simp] theorem returnToAcquiring_period : (returnToAcquiring x).period = x.period := rfl
@[simp] theorem returnToAcquiring_binres : (returnToAcquiring x).binres = x.binres := rfl
@[simp] theorem returnToAcquiring_reading : (returnToAcquiring x).reading = x.reading := rfl
@[simp] theorem returnToAcquiring_sb : (returnToAcquiring x).sb = x.sb := rfl
@[simp] theorem returnToAcquiring_mean : (returnToAcquiring x).mean = none := rfl
@[simp] theorem returnToAcquiring_cs : (returnToAcquiring x).cs = none := rfl
@[simp] theorem returnToAcquiring_xr : (returnToAcquiring x).xr = none := rfl
@[simp] theorem returnToAcquiring_xi : (returnToAcquiring x).xi = none := rfl
@[simp] theorem returnToAcquiring_mg : (returnToAcquiring x).mg = none := rfl
@[simp] theorem returnToAcquiring_kmax : (returnToAcquiring x).kmax = none := rfl
@[simp] theorem returnToAcquiring_maxm : (returnToAcquiring x).maxm = none := rfl
@[simp] theorem returnToAcquiring_gen : (returnToAcquiring x).gen = x.gen + 1 := rfl
@[simp] theorem returnToAcquiring_epoch : (returnToAcquiring x).epoch = x.epoch := rfl

@[simp] theorem initialise_st (p : P) : (initialise b p x).st = .acquiring := rfl
@[simp] theorem initialise_ph (p : P) : (initialise b p x).ph = x.ph := rfl
@[simp] theorem initialise_rv (p : P) : (initialise b p x).rv = x.rv := rfl
@[simp] theorem initialise_period (p : P) : (initialise b p x).period = p := rfl
@[simp] theorem initialise_binres (p : P) : (initialise b p x).binres = resolutionOf b x.epoch p := rfl
@[simp] theorem initialise_reading (p : P) : (initialise b p x).reading = x.reading := rfl
@[simp] theorem initialise_sb (p : P) : (initialise b p x).sb = x.sb := rfl
@[simp] theorem initialise_mean (p : P) : (initialise b p x).mean = x.mean := rfl
@[simp] theorem initialise_cs (p : P) : (initialise b p x).cs = x.cs := rfl
@[simp] theorem initialise_xr (p : P) : (initialise b p x).xr = x.xr := rfl
@[simp] theorem initialise_xi (p : P) : (initialise b p x).xi = x.xi := rfl
@[simp] theorem initialise_mg (p : P) : (initialise b p x).mg = x.mg := rfl
@[simp] theorem initialise_kmax (p : P) : (initialise b p x).kmax = x.kmax := rfl
@[simp] theorem initialise_maxm (p : P) : (initialise b p x).maxm = x.maxm := rfl
@[simp] theorem initialise_gen (p : P) : (initialise b p x).gen = x.gen + 1 := rfl
@[simp] theorem initialise_epoch (p : P) : (initialise b p x).epoch = x.epoch := rfl

@[simp] theorem setReadingValid_st : (setReadingValid x).st = x.st := rfl
@[simp] theorem setReadingValid_ph : (setReadingValid x).ph = x.ph := rfl
@[simp] theorem setReadingValid_rv : (setReadingValid x).rv = true := rfl
@[simp] theorem setReadingValid_period : (setReadingValid x).period = x.period := rfl
@[simp] theorem setReadingValid_binres : (setReadingValid x).binres = x.binres := rfl
@[simp] theorem setReadingValid_reading : (setReadingValid x).reading = x.reading := rfl
@[simp] theorem setReadingValid_sb : (setReadingValid x).sb = x.sb := rfl
@[simp] theorem setReadingValid_mean : (setReadingValid x).mean = x.mean := rfl
@[simp] theorem setReadingValid_cs : (setReadingValid x).cs = x.cs := rfl
@[simp] theorem setReadingValid_xr : (setReadingValid x).xr = x.xr := rfl
@[simp] theorem setReadingValid_xi : (setReadingValid x).xi = x.xi := rfl
@[simp] theorem setReadingValid_mg : (setReadingValid x).mg = x.mg := rfl
@[simp] theorem setReadingValid_kmax : (setReadingValid x).kmax = x.kmax := rfl
@[simp] theorem setReadingValid_maxm : (setReadingValid x).maxm = x.maxm := rfl
@[simp] theorem setReadingValid_gen : (setReadingValid x).gen = x.gen := rfl
@[simp] theorem setReadingValid_epoch : (setReadingValid x).epoch = x.epoch := rfl

@[simp] theorem resetBlock_st (e : Nat) : (resetBlock b e).st = .idle := rfl
@[simp] theorem resetBlock_ph (e : Nat) : (resetBlock b e).ph = .wait := rfl
@[simp] theorem resetBlock_rv (e : Nat) : (resetBlock b e).rv = false := rfl
@[simp] theorem resetBlock_period (e : Nat) : (resetBlock b e).period = b.unspecified.period e := rfl
@[simp] theorem resetBlock_binres (e : Nat) : (resetBlock b e).binres = b.unspecified.binRes e := rfl
@[simp] theorem resetBlock_reading (e : Nat) : (resetBlock b e).reading = b.num.zero := rfl
@[simp] theorem resetBlock_sb (e : Nat) : (resetBlock b e).sb = [] := rfl
@[simp] theorem resetBlock_mean (e : Nat) : (resetBlock b e).mean = none := rfl
@[simp] theorem resetBlock_cs (e : Nat) : (resetBlock b e).cs = none := rfl
@[simp] theorem resetBlock_xr (e : Nat) : (resetBlock b e).xr = none := rfl
@[simp] theorem resetBlock_xi (e : Nat) : (resetBlock b e).xi = none := rfl
@[simp] theorem resetBlock_mg (e : Nat) : (resetBlock b e).mg = none := rfl
@[simp] theorem resetBlock_kmax (e : Nat) : (resetBlock b e).kmax = none := rfl
@[simp] theorem resetBlock_maxm (e : Nat) : (resetBlock b e).maxm = none := rfl
@[simp] theorem resetBlock_gen (e : Nat) : (resetBlock b e).gen = 0 := rfl
@[simp] theorem resetBlock_epoch (e : Nat) : (resetBlock b e).epoch = e := rfl

@[simp] theorem drop_eq {S : Type} (r : DropReason) (s : S) : drop r s = s := rfl

end registers

@[simp] theorem built_num (s : State) : s.built.num = s.num := rfl
@[simp] theorem built_toSize (s : State) : s.built.toSize = s.cfg.toSize := rfl

@[simp] theorem withBlock_st (x : BlockState Word Word) (s : State) : (s.withBlock x).st = x.st := rfl
@[simp] theorem withBlock_ph (x : BlockState Word Word) (s : State) : (s.withBlock x).ph = x.ph := rfl
@[simp] theorem withBlock_rv (x : BlockState Word Word) (s : State) : (s.withBlock x).rv = x.rv := rfl
@[simp] theorem withBlock_period (x : BlockState Word Word) (s : State) : (s.withBlock x).period = x.period := rfl
@[simp] theorem withBlock_binres (x : BlockState Word Word) (s : State) : (s.withBlock x).binres = x.binres := rfl
@[simp] theorem withBlock_reading (x : BlockState Word Word) (s : State) : (s.withBlock x).reading = x.reading := rfl
@[simp] theorem withBlock_sb (x : BlockState Word Word) (s : State) : (s.withBlock x).sb = x.sb := rfl
@[simp] theorem withBlock_mean (x : BlockState Word Word) (s : State) : (s.withBlock x).mean = x.mean := rfl
@[simp] theorem withBlock_cs (x : BlockState Word Word) (s : State) : (s.withBlock x).cs = x.cs := rfl
@[simp] theorem withBlock_xr (x : BlockState Word Word) (s : State) : (s.withBlock x).xr = x.xr := rfl
@[simp] theorem withBlock_xi (x : BlockState Word Word) (s : State) : (s.withBlock x).xi = x.xi := rfl
@[simp] theorem withBlock_mg (x : BlockState Word Word) (s : State) : (s.withBlock x).mg = x.mg := rfl
@[simp] theorem withBlock_kmax (x : BlockState Word Word) (s : State) : (s.withBlock x).kmax = x.kmax := rfl
@[simp] theorem withBlock_maxm (x : BlockState Word Word) (s : State) : (s.withBlock x).maxm = x.maxm := rfl
@[simp] theorem withBlock_gen (x : BlockState Word Word) (s : State) : (s.withBlock x).gen = x.gen := rfl
@[simp] theorem withBlock_epoch (x : BlockState Word Word) (s : State) : (s.withBlock x).epoch = x.epoch := rfl
@[simp] theorem withBlock_cfg (x : BlockState Word Word) (s : State) : (s.withBlock x).cfg = s.cfg := rfl
@[simp] theorem withBlock_resp (x : BlockState Word Word) (s : State) : (s.withBlock x).resp = s.resp := rfl
@[simp] theorem withBlock_script (x : BlockState Word Word) (s : State) : (s.withBlock x).script = s.script := rfl
@[simp] theorem withBlock_toBlockState (x : BlockState Word Word) (s : State) : (s.withBlock x).toBlockState = x := rfl
@[simp] theorem withBlock_num (x : BlockState Word Word) (s : State) : (s.withBlock x).num = s.num := rfl
@[simp] theorem withBlock_built (x : BlockState Word Word) (s : State) : (s.withBlock x).built = s.built := rfl

@[simp] theorem respond_st (r : Response Word) (s : State) : (respond r s).st = s.st := rfl
@[simp] theorem respond_ph (r : Response Word) (s : State) : (respond r s).ph = s.ph := rfl
@[simp] theorem respond_rv (r : Response Word) (s : State) : (respond r s).rv = s.rv := rfl
@[simp] theorem respond_period (r : Response Word) (s : State) : (respond r s).period = s.period := rfl
@[simp] theorem respond_binres (r : Response Word) (s : State) : (respond r s).binres = s.binres := rfl
@[simp] theorem respond_reading (r : Response Word) (s : State) : (respond r s).reading = s.reading := rfl
@[simp] theorem respond_sb (r : Response Word) (s : State) : (respond r s).sb = s.sb := rfl
@[simp] theorem respond_mean (r : Response Word) (s : State) : (respond r s).mean = s.mean := rfl
@[simp] theorem respond_cs (r : Response Word) (s : State) : (respond r s).cs = s.cs := rfl
@[simp] theorem respond_xr (r : Response Word) (s : State) : (respond r s).xr = s.xr := rfl
@[simp] theorem respond_xi (r : Response Word) (s : State) : (respond r s).xi = s.xi := rfl
@[simp] theorem respond_mg (r : Response Word) (s : State) : (respond r s).mg = s.mg := rfl
@[simp] theorem respond_kmax (r : Response Word) (s : State) : (respond r s).kmax = s.kmax := rfl
@[simp] theorem respond_maxm (r : Response Word) (s : State) : (respond r s).maxm = s.maxm := rfl
@[simp] theorem respond_gen (r : Response Word) (s : State) : (respond r s).gen = s.gen := rfl
@[simp] theorem respond_epoch (r : Response Word) (s : State) : (respond r s).epoch = s.epoch := rfl
@[simp] theorem respond_cfg (r : Response Word) (s : State) : (respond r s).cfg = s.cfg := rfl
@[simp] theorem respond_resp (r : Response Word) (s : State) : (respond r s).resp = some (responseWord r) := rfl
@[simp] theorem respond_script (r : Response Word) (s : State) : (respond r s).script = s.script := rfl
@[simp] theorem respond_toBlockState (r : Response Word) (s : State) : (respond r s).toBlockState = s.toBlockState := rfl
@[simp] theorem respond_num (r : Response Word) (s : State) : (respond r s).num = s.num := rfl
@[simp] theorem respond_built (r : Response Word) (s : State) : (respond r s).built = s.built := rfl

@[simp] theorem beginStep_st (s : State) : (beginStep s).st = s.st := rfl
@[simp] theorem beginStep_ph (s : State) : (beginStep s).ph = s.ph := rfl
@[simp] theorem beginStep_rv (s : State) : (beginStep s).rv = s.rv := rfl
@[simp] theorem beginStep_period (s : State) : (beginStep s).period = s.period := rfl
@[simp] theorem beginStep_binres (s : State) : (beginStep s).binres = s.binres := rfl
@[simp] theorem beginStep_reading (s : State) : (beginStep s).reading = s.reading := rfl
@[simp] theorem beginStep_sb (s : State) : (beginStep s).sb = s.sb := rfl
@[simp] theorem beginStep_mean (s : State) : (beginStep s).mean = s.mean := rfl
@[simp] theorem beginStep_cs (s : State) : (beginStep s).cs = s.cs := rfl
@[simp] theorem beginStep_xr (s : State) : (beginStep s).xr = s.xr := rfl
@[simp] theorem beginStep_xi (s : State) : (beginStep s).xi = s.xi := rfl
@[simp] theorem beginStep_mg (s : State) : (beginStep s).mg = s.mg := rfl
@[simp] theorem beginStep_kmax (s : State) : (beginStep s).kmax = s.kmax := rfl
@[simp] theorem beginStep_maxm (s : State) : (beginStep s).maxm = s.maxm := rfl
@[simp] theorem beginStep_gen (s : State) : (beginStep s).gen = s.gen := rfl
@[simp] theorem beginStep_epoch (s : State) : (beginStep s).epoch = s.epoch := rfl
@[simp] theorem beginStep_cfg (s : State) : (beginStep s).cfg = s.cfg := rfl
@[simp] theorem beginStep_resp (s : State) : (beginStep s).resp = none := rfl
@[simp] theorem beginStep_script (s : State) : (beginStep s).script = s.script.tail := rfl
@[simp] theorem beginStep_toBlockState (s : State) : (beginStep s).toBlockState = s.toBlockState := rfl
@[simp] theorem beginStep_num (s : State) : (beginStep s).num = s.num := rfl
@[simp] theorem beginStep_built (s : State) : (beginStep s).built = s.built := rfl

end Sys2Proof.Machine
end

