-- ==== Sys2Proof/Laws/Memory.lean ====
section
/-! SUPPORT. The sample memory: a read after a write, a write leaves every other location alone, and every memory
operation keeps the canonical form (20_memory R60, R68). -/

namespace Sys2Proof.Machine

theorem find_store_same (m : Memory) (i : Nat) (v : Sample) : (m.store i v).find i = some v := by
  induction m with
  | nil => simp [Memory.store, Memory.find]
  | cons e m ih =>
    obtain ⟨j, w⟩ := e
    simp only [Memory.store]
    split_ifs with h1 h2
    · simp [Memory.find]
    · simp [Memory.find]
    · simpa [Memory.find, Ne.symm h2] using ih

theorem find_store_other (m : Memory) {i k : Nat} (v : Sample) (hk : k ≠ i) : (m.store i v).find k = m.find k := by
  induction m with
  | nil => simp [Memory.store, Memory.find, hk.symm]
  | cons e m ih =>
    obtain ⟨j, w⟩ := e
    simp only [Memory.store]
    split_ifs with h1 h2
    · simp [Memory.find, hk.symm]
    · subst h2; simp [Memory.find, hk.symm]
    · simp [Memory.find, ih]

theorem readOver_memWrite_same {R P A W : Type} (b : Built R P A W) (x : BlockState R P) (i : Nat) (v : Sample) :
    readOver b (memWrite i v x) i = v := by
  simp [readOver, find_store_same]

theorem readOver_memWrite_other {R P A W : Type} (b : Built R P A W) (x : BlockState R P) {i k : Nat} (v : Sample)
    (hk : k ≠ i) : readOver b (memWrite i v x) k = readOver b x k := by
  simp [readOver, find_store_other x.sb v hk]

/-- What a location reads as depends on the memory and the reset count alone. -/
theorem readOver_congr {R P A W : Type} (b : Built R P A W) {x y : BlockState R P} (hs : x.sb = y.sb)
    (he : x.epoch = y.epoch) (i : Nat) : readOver b x i = readOver b y i := by rw [readOver, readOver, hs, he]

theorem samplesOver_congr {R P A W : Type} (b : Built R P A W) {x y : BlockState R P} (hs : x.sb = y.sb)
    (he : x.epoch = y.epoch) : samplesOver b x = samplesOver b y := by
  simp only [samplesOver, funext fun i => readOver_congr b hs he i]

/-- The entries of a written memory are the new one and old ones. -/
theorem mem_store {m : Memory} {i : Nat} {v : Sample} {e : Nat × Sample} (h : e ∈ m.store i v) : e = (i, v) ∨ e ∈ m := by
  induction m with
  | nil => simpa [Memory.store] using h
  | cons f m ih =>
    obtain ⟨j, w⟩ := f
    simp only [Memory.store] at h
    split_ifs at h with h1 h2
    · simpa using h
    · rcases List.mem_cons.1 h with h | h
      · exact .inl h
      · exact .inr (List.mem_cons_of_mem _ h)
    · rcases List.mem_cons.1 h with h | h
      · exact .inr (by simp [h])
      · exact (ih h).imp id (List.mem_cons_of_mem _)

theorem store_rising {m : Memory} (i : Nat) (v : Sample) (h : m.Pairwise fun a b => a.1 < b.1) :
    (m.store i v).Pairwise fun a b => a.1 < b.1 := by
  induction m with
  | nil => simp [Memory.store]
  | cons f m ih =>
    obtain ⟨j, w⟩ := f
    rw [List.pairwise_cons] at h
    simp only [Memory.store]
    split_ifs with h1 h2
    · refine List.pairwise_cons.2 ⟨fun e he => ?_, List.pairwise_cons.2 h⟩
      rcases List.mem_cons.1 he with rfl | he
      · exact h1
      · exact h1.trans (h.1 e he)
    · subst h2
      exact List.pairwise_cons.2 h
    · refine List.pairwise_cons.2 ⟨fun e he => ?_, ih h.2⟩
      rcases mem_store he with rfl | he
      · exact lt_of_le_of_ne (not_lt.1 h1) (Ne.symm h2)
      · exact h.1 e he

/-- What the canonical form says. -/
theorem wf_iff (c : Size) (m : Memory) :
    Memory.wf c m = true ↔ (m.Pairwise fun a b => a.1 < b.1) ∧ ∀ e ∈ m, e.1 < c.n ∧ e.2.toNat < 2 ^ c.sampleW := by
  simp [Memory.wf, dataOk]

theorem wf_nil (c : Size) : Memory.wf c [] = true := by simp [wf_iff]

/-- `MemWrite` of a sample in range keeps the canonical form. -/
theorem store_wf {c : Size} {m : Memory} {i : Nat} {v : Sample} (h : Memory.wf c m = true) (hi : i < c.n)
    (hv : v.toNat < 2 ^ c.sampleW) : Memory.wf c (m.store i v) = true := by
  rw [wf_iff] at h ⊢
  refine ⟨store_rising i v h.1, fun e he => ?_⟩
  rcases mem_store he with rfl | he
  · exact ⟨hi, hv⟩
  · exact h.2 e he

/-- The memory after reset is in canonical form. -/
theorem reset_memory_wf : Memory.wf State.reset.cfg.toSize State.reset.sb = true := wf_nil _

/-- Two canonical memories that were written at the same locations with the same samples are the same data. -/
theorem memory_ext {m k : Memory} (hm : m.Pairwise fun a b => a.1 < b.1) (hk : k.Pairwise fun a b => a.1 < b.1)
    (h : ∀ i, m.find i = k.find i) : m = k := by
  have find_some : ∀ {l : Memory}, (l.Pairwise fun a b => a.1 < b.1) → ∀ i v, l.find i = some v ↔ (i, v) ∈ l := by
    intro l hl i v
    induction l with
    | nil => simp [Memory.find]
    | cons e l ih =>
      obtain ⟨j, w⟩ := e
      rw [List.pairwise_cons] at hl
      by_cases hj : j = i
      · subst hj
        have : ∀ v', (j, v') ∉ l := fun v' hv' => absurd (hl.1 _ hv') (lt_irrefl _)
        simp [Memory.find, this, eq_comm]
      · simp [Memory.find, hj, ih hl.2, Ne.symm hj]
  have irr : ∀ {l : Memory}, (l.Pairwise fun a b => a.1 < b.1) → l.Nodup := fun hl =>
    hl.imp fun hab heq => absurd hab (by simp [heq])
  have hp : m.Perm k := (List.perm_ext_iff_of_nodup (irr hm) (irr hk)).2 fun e => by
    rw [← find_some hm, ← find_some hk, h]
  exact hp.eq_of_pairwise (fun a b _ _ hab hba => absurd (hab.trans hba) (lt_irrefl _)) hm hk

/-- The samples of the block, one per location. -/
@[simp] theorem samplesOver_length {R P A W : Type} (b : Built R P A W) (x : BlockState R P) :
    (samplesOver b x).length = b.n := by simp [samplesOver]

theorem samplesOver_getElem {R P A W : Type} (b : Built R P A W) (x : BlockState R P) {i : Nat} (hi : i < b.n) :
    (samplesOver b x)[i]? = some (readOver b x i) := by simp [samplesOver, hi]

@[simp] theorem samples_length (s : State) : (samples s).length = s.cfg.n := samplesOver_length _ _

theorem samples_getElem (s : State) {i : Nat} (hi : i < s.cfg.n) : (samples s)[i]? = some (memRead s i) :=
  samplesOver_getElem _ _ hi

/-- A location nothing has been written to holds a sample of `SAMPLE_W` bits. -/
theorem unwrittenSample_lt {R P A W : Type} (b : Built R P A W) (e i : Nat) :
    (unwrittenSample b e i).toNat < 2 ^ b.sampleW := by
  have h : (b.unspecified.sample e i).toNat % 2 ^ b.sampleW < 2 ^ b.sampleW := Nat.mod_lt _ (by positivity)
  exact lt_of_le_of_lt (by simpa [unwrittenSample] using Nat.mod_le _ _) h

end Sys2Proof.Machine
end

