-- ==== Sys2Proof/Laws/Ops.lean ====
section
/-! SUPPORT. What each shared operation can do, said once: enabledness, the transient registers, the arithmetic's shapes. -/

namespace Sys2Proof.Machine

/-- A sequencer operation that answers a next state was enabled. -/
theorem whenEnabled_eq_next {R P : Type} {p : Phase} {m : String} {s t : BlockState R P} {act : BlockResult R P}
    (h : whenEnabled p m s act = .next t) : s.ph = p ∧ act = .next t := by
  unfold whenEnabled at h
  split at h
  · exact ⟨‹_›, h⟩
  · cases h

theorem whenEnabled_of_phase {R P : Type} {p : Phase} (m : String) {s : BlockState R P} (act : BlockResult R P) (h : s.ph = p) :
    whenEnabled p m s act = act := by simp [whenEnabled, h]

theorem whenEnabled_of_ne {R P : Type} {p : Phase} (m : String) {s : BlockState R P} (act : BlockResult R P) (h : s.ph ≠ p) :
    whenEnabled p m s act = .refused (.notEnabled m) := by simp [whenEnabled, h]

/-- An operation that read a transient register and answers a next state found a value there. -/
theorem withValue_eq_next {T S : Type} {r : Transient} {v : Option T} {act : T → Host.Outcome S Fault Refusal} {t : S}
    (h : withValue r v act = .next t) : ∃ x, v = some x ∧ act x = .next t := by
  unfold withValue at h
  split at h
  · exact ⟨_, rfl, h⟩
  · cases h

@[simp] theorem withValue_some {T S : Type} (r : Transient) (x : T) (act : T → Host.Outcome S Fault Refusal) :
    withValue r (some x) act = act x := rfl

@[simp] theorem withValue_none {T S : Type} (r : Transient) (act : T → Host.Outcome S Fault Refusal) :
    withValue r none act = .fault (.noValue r) := rfl

/-- A live array register is one that holds an array of the right length. -/
theorem liveArray_eq_some {R : Type} {n : Nat} {v : Option (List R)} {l : List R} :
    liveArray n v = some l ↔ v = some l ∧ l.length = n := by
  cases v with
  | none => simp [liveArray]
  | some k =>
    simp only [liveArray]
    split_ifs with h
    · constructor
      · rintro ⟨⟩; exact ⟨rfl, h⟩
      · rintro ⟨h', -⟩; exact h'
    · constructor
      · intro h'; cases h'
      · rintro ⟨⟨⟩, h'⟩; exact absurd h' h

@[simp] theorem liveArray_none {R : Type} (n : Nat) : liveArray n (none : Option (List R)) = none := rfl

/-! ## Shapes of the arithmetic -/

@[simp] theorem centred_length {R P : Type} (num : Num R P) (sb : List Sample) :
    (centred num sb).length = sb.length := by simp [centred]

@[simp] theorem magnitudes_length {R P : Type} (num : Num R P) (bins : Nat) (xr xi : List R) :
    (magnitudes num bins xr xi).length = bins := by simp [magnitudes]

/-- Both arrays of a spectrum have `n` elements. -/
def Spectrum.HasLength {R : Type} (n : Nat) (x : Spectrum R) : Prop := x.re.length = n ∧ x.im.length = n

/-- A fold keeps what each of its steps keeps. -/
theorem foldl_keeps {A B : Type} (inv : A → Prop) (f : A → B → A) (hf : ∀ a b, inv a → inv (f a b)) :
    ∀ (l : List B) (a : A), inv a → inv (l.foldl f a)
  | [], _, h => h
  | b :: l, a, h => foldl_keeps inv f hf l (f a b) (hf a b h)

theorem loadReversed_hasLength {R P : Type} (num : Num R P) (logN : Nat) (cs : List R) :
    (loadReversed num logN cs).HasLength (2 ^ logN) := by
  refine ⟨?_, by simp [loadReversed]⟩
  exact foldl_keeps (fun l : List R => l.length = 2 ^ logN) _ (fun l e h => by simpa using h) _ _ (by simp)

theorem butterfly_hasLength {R P : Type} (num : Num R P) (b j h : Nat) (wr ws : R) {n : Nat} {x : Spectrum R}
    (hx : x.HasLength n) : (butterfly num b j h wr ws x).HasLength n := by
  simpa [Spectrum.HasLength, butterfly] using hx

theorem group_hasLength {R P : Type} (num : Num R P) (logN stage b : Nat) {n : Nat} {x : Spectrum R}
    (hx : x.HasLength n) : (group num logN stage b x).HasLength n :=
  foldl_keeps (Spectrum.HasLength n) _ (fun _ _ h => butterfly_hasLength num _ _ _ _ _ h) _ _ hx

theorem fftStage_hasLength {R P : Type} (num : Num R P) (logN stage : Nat) {n : Nat} {x : Spectrum R}
    (hx : x.HasLength n) : (fftStage num logN stage x).HasLength n :=
  foldl_keeps (Spectrum.HasLength n) _ (fun _ _ h => group_hasLength num _ _ _ h) _ _ hx

/-- The transform of any input has two arrays of `N` elements. -/
theorem transform_hasLength {R P : Type} (num : Num R P) (logN : Nat) (cs : List R) :
    (transform num logN cs).HasLength (2 ^ logN) :=
  foldl_keeps (Spectrum.HasLength (2 ^ logN)) _ (fun _ _ h => fftStage_hasLength num _ _ h) _ _
    (loadReversed_hasLength num logN cs)

/-- `bitrev_L(n)` is an `L`-bit number (00_scope R10). -/
theorem bitrev_lt (l n : Nat) : bitrev l n < 2 ^ l := by
  induction l generalizing n with
  | zero => simp [bitrev]
  | succ l ih =>
    have h1 := ih (n / 2)
    have h2 : n % 2 ≤ 1 := by omega
    have h3 : n % 2 * 2 ^ l ≤ 1 * 2 ^ l := Nat.mul_le_mul_right _ h2
    simp only [bitrev, pow_succ]
    omega

/-- The scan's stored bin is the one it started with or a bin it has scanned. -/
theorem scanFrom_index {R P : Type} (num : Num R P) (vs : List R) :
    ∀ (k : Nat) (best : Nat × R), best.1 < k → (scanFrom num k best vs).1 < k + vs.length := by
  induction vs with
  | nil => intro k best h; simpa [scanFrom] using h
  | cons v vs ih =>
    intro k best h
    have hb : (if num.gt v best.2 then (k, v) else best).1 < k + 1 := by
      split_ifs
      · exact Nat.lt_succ_self k
      · exact Nat.lt_succ_of_lt h
    have := ih (k + 1) _ hb
    simp only [scanFrom, List.length_cons]
    omega

/-- `KMAX` is a scanned bin (10_state R26). -/
theorem peakScan_index_lt {R P : Type} (num : Num R P) {mg : List R} (h : 0 < mg.length) :
    (peakScan num mg).1 < mg.length := by
  cases mg with
  | nil => simp at h
  | cons m ms =>
    have := scanFrom_index num ms 1 (0, m) (by simp)
    simp only [peakScan, List.length_cons]
    omega

/-! ## Codes -/

theorem phaseCode_injective {p q : Phase} (h : phaseCode p = phaseCode q) : p = q := by
  cases p <;> cases q <;> first | rfl | (exact absurd h (by decide))

theorem phaseOfCode_phaseCode (p : Phase) : phaseOfCode (phaseCode p) = some p := by
  cases p <;> decide

end Sys2Proof.Machine
end

