-- ==== Sys2Proof/Laws/Exec.lean ====
section
/-! SUPPORT. What each operation can do, said once: exactly when it answers a next state, and which; first on the registers of
any block, then on the state. -/

namespace Sys2Proof.Machine

/-- An outcome that is a next state determines it. -/
theorem next_iff {S : Type} {s t : S} : (Host.Outcome.next s : Host.Outcome S Fault Refusal) = .next t ↔ t = s :=
  ⟨fun h => by cases h; rfl, fun h => by rw [h]⟩

theorem whenEnabled_iff {R P : Type} {p : Phase} {m : String} {x y : BlockState R P} {act : BlockResult R P} :
    whenEnabled p m x act = .next y ↔ x.ph = p ∧ act = .next y :=
  ⟨whenEnabled_eq_next, fun h => by rw [whenEnabled_of_phase m act h.1]; exact h.2⟩

theorem withValue_iff {T S : Type} {r : Transient} {v : Option T} {act : T → Host.Outcome S Fault Refusal} {t : S} :
    withValue r v act = .next t ↔ ∃ x, v = some x ∧ act x = .next t :=
  ⟨withValue_eq_next, by rintro ⟨x, rfl, h⟩; exact h⟩

/-- An operation on the registers, run on a state, changes the registers and nothing else. -/
theorem onBlock_iff {s t : State} {r : BlockResult Word Word} :
    s.onBlock r = .next t ↔ ∃ x, r = .next x ∧ t = s.withBlock x := by
  cases r <;> simp [State.onBlock, eq_comm]

/-! ## The registers of any block -/

section registers

variable {R P A W : Type} {b : Built R P A W} {x y : BlockState R P}

theorem initOver_idle {arg : A} (h : x.st = .idle) : initOver b arg x = initialise b (periodOperand b arg) x := by
  simp [initOver, h]

theorem initOver_dropped {arg : A} (h : x.st ≠ .idle) : initOver b arg x = x := by simp [initOver, h]

theorem swrOver_written {idx : IndexField} {data : Sample} (h : x.st = .acquiring)
    (ho : sampleOperandsOk b.toSize idx data = true) : swrOver b idx data x = memWrite (indexOperand idx) data x := by
  simp [swrOver, h, ho]

theorem swrOver_dropped {idx : IndexField} {data : Sample}
    (h : ¬(x.st = .acquiring ∧ sampleOperandsOk b.toSize idx data = true)) : swrOver b idx data x = x := by
  by_cases h1 : x.st = .acquiring <;> by_cases h2 : sampleOperandsOk b.toSize idx data = true <;> simp_all [swrOver]

theorem cpltOver_accepted (h : x.st = .acquiring) : cpltOver x = acceptCompletion x := by simp [cpltOver, h]

theorem cpltOver_dropped (h : x.st ≠ .acquiring) : cpltOver x = x := by simp [cpltOver, h]

theorem claimOver_iff : claimOver x = .next y ↔ x.ph = .claim ∧ y = { x with st := .processing, ph := .dcr } := by
  rw [claimOver, whenEnabled_iff, next_iff]

theorem dcrOver_iff : dcrOver b x = .next y ↔
    x.ph = .dcr ∧ y = { x with
      mean := some (blockMean b.num.toNum (samplesOver b x)), cs := some (centred b.num.toNum (samplesOver b x))
      ph := .fft } := by
  rw [dcrOver, whenEnabled_iff, next_iff]

theorem fftOver_iff : fftOver b x = .next y ↔
    x.ph = .fft ∧ ∃ l, x.cs = some l ∧ l.length = b.n ∧ y = { x with
      xr := some (transform b.num.toNum b.logN l).re, xi := some (transform b.num.toNum b.logN l).im
      cs := none, ph := .mag } := by
  simp only [fftOver, whenEnabled_iff, withValue_iff, next_iff, liveArray_eq_some, and_assoc]

theorem magOver_iff : magOver b x = .next y ↔
    x.ph = .mag ∧ ∃ xr, x.xr = some xr ∧ xr.length = b.n ∧ ∃ xi, x.xi = some xi ∧ xi.length = b.n ∧ y = { x with
      mg := some (magnitudes b.num.toNum b.bins xr xi), xr := none, xi := none, ph := .peak } := by
  simp only [magOver, whenEnabled_iff, withValue_iff, next_iff, liveArray_eq_some, and_assoc]

theorem peakOver_iff : peakOver b x = .next y ↔
    x.ph = .peak ∧ ∃ mg, x.mg = some mg ∧ mg.length = b.bins ∧ y = { x with
      kmax := some (peakScan b.num.toNum mg).1, maxm := some (peakScan b.num.toNum mg).2, mg := none, ph := .pub } := by
  simp only [peakOver, whenEnabled_iff, withValue_iff, next_iff, liveArray_eq_some, and_assoc]

theorem pubOver_iff : pubOver b x = .next y ↔
    x.ph = .pub ∧ ∃ k, x.kmax = some k ∧ y = setReadingValid { x with
      reading := readingOf b.num.toNum k x.binres, kmax := none, maxm := none, ph := .rearm } := by
  simp only [pubOver, whenEnabled_iff, withValue_iff, next_iff]

theorem rearmOver_iff : rearmOver x = .next y ↔ x.ph = .rearm ∧ y = returnToAcquiring x := by
  rw [rearmOver, whenEnabled_iff, next_iff]

end registers

/-! ## The state -/

theorem exec_nop {s t : State} : exec .nop s = .next t ↔ t = respond .null s := next_iff

theorem exec_init {arg : Word} {s t : State} : exec (.init arg) s = .next t ↔
    (s.st = .idle ∧ t = respond .null (s.withBlock (initialise s.built (periodOperand s.built arg) s.toBlockState)))
      ∨ (s.st ≠ .idle ∧ t = respond .null s) := by
  rw [exec, execInit, next_iff]
  by_cases h : s.st = .idle
  · simp [initOver_idle h, h]
  · simp [initOver_dropped h, h, State.withBlock]

theorem exec_rdfreq {s t : State} : exec .rdfreq s = .next t ↔ t = respond (readingResponse s.built s.toBlockState) s :=
  next_iff

theorem exec_rdstat {s t : State} : exec .rdstat s = .next t ↔ t = respond (statusResponse s.toBlockState) s := next_iff

theorem exec_swr {idx : IndexField} {data : Sample} {s t : State} : exec (.swr idx data) s = .next t ↔
    (s.st = .acquiring ∧ sampleOperandsOk s.cfg.toSize idx data = true
        ∧ t = s.withBlock (memWrite (indexOperand idx) data s.toBlockState))
      ∨ (¬(s.st = .acquiring ∧ sampleOperandsOk s.cfg.toSize idx data = true) ∧ t = s) := by
  rw [exec, execSwr, next_iff]
  by_cases h : s.st = .acquiring ∧ sampleOperandsOk s.cfg.toSize idx data = true
  · rw [swrOver_written h.1 h.2]; simp [h]
  · rw [swrOver_dropped h]
    exact ⟨fun ht => .inr ⟨h, ht⟩, fun ht => ht.elim (fun hc => absurd ⟨hc.1, hc.2.1⟩ h) And.right⟩

theorem exec_cplt {s t : State} : exec .cplt s = .next t ↔
    (s.st = .acquiring ∧ t = s.withBlock (acceptCompletion s.toBlockState)) ∨ (s.st ≠ .acquiring ∧ t = s) := by
  rw [exec, execCplt, next_iff]
  by_cases h : s.st = .acquiring
  · simp [cpltOver_accepted h, h]
  · simp [cpltOver_dropped h, h, State.withBlock]

theorem exec_claim {s t : State} : exec .claim s = .next t ↔
    s.ph = .claim ∧ t = { s with st := .processing, ph := .dcr } := by
  simp [exec, execClaim, onBlock_iff, claimOver_iff, State.withBlock]

theorem exec_dcr {s t : State} : exec .dcr s = .next t ↔
    s.ph = .dcr ∧ t = { s with
      mean := some (blockMean s.num.toNum (samples s)), cs := some (centred s.num.toNum (samples s)), ph := .fft } := by
  simp [exec, execDcr, onBlock_iff, dcrOver_iff, State.withBlock, samples]

theorem exec_fft {s t : State} : exec .fft s = .next t ↔
    s.ph = .fft ∧ ∃ l, s.cs = some l ∧ l.length = s.cfg.n ∧ t = { s with
      xr := some (transform s.num.toNum s.cfg.logN l).re, xi := some (transform s.num.toNum s.cfg.logN l).im
      cs := none, ph := .mag } := by
  simp only [exec, execFft, onBlock_iff, fftOver_iff]
  constructor
  · rintro ⟨x, ⟨hp, l, hl, hn, rfl⟩, rfl⟩; exact ⟨hp, l, hl, hn, rfl⟩
  · rintro ⟨hp, l, hl, hn, rfl⟩; exact ⟨_, ⟨hp, l, hl, hn, rfl⟩, rfl⟩

theorem exec_mag {s t : State} : exec .mag s = .next t ↔
    s.ph = .mag ∧ ∃ xr, s.xr = some xr ∧ xr.length = s.cfg.n ∧ ∃ xi, s.xi = some xi ∧ xi.length = s.cfg.n ∧ t = { s with
      mg := some (magnitudes s.num.toNum s.cfg.bins xr xi), xr := none, xi := none, ph := .peak } := by
  simp only [exec, execMag, onBlock_iff, magOver_iff]
  constructor
  · rintro ⟨x, ⟨hp, l, hl, hn, l', hl', hn', rfl⟩, rfl⟩; exact ⟨hp, l, hl, hn, l', hl', hn', rfl⟩
  · rintro ⟨hp, l, hl, hn, l', hl', hn', rfl⟩; exact ⟨_, ⟨hp, l, hl, hn, l', hl', hn', rfl⟩, rfl⟩

theorem exec_peak {s t : State} : exec .peak s = .next t ↔
    s.ph = .peak ∧ ∃ mg, s.mg = some mg ∧ mg.length = s.cfg.bins ∧ t = { s with
      kmax := some (peakScan s.num.toNum mg).1, maxm := some (peakScan s.num.toNum mg).2, mg := none, ph := .pub } := by
  simp only [exec, execPeak, onBlock_iff, peakOver_iff]
  constructor
  · rintro ⟨x, ⟨hp, l, hl, hn, rfl⟩, rfl⟩; exact ⟨hp, l, hl, hn, rfl⟩
  · rintro ⟨hp, l, hl, hn, rfl⟩; exact ⟨_, ⟨hp, l, hl, hn, rfl⟩, rfl⟩

theorem exec_pub {s t : State} : exec .pub s = .next t ↔
    s.ph = .pub ∧ ∃ k, s.kmax = some k ∧ t = { s with
      reading := readingOf s.num.toNum k s.binres, rv := true, kmax := none, maxm := none, ph := .rearm } := by
  simp only [exec, execPub, onBlock_iff, pubOver_iff]
  constructor
  · rintro ⟨x, ⟨hp, k, hk, rfl⟩, rfl⟩; exact ⟨hp, k, hk, rfl⟩
  · rintro ⟨hp, k, hk, rfl⟩; exact ⟨_, ⟨hp, k, hk, rfl⟩, rfl⟩

theorem exec_rearm {s t : State} : exec .rearm s = .next t ↔
    s.ph = .rearm ∧ t = s.withBlock (returnToAcquiring s.toBlockState) := by
  simp only [exec, execRearm, onBlock_iff, rearmOver_iff]
  exact ⟨fun ⟨_, ⟨hp, hx⟩, ht⟩ => ⟨hp, by rw [ht, hx]⟩, fun ⟨hp, ht⟩ => ⟨_, ⟨hp, rfl⟩, ht⟩⟩

theorem exec_reset {s t : State} : exec .reset s = .next t ↔ t = s.withBlock (resetBlock s.built (s.epoch + 1)) := next_iff

end Sys2Proof.Machine
end

