-- ==== Sys2Proof/Laws/Over.lean ====
section
/-! SUPPORT. The machine over any `NUM` and the machine of `State` are one: `exec` is `execOver` at 32-bit carriers, and the reset
states agree. -/

namespace Sys2Proof.Machine

/-- What an instruction does to a state is what its operation does to the registers of the state's block. -/
theorem exec_eq_execOver (i : Instr) (s : State) :
    exec i s = s.withEffect (execOver s.built (opOfInstr i) s.toBlockState) := by
  have silent : ∀ r : BlockResult Word Word, s.withEffect (noResponse r) = s.onBlock r := fun r => by cases r <;> rfl
  cases i <;> first | rfl | exact (silent _).symm

/-- The registers of the model's reset state are those of a block after reset. -/
theorem reset_eq_resetBlock : State.reset.toBlockState = resetBlock State.reset.built 0 := rfl

/-- The operation enabled at a phase is the one whose code `PH` then holds. -/
theorem enabledOp_code (i : Instr) (p : Phase) (hi : i.agent = .seq) :
    enabledOp p = some (opOfInstr i) ↔ encode i = .phase (phaseCode p) := by
  cases i <;> first | exact absurd hi (by decide) | (cases p <;> simp [enabledOp, opOfInstr, encode, phaseCode])

/-- A step of a block over any `NUM` is its next operation on the registers. -/
theorem stepOver_of_op {R P A W : Type} {b : Built R P A W} {m : BlockMachine R P A W} {o : Op A} {e : Effect R P W}
    (ho : nextOp m = some o) (he : execOver b o m.toBlockState = .next e) :
    stepOver b m = .next { e.block with resp := e.resp, script := m.script.tail } := by
  simp [stepOver, ho, he]

/-- The registers of a run of `k + j` steps are those of `j` steps after `k`. -/
theorem runOver_add {R P A W : Type} (b : Built R P A W) (j : Nat) :
    ∀ (k : Nat) (m m' : BlockMachine R P A W), runOver b k m = .next m' → runOver b (k + j) m = runOver b j m'
  | 0, m, m', h => by
    rw [runOver, next_iff] at h
    rw [h, Nat.zero_add]
  | k + 1, m, m', h => by
    rw [Nat.succ_add]
    simp only [runOver] at h ⊢
    cases hs : stepOver b m with
    | next n => rw [hs] at h; exact runOver_add b j k n m' h
    | fault f => rw [hs] at h; cases h
    | refused r => rw [hs] at h; cases h

/-- Over `NUM_REAL` the port carries the period and the Reading themselves (30_encoding R95). -/
@[simp] theorem realBlock_port (c : Size) (u : Unspecified ℝ ℝ) (v : ℝ) :
    (realBlock c u).num.decP v = v ∧ (realBlock c u).num.enc v = v := ⟨rfl, rfl⟩

end Sys2Proof.Machine
end

