-- ==== Sys2Proof/Laws/PerInstr.lean ====
section
/-! SUPPORT. Laws of every instruction as syntax, one lemma per constructor. -/

namespace Sys2Proof

/-- Format and value of a port word: its number of bits and its bits. -/
def PortWord.bits : PortWord → Nat × Nat
  | .command cw => (36, cw.toNat)
  | .event ew => (34, ew.toNat)
  | .phase code => (4, code.toNat)
  | .resetWire rst => (1, rst.toNat)

/-- The row of spec/opcode_table.json: `width`, `mask`, `match`. -/
def Instr.tableRow : Instr → Nat × Nat × Nat
  | .nop => (36, 0xF00000000, 0x000000000)
  | .init _ => (36, 0xF00000000, 0x100000000)
  | .rdfreq => (36, 0xF00000000, 0x200000000)
  | .rdstat => (36, 0xF00000000, 0x300000000)
  | .swr _ _ => (34, 0x300000000, 0x100000000)
  | .cplt => (34, 0x300000000, 0x200000000)
  | .claim => (4, 0xF, 0x8)
  | .dcr => (4, 0xF, 0x9)
  | .fft => (4, 0xF, 0xA)
  | .mag => (4, 0xF, 0xB)
  | .peak => (4, 0xF, 0xC)
  | .pub => (4, 0xF, 0xD)
  | .rearm => (4, 0xF, 0xE)
  | .reset => (1, 0x1, 0x1)

namespace Laws.TableMatch

/-- The word `encode` gives has the width of the instruction's row and matches it under its mask (30_encoding R96). -/
def Statement (i : Instr) : Prop :=
  (encode i).bits.1 = i.tableRow.1 ∧ (encode i).bits.2 &&& i.tableRow.2.1 = i.tableRow.2.2

/-- Masking the high part of a concatenation drops the low part. -/
theorem and_shiftLeft_of_lt {a b k : Nat} (m : Nat) (hb : b < 2 ^ k) :
    (a <<< k ||| b) &&& m <<< k = (a &&& m) <<< k := by
  refine Nat.eq_of_testBit_eq fun j => ?_
  simp only [Nat.testBit_and, Nat.testBit_or, Nat.testBit_shiftLeft]
  by_cases hj : k ≤ j
  · have : b.testBit j = false := Nat.testBit_lt_two_pow (hb.trans_le (Nat.pow_le_pow_right (by norm_num) hj))
    simp [hj, this]
  · simp [hj]

/-- The operation code is in the masked bits and the argument is not. -/
theorem commandWord_masked (op : BitVec 4) (arg : Word) :
    (commandWord op arg).toNat &&& 0xF00000000 = op.toNat <<< 32 := by
  have h := and_shiftLeft_of_lt (a := op.toNat) 0xF arg.isLt
  rw [show 0xF <<< 32 = 0xF00000000 from rfl] at h
  rw [commandWord, BitVec.toNat_append, h, show op.toNat &&& 0xF = op.toNat by
    simpa using Nat.and_two_pow_sub_one_of_lt_two_pow op.isLt]

/-- The kind is in the masked bits and the two operand fields are not. -/
theorem eventWord_masked (kind : BitVec 2) (idx : IndexField) (data : Sample) :
    (eventWord kind idx data).toNat &&& 0x300000000 = kind.toNat <<< 32 := by
  have h := and_shiftLeft_of_lt (a := kind.toNat) 0x3 (idx ++ data).isLt
  rw [show 0x3 <<< 32 = 0x300000000 from rfl] at h
  have h' : (eventWord kind idx data).toNat = kind.toNat <<< 32 ||| (idx ++ data).toNat := by
    rw [eventWord, BitVec.toNat_append, BitVec.toNat_append, BitVec.toNat_append, Nat.shiftLeft_or_distrib,
      ← Nat.shiftLeft_add, Nat.lor_assoc]
  rw [h', h, show kind.toNat &&& 0x3 = kind.toNat by
    simpa using Nat.and_two_pow_sub_one_of_lt_two_pow kind.isLt]

theorem nop : Statement .nop := ⟨rfl, commandWord_masked _ _⟩
theorem init (arg : Word) : Statement (.init arg) := ⟨rfl, commandWord_masked _ _⟩
theorem rdfreq : Statement .rdfreq := ⟨rfl, commandWord_masked _ _⟩
theorem rdstat : Statement .rdstat := ⟨rfl, commandWord_masked _ _⟩
theorem swr (idx : IndexField) (data : Sample) : Statement (.swr idx data) := ⟨rfl, eventWord_masked _ _ _⟩
theorem cplt : Statement .cplt := ⟨rfl, eventWord_masked _ _ _⟩
theorem claim : Statement .claim := ⟨rfl, rfl⟩
theorem dcr : Statement .dcr := ⟨rfl, rfl⟩
theorem fft : Statement .fft := ⟨rfl, rfl⟩
theorem mag : Statement .mag := ⟨rfl, rfl⟩
theorem peak : Statement .peak := ⟨rfl, rfl⟩
theorem pub : Statement .pub := ⟨rfl, rfl⟩
theorem rearm : Statement .rearm := ⟨rfl, rfl⟩
theorem reset : Statement .reset := ⟨rfl, rfl⟩

end Laws.TableMatch

end Sys2Proof
end

