-- ==== Sys2Proof/Laws/Runs.lean ====
section
/-! SUPPORT. Rest and observation (70 R293, R295). -/

namespace Sys2Proof.Machine

/-- A word that is no step of the block changes nothing but what the model keeps beside the registers. -/
theorem step_of_not_takesStep {s : State} (h : s.takesStep = false) : step s = .next (beginStep s) := by
  have key : ∀ d : Except Reject Instr,
      (match d with | .ok _ => true | .error r => Reject.isStep r) = false →
        (match d with | .ok i => exec i (beginStep s) | .error r => .next (noOperation r (beginStep s)))
          = (.next (beginStep s) : Result) := by
    rintro (r | i) hd
    · cases r <;> first | rfl | cases hd
    · cases hd
  exact key _ h

/-- At rest the next step is none of the block, and the block stays at rest. -/
theorem atRest_step {s : State} (h : s.atRest) :
    s.takesStep = false ∧ step s = .next (beginStep s) ∧ (beginStep s).atRest := by
  obtain ⟨hp, hs⟩ := h
  have ht : s.takesStep = false := by
    unfold State.takesStep offered
    cases hc : s.script with
    | nil => rw [hp]; rfl
    | cons i l =>
      rw [hc] at hs
      have hi := (List.all_eq_true.1 hs) i (List.mem_cons_self ..)
      cases i <;> simp_all [offersOperation, wordIsStep, decode, decodePhase, phaseCode, Reject.isStep]
  refine ⟨ht, step_of_not_takesStep ht, hp, ?_⟩
  rw [List.all_eq_true] at hs ⊢
  exact fun i hi => hs i (List.mem_of_mem_tail hi)

/-- At rest a run has no observation. -/
theorem observations_atRest : ∀ (k : Nat) {s : State}, s.atRest → observations k s = []
  | 0, _, _ => rfl
  | k + 1, s, h => by
    obtain ⟨ht, hs, hr⟩ := atRest_step h
    simp only [observations, hs, ht]
    exact observations_atRest k hr

end Sys2Proof.Machine
end

