-- ==== Sys2Proof/Tests/Slice0.lean ====
section
/-! SUPPORT. Tests: words and values printed in spec/ (each test names the vector or rule it is from), and for every statement
with hypotheses a state and operands that meet them. -/

namespace Sys2Proof.Tests

open Sys2Proof.Machine

/-! ## Small states -/

/-- `N = 4`, `SAMPLE_W = 12`, `NUM_F32`: the configuration of 95 V3, V6a, V7 and P1. -/
def cfg4 : Config := { logN := 2, sampleW := 12, ok := by decide, num := .f32 }

/-- `N = 8`, the configuration of 95 V8 and P2. -/
def cfg8 : Config := { logN := 3, sampleW := 12, ok := by decide, num := .f32 }

def sIdle : State := { State.reset with cfg := cfg4 }

/-- 95 P1 after step 8. -/
def sAcquiring : State :=
  { sIdle with
    st := .acquiring, gen := 1, period := 0x3E800000, binres := 0x3F800000
    sb := [(0, 2048), (1, 2049), (2, 2048), (3, 2047)] }

def sReady : State := { sAcquiring with st := .ready, ph := .claim }

def sDcr : State := { sAcquiring with st := .processing, ph := .dcr }

def sFft : State := { sDcr with ph := .fft, mean := some 0x45000000, cs := some [0, 0x3F800000, 0, 0xBF800000] }

def sMag : State :=
  { sFft with ph := .mag, cs := none, xr := some [0, 0, 0, 0], xi := some [0, 0xC0000000, 0, 0x40000000] }

def sPeak : State := { sMag with ph := .peak, xr := none, xi := none, mg := some [0, 0x40000000] }

def sPub : State := { sPeak with ph := .pub, mg := none, kmax := some 1, maxm := some 0x40000000 }

def sRearm : State := { sPub with ph := .rearm, kmax := none, maxm := none, rv := true, reading := 0x3F800000 }

/-- The next state of an outcome. -/
def nextOf : Result → Option State
  | .next t => some t
  | .fault _ => none
  | .refused _ => none

/-! ## Words (30_encoding R96, R105; 95 V3, V15) -/

theorem test_decode_nop : decode cfg4 (.command 0x0DEADBEEF#36) = .ok .nop := by decide
theorem test_decode_init : decode cfg4 (.command 0x13E800000#36) = .ok (.init 0x3E800000) := by decide
theorem test_decode_rdfreq : decode cfg4 (.command 0x200000000#36) = .ok .rdfreq := by decide
theorem test_decode_rdstat : decode cfg4 (.command 0x300000000#36) = .ok .rdstat := by decide
theorem test_decode_swr : decode cfg4 (.event 0x100020009#34) = .ok (.swr 2 9) := by decide
theorem test_decode_swr_last : decode cfg4 (.event 0x100030FFF#34) = .ok (.swr 3 4095) := by decide
theorem test_decode_cplt : decode cfg4 (.event 0x212345678#34) = .ok .cplt := by decide
theorem test_decode_claim : decode cfg4 (.phase 0b1000#4) = .ok .claim := by decide
theorem test_decode_dcr : decode cfg4 (.phase 0b1001#4) = .ok .dcr := by decide
theorem test_decode_fft : decode cfg4 (.phase 0b1010#4) = .ok .fft := by decide
theorem test_decode_mag : decode cfg4 (.phase 0b1011#4) = .ok .mag := by decide
theorem test_decode_peak : decode cfg4 (.phase 0b1100#4) = .ok .peak := by decide
theorem test_decode_pub : decode cfg4 (.phase 0b1101#4) = .ok .pub := by decide
theorem test_decode_rearm : decode cfg4 (.phase 0b1110#4) = .ok .rearm := by decide
theorem test_decode_reset : decode cfg4 (.resetWire 1#1) = .ok .reset := by decide

theorem test_reserved_command : decode cfg4 (.command 0x400000000#36) = .error .reservedHostOp := by decide
theorem test_reserved_command_last : decode cfg4 (.command 0xFFFFFFFFF#36) = .error .reservedHostOp := by decide
theorem test_reserved_index : decode cfg4 (.event 0x100040009#34) = .error .indexOutOfRange := by decide
theorem test_reserved_data : decode cfg4 (.event 0x100021000#34) = .error .dataOutOfRange := by decide
theorem test_reserved_kind : decode cfg4 (.event 0x300000000#34) = .error .reservedKind := by decide
theorem test_no_event : decode cfg4 (.event 0x012345678#34) = .error .noEvent := by decide
theorem test_no_reset : decode cfg4 (.resetWire 0#1) = .error .noReset := by decide
theorem test_phase_waiting : decode cfg4 (.phase 0x0#4) = .error .waiting := by decide
theorem test_phase_never : decode cfg4 (.phase 0xF#4) = .error .noSuchPhase := by decide

/-- 95 P1 steps 4, 5 and 9. -/
theorem test_encode_words :
    encode (.init 0x3E800000) = .command 0x13E800000#36 ∧ encode (.swr 0 2048) = .event 0x100000800#34
      ∧ encode .cplt = .event 0x200000000#34 := by decide

theorem test_table_words :
    decodeTableWord 36 0x100000000 = some (.init 0) ∧ decodeTableWord 34 0x100000000 = some (.swr 0 0)
      ∧ decodeTableWord 8 0xA = some .fft ∧ decodeTableWord 8 0x1 = some .reset := by decide

/-! ## Well-formedness and configuration (30_encoding R102; 95 V17) -/

theorem test_wf_index : (Instr.swr 3 4095).wf cfg4 = true ∧ (Instr.swr 4 9).wf cfg4 = false := by decide
theorem test_wf_data : (Instr.swr 0 4096).wf cfg4 = false := by decide
theorem test_cfg_refused :
    cfgOK 0 12 = false ∧ cfgOK 1 12 = false ∧ cfgOK 3 12 = false ∧ cfgOK 1000 12 = false ∧ cfgOK 1025 12 = false
      ∧ cfgOK 131072 12 = false ∧ cfgOK 1024 0 = false ∧ cfgOK 1024 17 = false := by decide
theorem test_cfg_accepted : cfgOK 2 1 = true ∧ cfgOK 1024 12 = true ∧ cfgOK 65536 16 = true := by decide
theorem test_build_refused : Config.build? 1000 12 .f32 = none := by decide

/-! ## Operations, one step each -/

/-- 95 V15. -/
theorem test_nop : (nextOf (exec .nop sAcquiring)).map (fun t => (t.resp, t.st)) = some (some 0, .acquiring) := by decide

/-- 95 V15: `p = 0.25` at `N = 4` gives `BINRES = 1.0`. -/
theorem test_init : (nextOf (exec (.init 0x3E800000) sIdle)).map (fun t => (t.st, t.period, t.binres, t.gen, t.resp))
    = some (.acquiring, 0x3E800000, 0x3F800000, 1, some 0) := by decide

/-- 95 V15: `p = 0.5` gives `BINRES = 0.5`. -/
theorem test_init_half : (nextOf (exec (.init 0x3F000000) sIdle)).map (·.binres) = some 0x3F000000 := by decide

/-- 95 V15: zero, negative and NaN periods are outside the domain. -/
theorem test_init_domain :
    F32.binResDom 2 0x00000000 = false ∧ F32.binResDom 2 0xBE800000 = false ∧ F32.binResDom 2 0x7FC00000 = false
      ∧ F32.binResDom 2 0x3E800000 = true := by decide

/-- 95 V15: a second `INIT` is dropped. -/
theorem test_init_dropped : (nextOf (exec (.init 0x3F000000) sAcquiring)).map (·.binres) = some 0x3F800000 := by decide

/-- 95 V15. -/
theorem test_rdfreq :
    (nextOf (exec .rdfreq { sIdle with reading := 0x42C80000 })).map (·.resp) = some (some 0x42C80000) := by decide

/-- 95 V15: `Processing`, `PH = 0xC`, `RV = 1`. -/
theorem test_rdstat :
    (nextOf (exec .rdstat { sPeak with rv := true })).map (·.resp) = some (some 0x000000C7) := by decide

/-- 95 V3: any order, the later write wins. -/
theorem test_swr : (nextOf (exec (.swr 2 9) sAcquiring)).map (·.sb)
    = some [(0, 2048), (1, 2049), (2, 9), (3, 2047)] := by decide

/-- 95 V3: the gate is closed in `Processing`. -/
theorem test_swr_dropped : (nextOf (exec (.swr 2 9) sDcr)).map (·.sb) = some sDcr.sb := by decide

/-- 95 V1. -/
theorem test_cplt : (nextOf (exec .cplt sAcquiring)).map (fun t => (t.st, t.ph, status t)) = some (.ready, .claim, 0x82) := by
  decide

/-- 95 V1 and V2: dropped in `Processing`. -/
theorem test_cplt_dropped : (nextOf (exec .cplt sRearm)).map (fun t => (t.st, t.ph)) = some (.processing, .rearm) := by decide

/-- 40 R127's example. -/
theorem test_claim : (nextOf (exec .claim sReady)).map status = some 0x93 := by decide

/-- 95 V16: not enabled after a reset. -/
theorem test_claim_not_enabled : nextOf (exec .claim sIdle) = none := by decide

/-- 95 V6a. -/
theorem test_dcr : (nextOf (exec .dcr sDcr)).map (fun t => (t.mean, t.cs, t.ph))
    = some (some 0x45000000, some [0, 0x3F800000, 0, 0xBF800000], .fft) := by decide

/-- 95 V7. -/
theorem test_fft : (nextOf (exec .fft sFft)).map (fun t => (t.xr, t.xi, t.cs))
    = some (some [0, 0, 0, 0], some [0, 0xC0000000, 0, 0x40000000], none) := by decide

/-- 95 V11: the 3-4-5 case. -/
theorem test_mag : (nextOf (exec .mag { sMag with
      xr := some [0, 0x40400000, 0, 0], xi := some [0, 0x40800000, 0, 0] })).map (·.mg)
    = some (some [0, 0x40A00000]) := by decide

/-- 95 V12: `[0, 4, 0, 4]` ties to bin 1 (`N = 8`). -/
theorem test_peak_tie : (nextOf (exec .peak { sPeak with
      cfg := cfg8, mg := some [0, 0x40800000, 0, 0x40800000] })).map (fun t => (t.kmax, t.maxm, t.mg))
    = some (some 1, some 0x40800000, none) := by decide

/-- 95 V12: `[0, 0, 0, 1]`, the last scanned bin. -/
theorem test_peak_last : (nextOf (exec .peak { sPeak with
      cfg := cfg8, mg := some [0, 0, 0, 0x3F800000] })).map (·.kmax) = some (some 3) := by decide

/-- 95 V13: `3 × 0.25 = 0.75`. -/
theorem test_pub : (nextOf (exec .pub { sPub with kmax := some 3, binres := 0x3E800000 })).map
    (fun t => (t.reading, t.rv, t.kmax, t.ph)) = some (0x3F400000, true, none, .rearm) := by decide

/-- 95 V13: bin 0 reads zero. -/
theorem test_pub_zero : (nextOf (exec .pub { sPub with kmax := some 0 })).map (·.reading) = some 0 := by decide

/-- 40 R128's example. -/
theorem test_rearm : (nextOf (exec .rearm sRearm)).map (fun t => (status t, t.gen, t.mean, t.reading))
    = some (0x05, 2, none, 0x3F800000) := by decide

/-- 95 V16: a reset in mid-generation. -/
theorem test_reset : (nextOf (exec .reset { sMag with rv := true, reading := 0x42C80000 })).map
    (fun t => (status t, t.reading, t.gen, t.xr.isSome)) = some (0, 0, 0, false) := by decide

/-- 95 V16's last line. -/
theorem test_reset_wire : (nextOf (step { sMag with script := [.resetWire 1] })).map (fun t => (t.st, t.ph)) = some (.idle, .wait) := by
  decide

/-- 95 P2 step 15: the step takes the word and drops the write. -/
theorem test_step_swr : (nextOf (step { sFft with script := [.event 0x1000003E7#34] })).map (fun t => (t.sb, t.script))
    = some (sFft.sb, []) := by decide

/-- 95 V15's last line: a reserved code is answered zero and changes nothing. -/
theorem test_step_reserved : (nextOf (step { sFft with script := [.command 0x400000000#36] })).map (fun t => (t.resp, t.ph))
    = some (some 0, .fft) := by decide

/-- 43 R186: the sequencer's turn with `PH = 0x0` passes. -/
theorem test_step_waiting : (nextOf (step sAcquiring)).map (·.st) = some .acquiring := by decide

/-- Every operation runs as the first one after reset. -/
theorem test_place_operations :
    [(36, 0x0), (36, 0x100000000), (36, 0x200000000), (36, 0x300000000), (34, 0x100000000), (34, 0x200000000),
     (8, 0x8), (8, 0x9), (8, 0xA), (8, 0xB), (8, 0xC), (8, 0xD), (8, 0xE), (8, 0x1)].all
      (fun (e : Nat × Nat) => (nextOf (step (State.reset.withFetchWord e.1 e.2))).isSome) = true := by decide +kernel

/-- 30_encoding R106: `S: RUN` is seven turns of the sequencer; 60 R254: the write comes before the completion signal. -/
theorem test_script : run = List.replicate 7 .sequencer
    ∧ (ClockEvents.mk false (some (3, 2047)) true none true).serialise = [line (.swr 3 2047), line .cplt, .sequencer]
    ∧ (ClockEvents.mk true (some (3, 2047)) true none true).serialise = [line .reset] := by decide

/-! ## Binary32 (45_numerics R236, R237; 95 V8) -/

theorem test_f32_integers : F32.ofNat 100 = 0x42C80000 ∧ F32.ofNat 2048 = 0x45000000 ∧ F32.ofNat 0 = 0 := by decide
theorem test_f32_zero : F32.sub 0x42C80000 0x42C80000 = 0 ∧ F32.mul 0 0x3F800000 = 0 ∧ F32.mul 0xBF800000 0 = 0x80000000
    ∧ F32.gt 0 0x80000000 = false ∧ F32.gt 0x80000000 0 = false := by decide
/-- 95 V8: the ramp's imaginary part at bin 1 of `N = 8`, `9.656854629516602`, and its magnitude `10.45250415802002`. -/
theorem test_f32_ramp :
    (transform (numF32 3).toNum 3 [0xC0600000, 0xC0200000, 0xBFC00000, 0xBF000000, 0x3F000000, 0x3FC00000, 0x40200000,
      0x40600000]).im.getD 1 0 = 0x411A827A
      ∧ magnitudeOf (numF32 3).toNum 0xC0800000 0x411A827A = 0x41273D75 := by decide +kernel

/-! ## Witnesses: what the statements' hypotheses are met by -/

theorem test_inv_idle : sIdle.Inv := by
  constructor <;> first | decide | exact rfl
theorem test_inv_acquiring : sAcquiring.Inv := by
  constructor <;> first | decide | exact rfl
theorem test_inv_ready : sReady.Inv := by
  constructor <;> first | decide | exact rfl
theorem test_inv_dcr : sDcr.Inv := by
  constructor <;> first | decide | exact rfl
theorem test_inv_fft : sFft.Inv := by
  constructor <;> first | decide | exact rfl | exact ⟨_, rfl, rfl⟩
theorem test_inv_mag : sMag.Inv := by
  constructor <;> first | decide | exact rfl | exact ⟨_, rfl, rfl⟩
theorem test_inv_peak : sPeak.Inv := by
  constructor <;> first | decide | exact rfl | exact ⟨_, rfl, rfl⟩
theorem test_inv_pub : sPub.Inv := by
  constructor <;> first | decide | exact rfl
theorem test_inv_rearm : sRearm.Inv := by
  constructor <;> first | decide | exact rfl

/-- `ReservedCodesAreNoOperation`: the least and the greatest reserved code on either port. -/
theorem test_hyp_reserved_codes : 4 ≤ (0x4#4).toNat ∧ 4 ≤ (0xF#4).toNat
    ∧ (∀ p : Phase, phaseCode p ≠ 0x1) ∧ (∀ p : Phase, phaseCode p ≠ 0x7) ∧ ∀ p : Phase, phaseCode p ≠ 0xF := by
  refine ⟨by decide, by decide, ?_, ?_, ?_⟩ <;> intro p <;> cases p <;> decide

/-- `StepRunsTheDecodedInstruction`: a word of each port offered, and the sequencer's turn, given and by itself. -/
theorem test_hyp_step_decodes :
    decode cfg4 (offered { sIdle with script := [.command 0x13E800000#36] }) = .ok (.init 0x3E800000)
      ∧ decode cfg4 (offered { sAcquiring with script := [.event 0x100030FFF#34, .sequencer] }) = .ok (.swr 3 4095)
      ∧ decode cfg4 (offered { sDcr with script := [.resetWire 1] }) = .ok .reset
      ∧ decode cfg4 (offered { sDcr with script := [.sequencer] }) = .ok .dcr
      ∧ decode cfg4 (offered sDcr) = .ok .dcr := by decide

/-- `ReservedEventWordChangesNoState`: one word for each disjunct, the index `N` and the sample `2^SAMPLE_W` among them. -/
theorem test_hyp_reserved_event :
    (0x012345678#34 = eventWord 0 0x1234 0x5678) ∧ (0x300000000#34 = eventWord 3 0 0)
      ∧ (0x100040009#34 = eventWord 1 4 9 ∧ cfg4.n ≤ (4#16).toNat)
      ∧ (0x100021000#34 = eventWord 1 2 4096 ∧ 2 ^ cfg4.sampleW ≤ (4096#16).toNat) := by decide

/-- `SequencerTakesTheOperationOfPhase`, `OperationsAreEnabledAsSpecified`: waiting, a turn with the first code and with the
last, a turn the script gives, and an operation that is not enabled. -/
theorem test_hyp_sequencer :
    sAcquiring.script = [] ∧ sAcquiring.ph = .wait
      ∧ encode .claim = .phase (phaseCode sReady.ph) ∧ Instr.claim.agent = .seq
      ∧ encode .rearm = .phase (phaseCode sRearm.ph) ∧ Instr.rearm.agent = .seq
      ∧ ({ sRearm with script := [.sequencer] } : State).script = .sequencer :: []
      ∧ encode .rearm ≠ .phase (phaseCode sReady.ph) ∧ Instr.cplt.agent ≠ .seq := by decide

/-- `InitArmsFromIdleAndIsDroppedElsewhere`. -/
theorem test_hyp_init :
    (sIdle.st = .idle ∧ sIdle.num.binResDom (sIdle.num.decP 0x3E800000) = true)
      ∧ (sIdle.st = .idle ∧ sIdle.num.binResDom (sIdle.num.decP 0) = false) ∧ sReady.st ≠ .idle := by decide

/-- `OnlyHostCommandsRespond`, and the statements about every operation that answers a next state. -/
theorem test_hyp_exec_next : sAcquiring.resp = none ∧ (nextOf (exec .cplt sAcquiring)).isSome = true
    ∧ (nextOf (exec .rdstat sAcquiring)).isSome = true ∧ (nextOf (exec .rearm sRearm)).isSome = true := by decide

/-- `SwrWritesOneSampleOnlyWhileAcquiring`: the first and the last location, the least and the greatest sample; the gate
closed; the index `N`; the sample `2^SAMPLE_W`. -/
theorem test_hyp_swr :
    sAcquiring.st = .acquiring ∧ (0#16).toNat < cfg4.n ∧ (3#16).toNat < cfg4.n ∧ (0#16).toNat < 2 ^ cfg4.sampleW
      ∧ (4095#16).toNat < 2 ^ cfg4.sampleW ∧ sDcr.st ≠ .acquiring ∧ cfg4.n ≤ (4#16).toNat
      ∧ 2 ^ cfg4.sampleW ≤ (4096#16).toNat := by decide

/-- `CpltIsAcceptedExactlyWhileAcquiring` and the statements of `CLAIM`, `REARM`, `DCR`: the phase each starts from. -/
theorem test_hyp_controller :
    sAcquiring.st = .acquiring ∧ sIdle.st ≠ .acquiring ∧ sReady.st ≠ .acquiring ∧ sReady.ph = .claim ∧ sRearm.ph = .rearm
      ∧ sDcr.ph = .dcr := by decide

/-- `FftTransformsTheCentredSignal`, `MagComputesTheFirstHalf`, `PubPublishesTheReading`. -/
theorem test_hyp_pipeline :
    (sFft.ph = .fft ∧ sFft.cs = some [0, 0x3F800000, 0, 0xBF800000] ∧ [0, 0x3F800000, 0, (0xBF800000 : Word)].length = sFft.cfg.n)
      ∧ (sMag.ph = .mag ∧ sMag.xr = some [0, 0, 0, 0] ∧ sMag.xi = some [0, 0xC0000000, 0, 0x40000000]
        ∧ [0, 0, 0, (0 : Word)].length = sMag.cfg.n ∧ [0, 0xC0000000, 0, (0x40000000 : Word)].length = sMag.cfg.n)
      ∧ (sPub.ph = .pub ∧ sPub.kmax = some 1) := by decide

/-- `PeakFindsTheLowestMaximum`: the magnitudes, and an order on them. -/
theorem test_hyp_peak :
    sPeak.ph = .peak ∧ sPeak.mg = some [0, 0x40000000] ∧ [0, (0x40000000 : Word)].length = sPeak.cfg.bins
      ∧ StrictOrderOn sPeak.num.toNum (fun w => w ∈ [0, (0x40000000 : Word)]) (fun a b => a = b) := by
  refine ⟨by decide, by decide, by decide, ?_, ?_, ?_, ?_, ?_⟩
  · intro a ha
    simp only [List.mem_cons, List.not_mem_nil, or_false] at ha
    rcases ha with rfl | rfl <;> decide
  · intro a b c ha hb hc
    simp only [List.mem_cons, List.not_mem_nil, or_false] at ha hb hc
    rcases ha with rfl | rfl <;> rcases hb with rfl | rfl <;> rcases hc with rfl | rfl <;> decide
  · intro a b ha hb
    simp only [List.mem_cons, List.not_mem_nil, or_false] at ha hb
    rcases ha with rfl | rfl <;> rcases hb with rfl | rfl <;> decide
  · rintro a b c - - - rfl; rfl
  · rintro a b c - - - rfl; rfl

/-- `EqualMagnitudesReportBinZero`, with the two values of the silent block's `gt`. -/
theorem test_hyp_equal_magnitudes : (numF32 3).gt 0 0 = false ∧ 0 < cfg4.bins := by decide

/-- `ReadingAnAbsentTransientFaults`: one state for each clause. -/
theorem test_hyp_absent :
    (({ sFft with cs := none } : State).ph = .fft) ∧ (({ sMag with xr := none } : State).ph = .mag)
      ∧ HoldsArray sMag.cfg.n ({ sMag with xi := none } : State).xr ∧ (({ sPeak with mg := none } : State).ph = .peak)
      ∧ (({ sPub with kmax := none } : State).ph = .pub) := ⟨rfl, rfl, ⟨_, rfl, rfl⟩, rfl, rfl⟩

/-- `TwoResetsEqualOne`. -/
theorem test_hyp_two_resets : (nextOf (exec .reset sMag)).isSome = true
    ∧ ((nextOf (exec .reset sMag)).bind fun t => nextOf (exec .reset t)).isSome = true := by decide

/-- `GateMovesOnlyAtTheNamedSteps`: the gate opens at `INIT` and closes at `CPLT`. -/
theorem test_hyp_gate :
    sIdle.dmaEn = false ∧ (nextOf (exec (.init 0x3E800000) sIdle)).map (·.dmaEn) = some true
      ∧ sAcquiring.dmaEn = true ∧ (nextOf (exec .cplt sAcquiring)).map (·.dmaEn) = some false := by decide

/-- `ClosedGateKeepsTheBuffer`: a write offered in `Processing`. -/
theorem test_hyp_closed_gate :
    sFft.dmaEn = false ∧ nextInstr { sFft with script := [.event 0x100020009#34] } = some (.swr 2 9)
      ∧ (nextOf (step { sFft with script := [.event 0x100020009#34] })).isSome = true := by decide

/-- `ControlDoesNotDependOnData`: two blocks that differ in every sample. -/
theorem test_hyp_same_control : SameControl sReady { sReady with sb := [(0, 1), (1, 2), (2, 3), (3, 4)] }
    ∧ ({ sReady with sb := [(0, 1), (1, 2), (2, 3), (3, 4)] } : State).Inv := by
  refine ⟨by constructor <;> rfl, ?_⟩
  constructor <;> first | decide | exact rfl

/-- `SevenSequencerStepsPublishAndRearm`, together with `test_inv_ready`. -/
theorem test_hyp_seven_steps : sReady.ph = .claim ∧ sReady.script = [] := by decide

/-- `OneGenerationReportsItsBlock`: 95 P1 from step 4 on. -/
theorem test_hyp_one_generation :
    ({ sAcquiring with script := block [2048, 2049, 2048, 2047] ++ run } : State).Inv
      ∧ [2048, 2049, 2048, (2047 : Sample)].length = sAcquiring.cfg.n
      ∧ ∀ v ∈ [2048, 2049, 2048, (2047 : Sample)], v.toNat < 2 ^ sAcquiring.cfg.sampleW := by
  have h := test_inv_acquiring
  refine ⟨⟨h.1, h.2, h.3, h.4, h.5, h.6, h.7, h.8, h.9, h.10, h.11, h.12, h.13, h.14, h.15⟩, rfl, fun v hv => ?_⟩
  simp only [List.mem_cons, List.not_mem_nil, or_false] at hv
  rcases hv with rfl | rfl | rfl | rfl <;> decide

/-- `WellBehavedAgentDeliversOneBlock`. -/
theorem test_hyp_agent : (DmaAgent.mk 0 false false).armed = false := rfl

/-- The statements over the real numbers: a block, an input of zero sum, a sinusoid at bin 1 of `N = 8`. -/
theorem test_hyp_real :
    [2048, 2049, 2048, (2047 : Sample)].length = 2 ^ 2 ∧ ([0, 1, 0, -1] : List ℝ).length = 2 ^ 2
      ∧ ([0, 1, 0, -1] : List ℝ).sum = 0 := by norm_num

theorem test_hyp_real_sinusoid :
    ((List.range 8).map fun n : Nat => (1 : ℝ) * Real.cos (2 * Real.pi * (1 : ℕ) * n / 2 ^ 3 + 0)).length = 2 ^ 3
      ∧ ∀ n : Nat, n < 2 ^ 3 → ((List.range 8).map fun n : Nat => (1 : ℝ) * Real.cos (2 * Real.pi * (1 : ℕ) * n / 2 ^ 3 + 0))[n]?
          = some ((1 : ℝ) * Real.cos (2 * Real.pi * (1 : ℕ) * n / 2 ^ 3 + 0)) := by
  refine ⟨by simp, fun n hn => ?_⟩
  rw [List.getElem?_map, List.getElem?_range (by simpa using hn)]
  rfl

/-- The statements over binary32: finite operands, results below the overflow bound and above it, a divisor that is not zero,
periods inside `binResDom` and outside it, the sizes of an exact constant block. -/
theorem test_hyp_f32 :
    F32.isFinite 0x7F7FFFFF = true ∧ F32.isFinite 0x00000001 = true
      ∧ F32.add 0x7F7FFFFF 0x7F7FFFFF = F32.inf false ∧ F32.sub 0xFF7FFFFF 0x7F7FFFFF = F32.inf true
      ∧ F32.mul 0x7F7FFFFF 0xC0000000 = F32.inf true ∧ F32.div 0x40800000 0xC0000000 = 0xC0000000
      ∧ F32.units 0xC0000000 ≠ 0 ∧ F32.div 0x3F800000 0x40400000 = 0x3EAAAAAB
      ∧ (numF32 2).binResDom 0x3E800000 = true ∧ (numF32 2).binResDom 0x00000001 = false
      ∧ (numF32 2).binResDom 0x7F7FFFFF = false
      ∧ F32.isPositive 0x3F800000 = true ∧ cfg4.logN + cfg4.sampleW ≤ 24 ∧ (4095#16).toNat < 2 ^ cfg4.sampleW := by
  decide +kernel

theorem test_hyp_f32_sqrt : F32.isFinite 0x80000000 = true ∧ 0 ≤ F32.val 0x80000000 := by
  have h : F32.units 0x80000000 = 0 := by decide
  exact ⟨by decide, by rw [F32.val, h]; simp⟩

/-- `OneGenerationOverAnyNumReportsItsBlock`: the block of 95 P1 over `NUM_F32`, and a positive period over `NUM_REAL`. -/
theorem test_hyp_any_num :
    [2048, 2049, 2048, (2047 : Sample)].length = (Config.built cfg4).n
      ∧ (∀ v ∈ [2048, 2049, 2048, (2047 : Sample)], v.toNat < 2 ^ (Config.built cfg4).sampleW)
      ∧ (Config.built cfg4).num.binResDom ((Config.built cfg4).num.decP 0x3E800000) = true ∧ (0 : ℝ) < 1 / 4 := by
  refine ⟨rfl, fun v hv => ?_, by decide, by norm_num⟩
  simp only [List.mem_cons, List.not_mem_nil, or_false] at hv
  rcases hv with rfl | rfl | rfl | rfl <;> decide

/-! ## The machine over `NUM_REAL` (30_encoding R95, 45_numerics R233) -/

/-- 44 R201's example over the real numbers: `p = 0.25` at `N = 4` gives `BINRES = 1`, the period passed as itself. -/
theorem test_real_init (u : Unspecified ℝ ℝ) :
    (initOver (realBlock cfg4.toSize u) (1 / 4) (resetBlock (realBlock cfg4.toSize u) 0)).binres = 1
      ∧ (initOver (realBlock cfg4.toSize u) (1 / 4) (resetBlock (realBlock cfg4.toSize u) 0)).period = 1 / 4 := by
  rw [initOver_idle rfl]
  norm_num [resolutionOf, realBlock, numRealPort, numReal, periodOperand, cfg4]

/-- 44 R203 over the real numbers: the response is the Reading itself. -/
theorem test_real_rdfreq (u : Unspecified ℝ ℝ) (x : BlockState ℝ ℝ) :
    execOver (realBlock cfg4.toSize u) .rdfreq x = .next { block := x, resp := some (.reading x.reading) } := rfl

/-! ## Rest and observation (70 R293, R295) -/

/-- What is offered is no operation: at rest. A reserved command word, which is answered, is offered: not at rest. -/
theorem test_at_rest :
    ({ sAcquiring with script := [.sequencer, .event 0x012345678#34, .resetWire 0] } : State).atRest
      ∧ ¬({ sAcquiring with script := [.command 0x400000000#36] } : State).atRest ∧ ¬sDcr.atRest := by
  unfold State.atRest; decide

/-- 70 R295: one entry for the `NOP`, none for what is no step. -/
theorem test_observations :
    observations 4 { sAcquiring with script := [.sequencer, .event 0x012345678#34, .command 0x000000000#36, .resetWire 0] }
      = [{ resp := some 0, dmaEn := true }] := by decide

end Sys2Proof.Tests
end

section
/-! Which word a step takes, and when an operation is enabled (00_scope R6, R7, R12; 10_state R31; 60 R252). -/

namespace Sys2Proof.Machine

/-! ## The word of the next step -/

section offered

variable {s : State} {rest : List Input}

theorem offered_of_command {cw : CommandWord} (h : s.script = .command cw :: rest) : offered s = .command cw := by
  simp only [offered, h]

theorem offered_of_event {ew : EventWord} (h : s.script = .event ew :: rest) : offered s = .event ew := by
  simp only [offered, h]

theorem offered_of_resetWire {rst : ResetLevel} (h : s.script = .resetWire rst :: rest) :
    offered s = .resetWire rst := by
  simp only [offered, h]

theorem offered_of_sequencer (h : s.script = .sequencer :: rest) : offered s = .phase (phaseCode s.ph) := by
  simp only [offered, h]

theorem offered_of_nil (h : s.script = []) : offered s = .phase (phaseCode s.ph) := by
  simp only [offered, h]

end offered

theorem step_of_decode_ok {s : State} {i : Instr} (h : decode s.cfg (offered s) = .ok i) :
    step s = exec i (beginStep s) := by
  simp only [step, h]

/-- Settles O6: the step by the decoder's verdict, the offered word by the head of the script. -/
theorem stepRunsTheDecodedInstruction : Obligations.StepRunsTheDecodedInstruction := fun _ =>
  ⟨fun _ => step_of_decode_ok, fun _ _ => offered_of_command, fun _ _ => offered_of_event,
    fun _ _ => offered_of_resetWire, fun _ => offered_of_sequencer, offered_of_nil⟩

/-! ## Enabledness -/

theorem exec_next_of_not_seq {i : Instr} (s : State) (hi : i.agent ≠ .seq) : ∃ t, exec i s = .next t := by
  cases i with
  | nop | init | rdfreq | rdstat | swr | cplt | reset => exact ⟨_, rfl⟩
  | claim | dcr | fft | mag | peak | pub | rearm => exact absurd rfl hi

/-- Each sequencer operation is a change of the registers guarded by the one phase whose code is its encoding. -/
theorem exec_seq_guarded {i : Instr} (s : State) (hi : i.agent = .seq) :
    ∃ p m act, encode i = .phase (phaseCode p) ∧ exec i s = s.onBlock (whenEnabled p m s.toBlockState act) := by
  cases i with
  | claim => exact ⟨.claim, _, _, rfl, rfl⟩
  | dcr => exact ⟨.dcr, _, _, rfl, rfl⟩
  | fft => exact ⟨.fft, _, _, rfl, rfl⟩
  | mag => exact ⟨.mag, _, _, rfl, rfl⟩
  | peak => exact ⟨.peak, _, _, rfl, rfl⟩
  | pub => exact ⟨.pub, _, _, rfl, rfl⟩
  | rearm => exact ⟨.rearm, _, _, rfl, rfl⟩
  | nop | init | rdfreq | rdstat | swr | cplt | reset => cases hi

theorem exec_seq_refused_of_ne {i : Instr} {s : State} (hi : i.agent = .seq)
    (hne : encode i ≠ .phase (phaseCode s.ph)) : ∃ m, exec i s = .refused (.notEnabled m) := by
  obtain ⟨p, m, act, hcode, hexec⟩ := exec_seq_guarded s hi
  have hp : s.ph ≠ p := fun h => hne (h ▸ hcode)
  exact ⟨m, by rw [hexec, whenEnabled_of_ne m act hp]; rfl⟩

/-- The word of a phase determines the phase. -/
theorem phase_eq_of_word_eq {p q : Phase} (h : PortWord.phase (phaseCode p) = .phase (phaseCode q)) : q = p :=
  (phaseCode_injective (PortWord.phase.inj h)).symm

/-! ### What the phase's operation reads holds a value (10_state R43) -/

section live

variable {s : State} (hs : s.Inv)
include hs

theorem State.Inv.cs_at_fft (h : s.ph = .fft) : HoldsArray s.cfg.n s.cs := by
  simpa only [if_pos h] using hs.cs_live

theorem State.Inv.xr_at_mag (h : s.ph = .mag) : HoldsArray s.cfg.n s.xr := by
  simpa only [if_pos h] using hs.xr_live

theorem State.Inv.xi_at_mag (h : s.ph = .mag) : HoldsArray s.cfg.n s.xi := by
  simpa only [if_pos h] using hs.xi_live

theorem State.Inv.mg_at_peak (h : s.ph = .peak) : HoldsArray s.cfg.bins s.mg := by
  simpa only [if_pos h] using hs.mg_live

theorem State.Inv.kmax_at_pub (h : s.ph = .pub) : ∃ k, s.kmax = some k ∧ k < s.cfg.bins := by
  simpa only [if_pos h] using hs.kmax_live

end live

/-- The operation whose code `PH` holds completes in every state the block can be in: what it reads is live at its phase. -/
theorem exec_seq_next_of_inv {i : Instr} {s : State} (hi : i.agent = .seq)
    (hcode : encode i = .phase (phaseCode s.ph)) (hs : s.Inv) : ∃ t, exec i s = .next t := by
  cases i with
  | claim => exact ⟨_, exec_claim.2 ⟨phase_eq_of_word_eq hcode, rfl⟩⟩
  | dcr => exact ⟨_, exec_dcr.2 ⟨phase_eq_of_word_eq hcode, rfl⟩⟩
  | fft =>
    have hp : s.ph = .fft := phase_eq_of_word_eq hcode
    obtain ⟨cs, hcs, hlen⟩ := hs.cs_at_fft hp
    exact ⟨_, exec_fft.2 ⟨hp, cs, hcs, hlen, rfl⟩⟩
  | mag =>
    have hp : s.ph = .mag := phase_eq_of_word_eq hcode
    obtain ⟨xr, hxr, hrlen⟩ := hs.xr_at_mag hp
    obtain ⟨xi, hxi, hilen⟩ := hs.xi_at_mag hp
    exact ⟨_, exec_mag.2 ⟨hp, xr, hxr, hrlen, xi, hxi, hilen, rfl⟩⟩
  | peak =>
    have hp : s.ph = .peak := phase_eq_of_word_eq hcode
    obtain ⟨mg, hmg, hlen⟩ := hs.mg_at_peak hp
    exact ⟨_, exec_peak.2 ⟨hp, mg, hmg, hlen, rfl⟩⟩
  | pub =>
    have hp : s.ph = .pub := phase_eq_of_word_eq hcode
    obtain ⟨k, hk, -⟩ := hs.kmax_at_pub hp
    exact ⟨_, exec_pub.2 ⟨hp, k, hk, rfl⟩⟩
  | rearm => exact ⟨_, exec_rearm.2 ⟨phase_eq_of_word_eq hcode, rfl⟩⟩
  | nop | init | rdfreq | rdstat | swr | cplt | reset => cases hi

/-- Settles O9, from the guard every sequencer operation has and the live ranges of the invariant. -/
theorem operationsAreEnabledAsSpecified : Obligations.OperationsAreEnabledAsSpecified := fun _ s =>
  ⟨exec_next_of_not_seq s, exec_seq_refused_of_ne, exec_seq_next_of_inv⟩

end Sys2Proof.Machine
end

section
/-! What one operation that completes can leave, said once, and the frames read off it: the phase, the configuration
registers, the Reading, the buffer (10_state R32, R34, R37 to R39, R44). -/

namespace Sys2Proof.Machine

/-- The outcomes of an operation: `Completes s i t` when `i`, executed in `s`, can leave `t`. One constructor per outcome, an
accepted and a dropped one where the operation has both. -/
inductive Completes (s : State) : Instr → State → Prop where
  | nop : Completes s .nop (respond .null s)
  | initAccepted (arg : Word) (hst : s.st = .idle) :
      Completes s (.init arg)
        (respond .null (s.withBlock (initialise s.built (periodOperand s.built arg) s.toBlockState)))
  | initDropped (arg : Word) (hst : s.st ≠ .idle) : Completes s (.init arg) (respond .null s)
  | rdfreq : Completes s .rdfreq (respond (readingResponse s.built s.toBlockState) s)
  | rdstat : Completes s .rdstat (respond (statusResponse s.toBlockState) s)
  | swrWritten (idx : IndexField) (data : Sample) (hst : s.st = .acquiring)
      (hok : sampleOperandsOk s.cfg.toSize idx data = true) :
      Completes s (.swr idx data) (s.withBlock (memWrite (indexOperand idx) data s.toBlockState))
  | swrDropped (idx : IndexField) (data : Sample)
      (hno : ¬(s.st = .acquiring ∧ sampleOperandsOk s.cfg.toSize idx data = true)) : Completes s (.swr idx data) s
  | cpltAccepted (hst : s.st = .acquiring) : Completes s .cplt (s.withBlock (acceptCompletion s.toBlockState))
  | cpltDropped (hst : s.st ≠ .acquiring) : Completes s .cplt s
  | claim (hph : s.ph = .claim) : Completes s .claim { s with st := .processing, ph := .dcr }
  | dcr (hph : s.ph = .dcr) :
      Completes s .dcr { s with
        mean := some (blockMean s.num.toNum (samples s)), cs := some (centred s.num.toNum (samples s)), ph := .fft }
  | fft (hph : s.ph = .fft) (cs : List Word) (hcs : s.cs = some cs) (hlen : cs.length = s.cfg.n) :
      Completes s .fft { s with
        xr := some (transform s.num.toNum s.cfg.logN cs).re, xi := some (transform s.num.toNum s.cfg.logN cs).im
        cs := none, ph := .mag }
  | mag (hph : s.ph = .mag) (xr xi : List Word) (hxr : s.xr = some xr) (hrlen : xr.length = s.cfg.n)
      (hxi : s.xi = some xi) (hilen : xi.length = s.cfg.n) :
      Completes s .mag { s with
        mg := some (magnitudes s.num.toNum s.cfg.bins xr xi), xr := none, xi := none, ph := .peak }
  | peak (hph : s.ph = .peak) (mg : List Word) (hmg : s.mg = some mg) (hlen : mg.length = s.cfg.bins) :
      Completes s .peak { s with
        kmax := some (peakScan s.num.toNum mg).1, maxm := some (peakScan s.num.toNum mg).2, mg := none, ph := .pub }
  | pub (hph : s.ph = .pub) (k : Nat) (hk : s.kmax = some k) :
      Completes s .pub { s with
        reading := readingOf s.num.toNum k s.binres, rv := true, kmax := none, maxm := none, ph := .rearm }
  | rearm (hph : s.ph = .rearm) : Completes s .rearm (s.withBlock (returnToAcquiring s.toBlockState))
  | reset : Completes s .reset (s.withBlock (resetBlock s.built (s.epoch + 1)))

theorem completes_of_exec {i : Instr} {s t : State} (h : exec i s = .next t) : Completes s i t := by
  cases i with
  | nop => obtain rfl := exec_nop.1 h; exact .nop
  | init arg =>
    obtain ⟨hst, rfl⟩ | ⟨hst, rfl⟩ := exec_init.1 h
    · exact .initAccepted arg hst
    · exact .initDropped arg hst
  | rdfreq => obtain rfl := exec_rdfreq.1 h; exact .rdfreq
  | rdstat => obtain rfl := exec_rdstat.1 h; exact .rdstat
  | swr idx data =>
    obtain ⟨hst, hok, rfl⟩ | ⟨hno, rfl⟩ := exec_swr.1 h
    · exact .swrWritten idx data hst hok
    · exact .swrDropped idx data hno
  | cplt =>
    obtain ⟨hst, rfl⟩ | ⟨hst, rfl⟩ := exec_cplt.1 h
    · exact .cpltAccepted hst
    · exact .cpltDropped hst
  | claim => obtain ⟨hph, rfl⟩ := exec_claim.1 h; exact .claim hph
  | dcr => obtain ⟨hph, rfl⟩ := exec_dcr.1 h; exact .dcr hph
  | fft => obtain ⟨hph, cs, hcs, hlen, rfl⟩ := exec_fft.1 h; exact .fft hph cs hcs hlen
  | mag =>
    obtain ⟨hph, xr, hxr, hrlen, xi, hxi, hilen, rfl⟩ := exec_mag.1 h
    exact .mag hph xr xi hxr hrlen hxi hilen
  | peak => obtain ⟨hph, mg, hmg, hlen, rfl⟩ := exec_peak.1 h; exact .peak hph mg hmg hlen
  | pub => obtain ⟨hph, k, hk, rfl⟩ := exec_pub.1 h; exact .pub hph k hk
  | rearm => obtain ⟨hph, rfl⟩ := exec_rearm.1 h; exact .rearm hph
  | reset => obtain rfl := exec_reset.1 h; exact .reset

/-! ## What the operations move and keep -/

theorem Completes.ph_eq {s t : State} {i : Instr} (h : Completes s i t) : t.ph = nextPhase s.st s.ph i := by
  cases h with
  | cpltAccepted hst => exact (if_pos hst).symm
  | cpltDropped hst => exact (if_neg hst).symm
  | _ => rfl

theorem encode_eq_of_exec_seq {i : Instr} {s t : State} (h : exec i s = .next t) (hi : i.agent = .seq) :
    encode i = .phase (phaseCode s.ph) := by
  by_contra hne
  obtain ⟨m, hm⟩ := exec_seq_refused_of_ne hi hne
  rw [h] at hm
  cases hm

/-- Settles O32: the phase by the outcome, the code found there by the guard of the sequencer operations, and `Acquiring`
only at rest by the invariant. -/
theorem phaseMovesAreTheListedOnes : Obligations.PhaseMovesAreTheListedOnes := fun _ _ _ h =>
  ⟨(completes_of_exec h).ph_eq, encode_eq_of_exec_seq h, fun hs _ => hs.acquiring_waits⟩

/-- Settles O34: of the outcomes only an accepted `INIT` and `RESET` write `PERIOD` or `BINRES`. -/
theorem configurationRegistersAreImmutable : Obligations.ConfigurationRegistersAreImmutable := by
  intro i s t h
  cases completes_of_exec h with
  | initAccepted arg hst =>
    exact ⟨rfl, fun _ hkept => hkept.elim (absurd hst) fun hne => absurd rfl (hne arg)⟩
  | reset => exact ⟨rfl, fun hne => absurd rfl hne⟩
  | _ => exact ⟨rfl, fun _ _ => ⟨rfl, rfl⟩⟩

/-- Settles O35: of the outcomes only those of `PUB` and `RESET` write `READING` or `RV`. -/
theorem readingPersistsUntilPublished : Obligations.ReadingPersistsUntilPublished := by
  intro i s t h hpub hreset
  cases completes_of_exec h with
  | pub => exact absurd rfl hpub
  | reset => exact absurd rfl hreset
  | _ => exact ⟨rfl, rfl⟩

/-- Settles O36: every other outcome keeps the memory and the count of resets, which are what a location reads from. -/
theorem otherOperationsLeaveTheBufferAlone : Obligations.OtherOperationsLeaveTheBufferAlone := by
  intro i s t h hswr hreset j
  cases completes_of_exec h with
  | swrWritten idx data => exact absurd rfl (hswr idx data)
  | reset => exact absurd rfl hreset
  | _ => exact readOver_congr _ rfl rfl j

end Sys2Proof.Machine
end

section
/-! The sequencer's turn (00_scope R12, 10_state R31), and what a sequencer operation does where the register it reads
holds no value (10_state R43, 93 U6). -/

namespace Sys2Proof.Machine

/-! ## The sequencer's turn -/

theorem step_of_decode_error {s : State} {r : Reject} (h : decode s.cfg (offered s) = .error r) :
    step s = .next (noOperation r (beginStep s)) := by
  simp only [step, h]

theorem offered_of_turn {s : State} (h : s.script = [] ∨ ∃ rest, s.script = .sequencer :: rest) :
    offered s = .phase (phaseCode s.ph) := by
  obtain h | ⟨rest, h⟩ := h
  · exact offered_of_nil h
  · exact offered_of_sequencer h

theorem decode_encode_seq (c : Config) {i : Instr} (hi : i.agent = .seq) : decode c (encode i) = .ok i := by
  cases i with
  | claim | dcr | fft | mag | peak | pub | rearm => rfl
  | nop | init | rdfreq | rdstat | swr | cplt | reset => cases hi

/-- Settles O8: the turn offers the code in `PH`, which decodes to its operation, and to none where it is `0x0`. -/
theorem sequencerTakesTheOperationOfPhase : Obligations.SequencerTakesTheOperationOfPhase := by
  intro s hturn
  have hoff : offered s = .phase (phaseCode s.ph) := offered_of_turn hturn
  constructor
  · intro hph
    have hdecode : decode s.cfg (offered s) = .error .waiting := by rw [hoff, hph]; rfl
    exact step_of_decode_error hdecode
  · intro i hi hcode
    have hdecode : decode s.cfg (offered s) = .ok i := by rw [hoff, ← hcode, decode_encode_seq _ hi]
    exact step_of_decode_ok hdecode

/-! ### A sequencer operation is taken only at its phase -/

theorem agent_of_decodeCommand {cw : CommandWord} {i : Instr} (h : decodeCommand cw = .ok i) : i.agent = .host := by
  unfold decodeCommand at h
  split at h <;> cases h <;> rfl

theorem agent_of_decodeSampleWrite {c : Config} {ew : EventWord} {i : Instr} (h : decodeSampleWrite c ew = .ok i) :
    i.agent = .dma := by
  unfold decodeSampleWrite at h
  split_ifs at h
  cases h
  rfl

theorem agent_of_decodeEvent {c : Config} {ew : EventWord} {i : Instr} (h : decodeEvent c ew = .ok i) :
    i.agent = .dma := by
  unfold decodeEvent at h
  split at h
  · cases h
  · exact agent_of_decodeSampleWrite h
  · cases h; rfl
  · cases h

theorem agent_of_decodeReset {rst : ResetLevel} {i : Instr} (h : decodeReset rst = .ok i) : i.agent = .host := by
  unfold decodeReset at h
  split_ifs at h
  cases h
  rfl

theorem encode_eq_of_decode_phaseCode {p : Phase} {i : Instr} (h : decodePhase (phaseCode p) = .ok i) :
    encode i = .phase (phaseCode p) := by
  cases p <;> cases h <;> rfl

/-- Only the sequencer's turn offers a sequencer operation, so the one a step takes is the one whose code `PH` holds. -/
theorem encode_eq_of_offered {s : State} {i : Instr} (h : decode s.cfg (offered s) = .ok i) (hi : i.agent = .seq) :
    encode i = .phase (phaseCode s.ph) := by
  cases hscript : s.script with
  | nil => rw [offered_of_nil hscript] at h; exact encode_eq_of_decode_phaseCode h
  | cons entry rest =>
    cases entry with
    | command cw => rw [offered_of_command hscript] at h; cases (agent_of_decodeCommand h).symm.trans hi
    | event ew => rw [offered_of_event hscript] at h; cases (agent_of_decodeEvent h).symm.trans hi
    | resetWire rst => rw [offered_of_resetWire hscript] at h; cases (agent_of_decodeReset h).symm.trans hi
    | sequencer => rw [offered_of_sequencer hscript] at h; exact encode_eq_of_decode_phaseCode h

/-! ## Absent transient registers -/

/-- An enabled operation faults on the first register it reads that holds no value. -/
theorem onBlock_faults_of_none {s : State} {p : Phase} {m : String} {T : Type} {r : Transient} {v : Option T}
    {act : T → BlockResult Word Word} (hph : s.ph = p) (hv : v = none) :
    s.onBlock (whenEnabled p m s.toBlockState (withValue r v act)) = .fault (.noValue r) := by
  rw [whenEnabled_of_phase m _ hph, hv]
  rfl

theorem liveArray_eq_none {n : Nat} {v : Option (List Word)} (h : v = none) : liveArray n v = none := by
  rw [h, liveArray_none]

theorem exec_mag_of_xi_none {s : State} (hph : s.ph = .mag) (hxr : HoldsArray s.cfg.n s.xr) (hxi : s.xi = none) :
    exec .mag s = .fault (.noValue .xi) := by
  obtain ⟨xr, hxr, hlen⟩ := hxr
  have hlive : liveArray s.built.n s.xr = some xr := liveArray_eq_some.2 ⟨hxr, hlen⟩
  rw [exec, execMag, magOver, hlive, withValue_some]
  exact onBlock_faults_of_none hph (liveArray_eq_none hxi)

/-- Settles O26: each operation reads its register first, `MAG` reading `XI` once `XR` has given a value. -/
theorem readingAnAbsentTransientFaults : Obligations.ReadingAnAbsentTransientFaults := fun _ =>
  ⟨fun hph hcs => onBlock_faults_of_none hph (liveArray_eq_none hcs),
    fun hph hxr => onBlock_faults_of_none hph (liveArray_eq_none hxr), exec_mag_of_xi_none,
    fun hph hmg => onBlock_faults_of_none hph (liveArray_eq_none hmg), onBlock_faults_of_none⟩

end Sys2Proof.Machine
end

section
/-! The invariant of reachable states (10_state R23, R43): it holds at reset, and every operation that
completes and every step keeps it. -/

namespace Sys2Proof.Machine

/-! ## The live ranges (10_state R43) -/

/-- The lines of `State.Inv` about the transient registers, of the registers alone. -/
structure Live (c : Size) (x : BlockState Word Word) : Prop where
  mean : x.mean.isSome = x.ph.afterMean
  cs   : if x.ph = .fft then HoldsArray c.n x.cs else x.cs = none
  xr   : if x.ph = .mag then HoldsArray c.n x.xr else x.xr = none
  xi   : if x.ph = .mag then HoldsArray c.n x.xi else x.xi = none
  mg   : if x.ph = .peak then HoldsArray c.bins x.mg else x.mg = none
  kmax : if x.ph = .pub then ∃ k, x.kmax = some k ∧ k < c.bins else x.kmax = none
  maxm : x.maxm.isSome = true ↔ x.ph = .pub

theorem State.Inv.live {s : State} (hs : s.Inv) : Live s.cfg.toSize s.toBlockState :=
  ⟨hs.mean_live, hs.cs_live, hs.xr_live, hs.xi_live, hs.mg_live, hs.kmax_live, hs.maxm_live⟩

section live

variable {c : Size} {x : BlockState Word Word}

theorem Phase.ne_of_not_afterMean {p : Phase} (h : p.afterMean = false) :
    p ≠ .fft ∧ p ≠ .mag ∧ p ≠ .peak ∧ p ≠ .pub := by
  revert h
  cases p <;> decide

/-- Before `DCR` no transient register holds a value, that is, clearing them changes nothing. -/
theorem live_iff_of_quiet (h : x.ph.afterMean = false) : Live c x ↔ clearTransients x = x := by
  obtain ⟨hfft, hmag, hpeak, hpub⟩ := Phase.ne_of_not_afterMean h
  constructor
  · rintro ⟨hmean, hcs, hxr, hxi, hmg, hkmax, hmaxm⟩
    obtain ⟨st, ph, rv, period, binres, reading, sb, mean, cs, xr, xi, mg, kmax, maxm, gen, epoch⟩ := x
    simp_all [clearTransients]
  · intro hx
    rw [← hx]
    constructor <;> simp [h, hfft, hmag, hpeak, hpub]

theorem Live.dcr (h : Live c x) (hph : x.ph = .dcr) {m : Word} {cs : List Word} (hlen : cs.length = c.n) :
    Live c { x with mean := some m, cs := some cs, ph := .fft } := by
  obtain ⟨-, -, hxr, hxi, hmg, hkmax, hmaxm⟩ := h
  constructor <;> simp_all [HoldsArray, Phase.afterMean]

theorem Live.fft (h : Live c x) (hph : x.ph = .fft) {y : Spectrum Word} (hlen : y.HasLength c.n) :
    Live c { x with xr := some y.re, xi := some y.im, cs := none, ph := .mag } := by
  obtain ⟨hmean, -, -, -, hmg, hkmax, hmaxm⟩ := h
  obtain ⟨hre, him⟩ := hlen
  constructor <;> simp_all [HoldsArray, Phase.afterMean]

theorem Live.mag (h : Live c x) (hph : x.ph = .mag) {mg : List Word} (hlen : mg.length = c.bins) :
    Live c { x with mg := some mg, xr := none, xi := none, ph := .peak } := by
  obtain ⟨hmean, hcs, -, -, -, hkmax, hmaxm⟩ := h
  constructor <;> simp_all [HoldsArray, Phase.afterMean]

theorem Live.peak (h : Live c x) (hph : x.ph = .peak) {k : Nat} (hk : k < c.bins) {m : Word} :
    Live c { x with kmax := some k, maxm := some m, mg := none, ph := .pub } := by
  obtain ⟨hmean, hcs, hxr, hxi, -, -, -⟩ := h
  constructor <;> simp_all [Phase.afterMean]

theorem Live.pub (h : Live c x) (hph : x.ph = .pub) {r : Word} {v : Bool} :
    Live c { x with reading := r, rv := v, kmax := none, maxm := none, ph := .rearm } := by
  obtain ⟨hmean, hcs, hxr, hxi, hmg, -, -⟩ := h
  constructor <;> simp_all [Phase.afterMean]

end live

theorem State.Inv.cleared {s : State} (hs : s.Inv) (h : s.ph.afterMean = false) :
    clearTransients s.toBlockState = s.toBlockState := (live_iff_of_quiet h).1 hs.live

/-! ## The lines of R23 -/

/-- The controller states a phase goes with (10_state R23). -/
def Phase.fits : Phase → CtrlState → Bool
  | .wait, st => st == .idle || st == .acquiring
  | .claim, st => st == .ready
  | .dcr, st => st == .processing
  | .fft, st => st == .processing
  | .mag, st => st == .processing
  | .peak, st => st == .processing
  | .pub, st => st == .processing
  | .rearm, st => st == .processing

theorem Phase.fits_iff (p : Phase) (st : CtrlState) :
    p.fits st = true ↔
      (st = .idle → p = .wait) ∧ (st = .acquiring → p = .wait) ∧ (st = .ready ↔ p = .claim)
        ∧ (st = .processing ↔ p.inPipeline = true) := by
  cases p <;> cases st <;> decide

/-- The invariant with the lines on `ST` and `PH` as one, and those on the transient registers as one. -/
theorem inv_iff {s : State} :
    s.Inv ↔ s.ph.fits s.st = true ∧ (s.rv = false → s.reading = s.num.zero) ∧ (s.st = .idle → s.rv = false)
      ∧ (s.ph = .rearm → s.rv = true) ∧ Memory.wf s.cfg.toSize s.sb = true ∧ Live s.cfg.toSize s.toBlockState := by
  constructor
  · intro hs
    exact ⟨(Phase.fits_iff _ _).2 ⟨hs.idle_waits, hs.acquiring_waits, hs.ready_iff, hs.processing_iff⟩,
      hs.unread_is_zero, hs.idle_unread, hs.published, hs.memory, hs.live⟩
  · rintro ⟨hfits, hread, hidle, hpub, hmem, ⟨hmean, hcs, hxr, hxi, hmg, hkmax, hmaxm⟩⟩
    obtain ⟨hwait, hwait', hready, hproc⟩ := (Phase.fits_iff _ _).1 hfits
    exact ⟨hwait, hwait', hready, hproc, hread, hidle, hpub, hmem, hmean, hcs, hxr, hxi, hmg, hkmax, hmaxm⟩

theorem status_of {s : State} {p : Phase} {st : CtrlState} {rv : Bool} (hph : s.ph = p) (hst : s.st = st)
    (hrv : s.rv = rv) :
    status s = (((phaseCode p ++ 0#1) ++ BitVec.ofBool rv) ++ ctrlCode st).setWidth 32 := by
  rw [status, statusOver, hph, hst, hrv]

/-- Settles O14: the phase determines `ST`, but for the two states that wait, and `RV` is fixed in `Idle` and at `REARM`. -/
theorem statusTakesSixteenValues : Obligations.StatusTakesSixteenValues := by
  intro s hs
  cases hph : s.ph with
  | wait =>
    have hst : s.st = .idle ∨ s.st = .acquiring := by simpa [hph, Phase.fits] using (inv_iff.1 hs).1
    obtain hst | hst := hst
    · rw [status_of hph hst (hs.idle_unread hst)]; decide
    · rw [status_of hph hst rfl]; cases s.rv <;> decide
  | claim =>
    rw [status_of hph (hs.ready_iff.2 hph) rfl]
    cases s.rv <;> decide
  | dcr | fft | mag | peak | pub =>
    have hst : s.st = .processing := hs.processing_iff.2 (by rw [hph]; rfl)
    rw [status_of hph hst rfl]
    cases s.rv <;> decide
  | rearm =>
    have hst : s.st = .processing := hs.processing_iff.2 (by rw [hph]; rfl)
    rw [status_of hph hst (hs.published hph)]
    decide

/-! ## Every operation keeps the invariant -/

section preservation

variable {s : State} (hs : s.Inv)
include hs

/-- The script and the response are no part of the invariant. -/
theorem State.Inv.congr {t : State} (hx : t.toBlockState = s.toBlockState) (hc : t.cfg = s.cfg) : t.Inv := by
  obtain ⟨x, c, resp, script⟩ := s
  obtain ⟨x', c', resp', script'⟩ := t
  cases hx
  cases hc
  exact { hs with }

/-- From one phase of the pipeline to another `ST` stays as it is. -/
theorem State.Inv.fits_of_pipeline {p q : Phase} (hph : s.ph = p) (hp : p.inPipeline = true)
    (hq : q.inPipeline = true) : q.fits s.st = true := by
  rw [hs.processing_iff.2 (hph ▸ hp)]
  revert hq
  cases q <;> decide

theorem State.Inv.after_init (hst : s.st = .idle) (p : Word) :
    (s.withBlock (initialise s.built p s.toBlockState)).Inv := by
  have hph : s.ph = .wait := hs.idle_waits hst
  have hquiet : s.ph.afterMean = false := by rw [hph]; rfl
  refine inv_iff.2 ⟨?_, hs.unread_is_zero, nofun, hs.published, hs.memory, ?_⟩
  · simp [hph, Phase.fits]
  · exact (live_iff_of_quiet (x := initialise s.built p s.toBlockState) hquiet).2
      (congrArg (initialise s.built p) (hs.cleared hquiet))

theorem State.Inv.after_swr {idx : IndexField} {data : Sample}
    (hok : sampleOperandsOk s.cfg.toSize idx data = true) :
    (s.withBlock (memWrite (indexOperand idx) data s.toBlockState)).Inv := by
  simp only [sampleOperandsOk, indexOk, dataOk, Bool.and_eq_true, decide_eq_true_eq] at hok
  exact { hs with memory := store_wf hs.memory hok.1 hok.2 }

theorem State.Inv.after_cplt (hst : s.st = .acquiring) :
    (s.withBlock (acceptCompletion s.toBlockState)).Inv := by
  have hquiet : s.ph.afterMean = false := by rw [hs.acquiring_waits hst]; rfl
  exact inv_iff.2 ⟨rfl, hs.unread_is_zero, nofun, nofun, hs.memory,
    (live_iff_of_quiet rfl).2 (congrArg acceptCompletion (hs.cleared hquiet))⟩

theorem State.Inv.after_claim (hph : s.ph = .claim) : State.Inv { s with st := .processing, ph := .dcr } := by
  have hquiet : s.ph.afterMean = false := by rw [hph]; rfl
  exact inv_iff.2 ⟨rfl, hs.unread_is_zero, nofun, nofun, hs.memory, (live_iff_of_quiet rfl).2
    (congrArg (fun x => { x with st := .processing, ph := .dcr }) (hs.cleared hquiet))⟩

theorem State.Inv.after_rearm : (s.withBlock (returnToAcquiring s.toBlockState)).Inv :=
  inv_iff.2 ⟨rfl, hs.unread_is_zero, nofun, nofun, hs.memory, (live_iff_of_quiet rfl).2 rfl⟩

/-- An operation that writes transient registers only, and stays in the pipeline before `REARM`. -/
theorem State.Inv.after_transients {p q : Phase} (hph : s.ph = p) {mean maxm : Option Word}
    {cs xr xi mg : Option (List Word)} {kmax : Option Nat}
    (hlive : Live s.cfg.toSize { s.toBlockState with
      mean := mean, cs := cs, xr := xr, xi := xi, mg := mg, kmax := kmax, maxm := maxm, ph := q })
    (hp : p.inPipeline = true) (hq : q.inPipeline = true) (hne : q ≠ .rearm) :
    State.Inv { s with
      mean := mean, cs := cs, xr := xr, xi := xi, mg := mg, kmax := kmax, maxm := maxm, ph := q } :=
  inv_iff.2 ⟨hs.fits_of_pipeline hph hp hq, hs.unread_is_zero, hs.idle_unread, fun h => absurd h hne, hs.memory, hlive⟩

end preservation

/-- A reset establishes the invariant, whatever came before. -/
theorem resetBlock_inv (s : State) (epoch : Nat) : (s.withBlock (resetBlock s.built epoch)).Inv :=
  inv_iff.2 ⟨rfl, fun _ => rfl, fun _ => rfl, nofun, wf_nil _, (live_iff_of_quiet rfl).2 rfl⟩

/-- Settles O29: the model's reset state is the state after the reset of number 0. -/
theorem resetStateSatisfiesTheInvariant : Obligations.ResetStateSatisfiesTheInvariant :=
  resetBlock_inv State.reset 0

/-- Every outcome of an operation keeps the invariant. -/
theorem Completes.inv {i : Instr} {s t : State} (h : Completes s i t) (hs : s.Inv) : t.Inv := by
  cases h with
  | nop | rdfreq | rdstat | initDropped => exact hs.congr rfl rfl
  | initAccepted arg hst => exact (hs.after_init hst _).congr rfl rfl
  | swrWritten idx data _ hok => exact hs.after_swr hok
  | cpltAccepted hst => exact hs.after_cplt hst
  | swrDropped | cpltDropped => exact hs
  | claim hph => exact hs.after_claim hph
  | dcr hph => exact hs.after_transients hph (hs.live.dcr hph (by simp)) rfl rfl nofun
  | fft hph cs => exact hs.after_transients hph (hs.live.fft hph (transform_hasLength _ _ cs)) rfl rfl nofun
  | mag hph xr xi => exact hs.after_transients hph (hs.live.mag hph (magnitudes_length _ _ xr xi)) rfl rfl nofun
  | peak hph mg _ hlen =>
    have hk : (peakScan s.num.toNum mg).1 < s.cfg.bins := hlen ▸ peakScan_index_lt _ (hlen ▸ s.cfg.bins_pos)
    exact hs.after_transients hph (hs.live.peak hph hk) rfl rfl nofun
  | pub hph =>
    have hbusy : s.st ≠ .idle := fun h => by cases (hs.idle_waits h).symm.trans hph
    exact inv_iff.2 ⟨hs.fits_of_pipeline hph rfl rfl, nofun, fun h => absurd h hbusy, fun _ => rfl, hs.memory,
      hs.live.pub hph⟩
  | rearm => exact hs.after_rearm
  | reset => exact resetBlock_inv s _

/-! ## Every step -/

theorem noOperation_toBlockState (r : Reject) (s : State) : (noOperation r s).toBlockState = s.toBlockState := by
  cases r <;> rfl

theorem noOperation_cfg (r : Reject) (s : State) : (noOperation r s).cfg = s.cfg := by cases r <;> rfl

/-- Settles O30: a word that is no operation leaves the registers as they are, and an operation that is taken is enabled,
so it completes and keeps the invariant. -/
theorem everyStepCompletesAndKeepsTheInvariant : Obligations.EveryStepCompletesAndKeepsTheInvariant := by
  intro s hs
  have hb : (beginStep s).Inv := hs.congr rfl rfl
  cases hd : decode s.cfg (offered s) with
  | error r =>
    exact ⟨_, step_of_decode_error hd, hb.congr (noOperation_toBlockState r _) (noOperation_cfg r _)⟩
  | ok i =>
    have hnext : ∃ t, exec i (beginStep s) = .next t := by
      by_cases hi : i.agent = .seq
      · exact exec_seq_next_of_inv hi (encode_eq_of_offered (s := s) hd hi) hb
      · exact exec_next_of_not_seq _ hi
    obtain ⟨t, ht⟩ := hnext
    exact ⟨t, (step_of_decode_ok hd).trans ht, (completes_of_exec ht).inv hb⟩

end Sys2Proof.Machine
end

section
/-! The buffer behind the closed gate (20_memory R66, R68; 40 R131). -/

namespace Sys2Proof.Machine

theorem dmaEn_eq_false_iff {R P : Type} {x : BlockState R P} : x.dmaEn = false ↔ x.st ≠ .acquiring :=
  beq_eq_false_iff_ne

theorem samples_congr {s t : State} (hc : t.cfg = s.cfg) (hx : t.toBlockState = s.toBlockState) :
    samples t = samples s := by
  simp only [samples, State.built, hc, hx]

/-- Outside `Acquiring` only a reset changes the block: every other outcome keeps the memory and the count of resets, a
write among them, which is dropped. -/
theorem Completes.samples_eq {i : Instr} {s t : State} (h : Completes s i t) (hst : s.st ≠ .acquiring)
    (hreset : i ≠ .reset) : samples t = samples s := by
  cases h with
  | swrWritten _ _ hacq => exact absurd hacq hst
  | reset => exact absurd rfl hreset
  | _ => exact samplesOver_congr _ rfl rfl

theorem nextInstr_of_decode_ok {s : State} {i : Instr} (h : decode s.cfg (offered s) = .ok i) :
    nextInstr s = some i := by
  rw [nextInstr, h, Except.toOption]

/-- Settles O37: a word that is no operation leaves the registers as they are, and with the gate closed the block is not
`Acquiring`, where every outcome but that of `RESET` keeps the samples. -/
theorem closedGateKeepsTheBuffer : Obligations.ClosedGateKeepsTheBuffer := by
  intro s t h hgate hreset
  have hbegin : samples (beginStep s) = samples s := samples_congr rfl rfl
  rw [← hbegin]
  cases hd : decode s.cfg (offered s) with
  | error r =>
    obtain rfl : noOperation r (beginStep s) = t := Host.Outcome.next.inj ((step_of_decode_error hd).symm.trans h)
    exact samples_congr (noOperation_cfg r _) (noOperation_toBlockState r _)
  | ok i =>
    have hexec : exec i (beginStep s) = .next t := (step_of_decode_ok hd).symm.trans h
    have hi : i ≠ .reset := fun hi => hreset (hi ▸ nextInstr_of_decode_ok hd)
    have hst : s.st ≠ .acquiring := dmaEn_eq_false_iff.1 hgate
    exact (completes_of_exec hexec).samples_eq hst hi

end Sys2Proof.Machine
end

section
/-! Words and operations: the fields of the two wide formats, each decoder through them, and what a word that decodes can be
(30_encoding R91 to R96, R101 to R103). -/

namespace Sys2Proof.Machine

/-! ## The fields of a word (30_encoding R91, R92) -/

@[simp] theorem commandWord_op (op : BitVec 4) (arg : Word) : (commandWord op arg).extractLsb' 32 4 = op :=
  BitVec.extractLsb'_append_eq_left

@[simp] theorem commandWord_arg (op : BitVec 4) (arg : Word) : (commandWord op arg).extractLsb' 0 32 = arg :=
  BitVec.extractLsb'_append_eq_right

theorem commandWord_of_fields (cw : CommandWord) :
    commandWord (cw.extractLsb' 32 4) (cw.extractLsb' 0 32) = cw :=
  (BitVec.extractLsb'_append_extractLsb'_eq_extractLsb' rfl).trans BitVec.extractLsb'_eq_self

@[simp] theorem eventWord_kind (kind : BitVec 2) (idx : IndexField) (data : Sample) :
    (eventWord kind idx data).extractLsb' 32 2 = kind := by
  rw [eventWord, BitVec.extractLsb'_append_eq_of_le (by decide)]
  exact BitVec.extractLsb'_append_eq_left

@[simp] theorem eventWord_idx (kind : BitVec 2) (idx : IndexField) (data : Sample) :
    (eventWord kind idx data).extractLsb' 16 16 = idx := by
  rw [eventWord, BitVec.extractLsb'_append_eq_of_le (by decide)]
  exact BitVec.extractLsb'_append_eq_right

@[simp] theorem eventWord_data (kind : BitVec 2) (idx : IndexField) (data : Sample) :
    (eventWord kind idx data).extractLsb' 0 16 = data :=
  BitVec.extractLsb'_append_eq_right

theorem eventWord_of_fields (ew : EventWord) :
    eventWord (ew.extractLsb' 32 2) (ew.extractLsb' 16 16) (ew.extractLsb' 0 16) = ew := by
  have hhigh : ew.extractLsb' 32 2 ++ ew.extractLsb' 16 16 = ew.extractLsb' 16 18 :=
    BitVec.extractLsb'_append_extractLsb'_eq_extractLsb' rfl
  rw [eventWord, hhigh]
  exact (BitVec.extractLsb'_append_extractLsb'_eq_extractLsb' rfl).trans BitVec.extractLsb'_eq_self

/-! ## The decoders, through the fields -/

theorem decodeCommand_nop (arg : Word) : decodeCommand (commandWord 0 arg) = .ok .nop := by simp [decodeCommand]

theorem decodeCommand_init (arg : Word) : decodeCommand (commandWord 1 arg) = .ok (.init arg) := by
  simp [decodeCommand]

theorem decodeCommand_rdfreq (arg : Word) : decodeCommand (commandWord 2 arg) = .ok .rdfreq := by simp [decodeCommand]

theorem decodeCommand_rdstat (arg : Word) : decodeCommand (commandWord 3 arg) = .ok .rdstat := by simp [decodeCommand]

theorem decodeCommand_reserved {op : BitVec 4} (arg : Word) (hop : 4 ≤ op.toNat) :
    decodeCommand (commandWord op arg) = .error .reservedHostOp := by
  rw [decodeCommand, commandWord_op]
  split
  · omega
  · omega
  · omega
  · omega
  · rfl

section events

variable (c : Config) (idx : IndexField) (data : Sample)

theorem decodeEvent_noEvent : decodeEvent c (eventWord 0 idx data) = .error .noEvent := by simp [decodeEvent]

/-- An `SWR` is read where its index names a location and its data fits a sample. -/
theorem decodeEvent_swr :
    decodeEvent c (eventWord 1 idx data) =
      if indexOk c.toSize idx then
        if dataOk c.toSize data then .ok (.swr idx data) else .error .dataOutOfRange
      else .error .indexOutOfRange := by
  simp [decodeEvent, decodeSampleWrite]

theorem decodeEvent_cplt : decodeEvent c (eventWord 2 idx data) = .ok .cplt := by simp [decodeEvent]

theorem decodeEvent_reservedKind : decodeEvent c (eventWord 3 idx data) = .error .reservedKind := by simp [decodeEvent]

end events

theorem phaseCode_of_phaseOfCode {code : PhaseCode} {p : Phase} (h : phaseOfCode code = some p) :
    phaseCode p = code := by
  revert code
  cases p <;> decide

theorem decodePhase_of_phaseOfCode_none {code : PhaseCode} (h : phaseOfCode code = none) :
    decodePhase code = .error .noSuchPhase := by
  revert code
  decide

/-- Settles O2: an operation's word holds the code and the operands it was built from, and those of a well-formed `SWR` are
in range. -/
theorem decodeOfEncodeIsTheInstruction : Obligations.DecodeOfEncodeIsTheInstruction := by
  intro c i hwf
  cases i with
  | nop => exact decodeCommand_nop 0
  | init arg => exact decodeCommand_init arg
  | rdfreq => exact decodeCommand_rdfreq 0
  | rdstat => exact decodeCommand_rdstat 0
  | swr idx data =>
    obtain ⟨hidx, hdata⟩ : indexOk c.toSize idx = true ∧ dataOk c.toSize data = true := by
      simpa only [Instr.wf, Bool.and_eq_true] using hwf
    exact (decodeEvent_swr c idx data).trans (by rw [if_pos hidx, if_pos hdata])
  | cplt => exact decodeEvent_cplt c 0 0
  | claim | dcr | fft | mag | peak | pub | rearm => exact decode_encode_seq c rfl
  | reset => rfl

/-! ## The words of an operation -/

theorem command_eq_of_decode {cw : CommandWord} {i : Instr} (h : decodeCommand cw = .ok i) :
    i = .nop ∨ (∃ arg, i = .init arg ∧ cw = commandWord 1 arg) ∨ i = .rdfreq ∨ i = .rdstat := by
  unfold decodeCommand at h
  split at h
  · cases h; exact .inl rfl
  · next hop =>
    cases h
    have hop : cw.extractLsb' 32 4 = 1 := BitVec.eq_of_toNat_eq hop
    exact .inr (.inl ⟨_, rfl, by rw [← hop, commandWord_of_fields]⟩)
  · cases h; exact .inr (.inr (.inl rfl))
  · cases h; exact .inr (.inr (.inr rfl))
  · cases h

theorem event_eq_of_decode {c : Config} {ew : EventWord} {i : Instr} (h : decodeEvent c ew = .ok i) :
    i = .cplt ∨ ∃ idx data, i = .swr idx data ∧ ew = eventWord 1 idx data ∧ (Instr.swr idx data).wf c = true := by
  unfold decodeEvent at h
  split at h
  · cases h
  · next hkind =>
    unfold decodeSampleWrite at h
    split_ifs at h with hidx hdata
    cases h
    have hkind : ew.extractLsb' 32 2 = 1 := BitVec.eq_of_toNat_eq hkind
    refine .inr ⟨_, _, rfl, by rw [← hkind, eventWord_of_fields], ?_⟩
    rw [Instr.wf, hidx, hdata, Bool.and_self]
  · cases h; exact .inl rfl
  · cases h

theorem encode_eq_of_decodePhase {code : PhaseCode} {i : Instr} (h : decodePhase code = .ok i) :
    encode i = .phase code := by
  cases hp : phaseOfCode code with
  | none => rw [decodePhase_of_phaseOfCode_none hp] at h; cases h
  | some p =>
    obtain rfl := phaseCode_of_phaseOfCode hp
    exact encode_eq_of_decode_phaseCode h

/-- Only an `SWR`, which the event port carries, has a constraint (30_encoding R102). -/
theorem wf_of_encode_eq_phase {i : Instr} {code : PhaseCode} (c : Config) (h : encode i = .phase code) :
    i.wf c = true := by
  cases i with
  | swr idx data => cases h
  | _ => rfl

theorem reset_of_decodeReset {rst : ResetLevel} {i : Instr} (h : decodeReset rst = .ok i) : i = .reset ∧ rst = 1 := by
  unfold decodeReset at h
  split_ifs at h with hrst
  cases h
  exact ⟨rfl, hrst⟩

/-- Settles O3, port by port: each field of a word that decodes is a code, an operand or ignored. -/
theorem decodedWordIsItsEncoding : Obligations.DecodedWordIsItsEncoding := by
  intro c p i h
  cases p with
  | command cw =>
    obtain rfl | ⟨arg, rfl, rfl⟩ | rfl | rfl := command_eq_of_decode h
    · exact ⟨rfl, fun hnop => absurd rfl hnop⟩
    · exact ⟨rfl, fun _ _ _ _ => rfl⟩
    · exact ⟨rfl, fun _ hrdfreq => absurd rfl hrdfreq⟩
    · exact ⟨rfl, fun _ _ hrdstat => absurd rfl hrdstat⟩
  | event ew =>
    obtain rfl | ⟨idx, data, rfl, rfl, hwf⟩ := event_eq_of_decode h
    · exact ⟨rfl, fun _ _ _ hcplt => absurd rfl hcplt⟩
    · exact ⟨hwf, fun _ _ _ _ => rfl⟩
  | phase code =>
    have hcode : encode i = .phase code := encode_eq_of_decodePhase h
    exact ⟨wf_of_encode_eq_phase c hcode, fun _ _ _ _ => hcode.symm⟩
  | resetWire rst =>
    obtain ⟨rfl, rfl⟩ := reset_of_decodeReset h
    exact ⟨rfl, fun _ _ _ _ => rfl⟩

/-- Settles O1: each printed word, taken apart into its code and its operands. -/
theorem specWordsDecodeAsPrinted : Obligations.SpecWordsDecodeAsPrinted :=
  ⟨decodeCommand_nop 0xDEADBEEF, decodeCommand_init 0x3E800000, decodeCommand_rdfreq 0, decodeCommand_rdstat 0,
    decodeEvent_swr Config.default 2 9, decodeEvent_cplt Config.default 0x1234 0x5678, rfl, rfl, rfl⟩

/-- Settles O4: the decoder asks these words for their code alone. -/
theorem ignoredFieldsDoNotMatter : Obligations.IgnoredFieldsDoNotMatter :=
  ⟨fun arg => ⟨decodeCommand_nop arg, decodeCommand_rdfreq arg, decodeCommand_rdstat arg⟩, decodeEvent_cplt⟩

/-- Settles O5: a code that no phase has is none of those the phase decoder lists. -/
theorem reservedCodesAreNoOperation : Obligations.ReservedCodesAreNoOperation := by
  refine ⟨fun _ => decodeCommand_reserved, fun code hcode => ?_⟩
  cases hp : phaseOfCode code with
  | none => exact decodePhase_of_phaseOfCode_none hp
  | some p => exact absurd (phaseCode_of_phaseOfCode hp) (hcode p)

end Sys2Proof.Machine
end

section
/-! What the environment sees of a word: which operations answer (30_encoding R90, R91), and what a word on the event port
that is no operation does (R92, R102). -/

namespace Sys2Proof.Machine

/-! ## Responses -/

/-- The four host commands are the host's operations but `RESET`, which has its own wire (30_encoding R90). -/
theorem Completes.resp_isSome {i : Instr} {s t : State} (h : Completes s i t) (hi : i.agent = .host ∧ i ≠ .reset) :
    t.resp.isSome = true := by
  obtain ⟨hhost, hreset⟩ := hi
  cases h with
  | nop | initAccepted | initDropped | rdfreq | rdstat => rfl
  | reset => exact absurd rfl hreset
  | _ => cases hhost

theorem Completes.resp_eq {i : Instr} {s t : State} (h : Completes s i t) (hi : ¬(i.agent = .host ∧ i ≠ .reset)) :
    t.resp = s.resp := by
  cases h with
  | nop | initAccepted | initDropped | rdfreq | rdstat => exact absurd ⟨rfl, nofun⟩ hi
  | _ => rfl

/-- Settles O15: the outcomes of the host commands present a response, and every other outcome keeps the field. -/
theorem onlyHostCommandsRespond : Obligations.OnlyHostCommandsRespond := by
  intro i s t hs h
  refine ⟨fun hresp => ?_, (completes_of_exec h).resp_isSome⟩
  by_contra hi
  rw [(completes_of_exec h).resp_eq hi, hs] at hresp
  cases hresp

/-! ## Words that are no operation -/

/-- Of the words that are no operation only a reserved host command is answered (30_encoding R101). -/
theorem noOperation_of_ne_reservedHostOp {r : Reject} (s : State) (hr : r ≠ .reservedHostOp) :
    noOperation r s = s := by
  cases r with
  | reservedHostOp => exact absurd rfl hr
  | _ => rfl

/-- The event words that R92 and R102 of 30_encoding make no operation are rejected, and not as host commands. -/
theorem decodeEvent_rejects {c : Config} {kind : BitVec 2} {idx : IndexField} {data : Sample}
    (h : kind = 0 ∨ kind = 3 ∨ (kind = 1 ∧ (c.n ≤ idx.toNat ∨ 2 ^ c.sampleW ≤ data.toNat))) :
    ∃ r, decodeEvent c (eventWord kind idx data) = .error r ∧ r ≠ .reservedHostOp := by
  obtain rfl | rfl | ⟨rfl, hrange⟩ := h
  · exact ⟨_, decodeEvent_noEvent c idx data, nofun⟩
  · exact ⟨_, decodeEvent_reservedKind c idx data, nofun⟩
  · rw [decodeEvent_swr]
    split_ifs with hidx hdata
    · simp only [indexOk, dataOk, decide_eq_true_eq] at hidx hdata
      omega
    · exact ⟨_, rfl, nofun⟩
    · exact ⟨_, rfl, nofun⟩

/-- Settles O7: the word offered is rejected, and what is left is the state with that word taken from the script. -/
theorem reservedEventWordChangesNoState : Obligations.ReservedEventWordChangesNoState := by
  intro s kind idx data rest hscript hword
  obtain ⟨r, hdecode, hr⟩ := decodeEvent_rejects hword
  have hoff : decode s.cfg (offered s) = .error r := by rw [offered_of_event hscript, decode, hdecode]
  rw [step_of_decode_error hoff, noOperation_of_ne_reservedHostOp _ hr, beginStep, hscript, List.tail_cons]

end Sys2Proof.Machine
end

section
/-! What decides the next step (40 R120, R123, R129, R131): the controller's transitions, the moves of `dma_en`, the part
of the state that a step computes from itself alone, and the count of `CLAIM`s. -/

namespace Sys2Proof.Machine

/-! ## The controller's transitions (40 R120) -/

theorem nextCtrl_init (st : CtrlState) (arg : Word) :
    nextCtrl st (.init arg) = if st = .idle then .acquiring else st := by cases st <;> rfl

theorem nextCtrl_cplt (st : CtrlState) : nextCtrl st .cplt = if st = .acquiring then .ready else st := by
  cases st <;> rfl

/-- The operations that R120 lists. -/
def movesCtrl : Instr → Bool
  | .init _ => true
  | .cplt => true
  | .claim => true
  | .rearm => true
  | .reset => true
  | _ => false

theorem nextCtrl_of_unlisted (st : CtrlState) {i : Instr} (hi : movesCtrl i = false) : nextCtrl st i = st := by
  cases i with
  | init | cplt | claim | rearm | reset => cases hi
  | _ => cases st <;> rfl

/-- `CLAIM` and `REARM` are enabled by `PH`, and it is the invariant that ties `PH` to the state the table lists. -/
theorem Completes.st_eq {i : Instr} {s t : State} (h : Completes s i t) (hs : s.Inv) : t.st = nextCtrl s.st i := by
  cases h with
  | initAccepted arg hst => exact ((nextCtrl_init s.st arg).trans (if_pos hst)).symm
  | initDropped arg hst => exact ((nextCtrl_init s.st arg).trans (if_neg hst)).symm
  | cpltAccepted hst => exact ((nextCtrl_cplt s.st).trans (if_pos hst)).symm
  | cpltDropped hst => exact ((nextCtrl_cplt s.st).trans (if_neg hst)).symm
  | claim hph => rw [hs.ready_iff.2 hph]; rfl
  | rearm hph => rw [hs.processing_iff.2 (by rw [hph]; rfl)]; rfl
  | reset => cases s.st <;> rfl
  | _ => exact (nextCtrl_of_unlisted s.st rfl).symm

/-- Settles O31, outcome by outcome. -/
theorem controllerTransitionsAreTheListedOnes : Obligations.ControllerTransitionsAreTheListedOnes :=
  fun _ _ _ hs h => (completes_of_exec h).st_eq hs

/-! ## The gate (40 R123) -/

theorem dmaEn_eq_true_iff {R P : Type} {x : BlockState R P} : x.dmaEn = true ↔ x.st = .acquiring := beq_iff_eq

/-- Of the outcomes only those of an accepted `INIT` and of `REARM` put the block in `Acquiring`. -/
theorem Completes.gate_rises {i : Instr} {s t : State} (h : Completes s i t) (hs : s.st ≠ .acquiring)
    (ht : t.st = .acquiring) : (∃ arg, i = .init arg) ∨ i = .rearm := by
  cases h with
  | initAccepted arg => exact .inl ⟨arg, rfl⟩
  | rearm => exact .inr rfl
  | cpltAccepted hst => exact absurd hst hs
  | claim | reset => cases ht
  | _ => exact absurd ht hs

/-- From `Acquiring` the table leads elsewhere by two operations only. -/
theorem nextCtrl_acquiring {i : Instr} (hcplt : i ≠ .cplt) (hreset : i ≠ .reset) :
    nextCtrl .acquiring i = .acquiring := by
  cases i with
  | cplt => exact absurd rfl hcplt
  | reset => exact absurd rfl hreset
  | _ => rfl

/-- Settles O33: the rises by the outcomes, the falls by the table of transitions. -/
theorem gateMovesOnlyAtTheNamedSteps : Obligations.GateMovesOnlyAtTheNamedSteps := by
  intro i s t h
  simp only [dmaEn_eq_false_iff, dmaEn_eq_true_iff]
  refine ⟨(completes_of_exec h).gate_rises, fun hs hst hfall => ?_⟩
  by_contra! hi
  apply hfall
  rw [(completes_of_exec h).st_eq hs, hst, nextCtrl_acquiring hi.1 hi.2]

/-! ## Control (40 R129) -/

/-- How each operation moves `RV`: `PUB` sets it and `RESET` clears it (10_state R34). -/
def nextRv (rv : Bool) : Instr → Bool
  | .pub => true
  | .reset => false
  | _ => rv

theorem Completes.rv_eq {i : Instr} {s t : State} (h : Completes s i t) : t.rv = nextRv s.rv i := by
  cases h <;> rfl

theorem Completes.cfg_eq {i : Instr} {s t : State} (h : Completes s i t) : t.cfg = s.cfg := by cases h <;> rfl

theorem Completes.script_eq {i : Instr} {s t : State} (h : Completes s i t) : t.script = s.script := by cases h <;> rfl

/-- The control part of `t` is that of `s`, moved by the operation that `s` takes next, if any. -/
structure ControlStep (s t : State) : Prop where
  cfg    : t.cfg = s.cfg
  st     : t.st = (nextInstr s).elim s.st (nextCtrl s.st)
  ph     : t.ph = (nextInstr s).elim s.ph (nextPhase s.st s.ph)
  rv     : t.rv = (nextInstr s).elim s.rv (nextRv s.rv)
  script : t.script = s.script.tail

theorem noOperation_script (r : Reject) (s : State) : (noOperation r s).script = s.script := by cases r <;> rfl

theorem nextInstr_of_decode_error {s : State} {r : Reject} (h : decode s.cfg (offered s) = .error r) :
    nextInstr s = none := by
  rw [nextInstr, h, Except.toOption]

theorem step_controlStep {s t : State} (hs : s.Inv) (h : step s = .next t) : ControlStep s t := by
  cases hd : decode s.cfg (offered s) with
  | error r =>
    obtain rfl : noOperation r (beginStep s) = t := Host.Outcome.next.inj ((step_of_decode_error hd).symm.trans h)
    have hx := noOperation_toBlockState r (beginStep s)
    have hnone := nextInstr_of_decode_error hd
    exact ⟨noOperation_cfg r _, by rw [hnone, hx]; rfl, by rw [hnone, hx]; rfl, by rw [hnone, hx]; rfl,
      noOperation_script r _⟩
  | ok i =>
    have hdone : Completes (beginStep s) i t := completes_of_exec ((step_of_decode_ok hd).symm.trans h)
    have hsome := nextInstr_of_decode_ok hd
    exact ⟨hdone.cfg_eq, by rw [hsome]; exact hdone.st_eq (hs.congr rfl rfl), by rw [hsome]; exact hdone.ph_eq,
      by rw [hsome]; exact hdone.rv_eq, hdone.script_eq⟩

section sameControl

variable {s t : State} (h : SameControl s t)
include h

theorem SameControl.offered_eq : offered s = offered t := by simp only [offered, h.script, h.ph]

theorem SameControl.nextInstr_eq : nextInstr s = nextInstr t := by
  rw [nextInstr, nextInstr, h.cfg, h.offered_eq]

theorem SameControl.controlView_eq : controlView s = controlView t := by
  rw [controlView, controlView, status_of h.ph h.st h.rv, status_of rfl rfl rfl, BlockState.dmaEn, BlockState.dmaEn,
    h.st]

/-- The simulation: equal control parts take the same operation, which moves them alike. -/
theorem SameControl.after_step {s' t' : State} (hs : ControlStep s s') (ht : ControlStep t t') :
    SameControl s' t' where
  cfg    := by rw [hs.cfg, ht.cfg, h.cfg]
  st     := by rw [hs.st, ht.st, h.nextInstr_eq, h.st]
  ph     := by rw [hs.ph, ht.ph, h.nextInstr_eq, h.st, h.ph]
  rv     := by rw [hs.rv, ht.rv, h.nextInstr_eq, h.rv]
  script := by rw [hs.script, ht.script, h.script]

end sameControl

theorem controlTrace_succ {s s' : State} (k : Nat) (h : step s = .next s') :
    controlTrace (k + 1) s = controlView s' :: controlTrace k s' := by
  rw [controlTrace, h]

/-- Settles O38 by induction on the steps: each keeps the control parts equal, and the view is read off them. -/
theorem controlDoesNotDependOnData : Obligations.ControlDoesNotDependOnData := by
  intro k
  induction k with
  | zero => exact fun _ _ _ _ _ => rfl
  | succ k ih =>
    intro s t hs ht h
    obtain ⟨s', hsstep, hs'⟩ := everyStepCompletesAndKeepsTheInvariant s hs
    obtain ⟨t', htstep, ht'⟩ := everyStepCompletesAndKeepsTheInvariant t ht
    have h' : SameControl s' t' := h.after_step (step_controlStep hs hsstep) (step_controlStep ht htstep)
    rw [controlTrace_succ k hsstep, controlTrace_succ k htstep, h'.controlView_eq, ih s' t' hs' ht' h']

/-! ## At most one `CLAIM` for each rising of `dma_en` (40 R131) -/

/-- How many `CLAIM`s can still come before `dma_en` rises again: one while a block is filled or waits to be claimed. -/
def claimBudget : CtrlState → Nat
  | .idle => 0
  | .acquiring => 1
  | .ready => 1
  | .processing => 0

/-- The moves of the table: only a rising of `dma_en` adds to the budget. -/
theorem claimBudget_nextCtrl (st : CtrlState) (i : Instr) :
    claimBudget (nextCtrl st i) ≤
      (if !(st == .acquiring) && nextCtrl st i == .acquiring then 1 else 0) + claimBudget st := by
  cases i with
  | init arg => rw [nextCtrl_init]; cases st <;> decide
  | cplt | claim | rearm | reset => cases st <;> decide
  | _ => rw [nextCtrl_of_unlisted st rfl]; exact Nat.le_add_left _ _

theorem isClaimStep_iff {s t : State} : isClaimStep s t = true ↔ nextInstr s = some .claim := beq_iff_eq

theorem st_ready_of_claim {s : State} (hs : s.Inv) (h : nextInstr s = some .claim) : s.st = .ready := by
  cases hd : decode s.cfg (offered s) with
  | error r => cases (nextInstr_of_decode_error hd).symm.trans h
  | ok i =>
    cases (nextInstr_of_decode_ok hd).symm.trans h
    exact hs.ready_iff.2 (phase_eq_of_word_eq (encode_eq_of_offered hd rfl))

/-- A step pays for its `CLAIM` from the budget. -/
theorem step_claimBudget {s t : State} (hs : s.Inv) (h : step s = .next t) :
    (if isClaimStep s t then 1 else 0) + claimBudget t.st ≤ (if isArmingStep s t then 1 else 0) + claimBudget s.st := by
  have hst : t.st = (nextInstr s).elim s.st (nextCtrl s.st) := (step_controlStep hs h).st
  by_cases hclaim : nextInstr s = some .claim
  · rw [hclaim, st_ready_of_claim hs hclaim] at hst
    rw [if_pos (isClaimStep_iff.2 hclaim), hst, st_ready_of_claim hs hclaim]
    exact Nat.le_add_left 1 _
  · rw [if_neg (mt isClaimStep_iff.1 hclaim), Nat.zero_add, isArmingStep, BlockState.dmaEn, BlockState.dmaEn, hst]
    cases nextInstr s with
    | none => exact Nat.le_add_left _ _
    | some i => exact claimBudget_nextCtrl s.st i

theorem countSteps_succ (p : State → State → Bool) {s t : State} (k : Nat) (h : step s = .next t) :
    countSteps p (k + 1) s = (if p s t then 1 else 0) + countSteps p k t := by
  rw [countSteps, h]

/-- `CLAIM`s are paid for by the budget at the start and the risings since. -/
theorem countSteps_claim_le (k : Nat) (s : State) (hs : s.Inv) :
    countSteps isClaimStep k s ≤ countSteps isArmingStep k s + claimBudget s.st := by
  induction k generalizing s with
  | zero => exact Nat.zero_le _
  | succ k ih =>
    obtain ⟨t, hstep, ht⟩ := everyStepCompletesAndKeepsTheInvariant s hs
    have hpay := step_claimBudget hs hstep
    have hrest := ih t ht
    rw [countSteps_succ _ k hstep, countSteps_succ _ k hstep]
    omega

theorem claimBudget_le_one (st : CtrlState) : claimBudget st ≤ 1 := by cases st <;> decide

/-- Settles O39: the budget at the start is at most one. -/
theorem atMostOneClaimBetweenArmings : Obligations.AtMostOneClaimBetweenArmings := fun k s hs =>
  (countSteps_claim_le k s hs).trans (Nat.add_le_add_left (claimBudget_le_one s.st) _)

end Sys2Proof.Machine
end

section
/-! The controller's operations (40 R124 to R128), what a run of them leaves when a generation is filled, completed and
claimed (40 R132, R131), and what the well-behaved agent delivers (40 R122). -/

namespace Sys2Proof.Machine

/-! ## The four operations (40 R124 to R128) -/

theorem sampleOperandsOk_iff {c : Size} {idx : IndexField} {data : Sample} :
    sampleOperandsOk c idx data = true ↔ idx.toNat < c.n ∧ data.toNat < 2 ^ c.sampleW := by
  simp [sampleOperandsOk, indexOk, dataOk]

/-- Settles O16: the write is one `MemWrite`, and a dropped one leaves the state as it was. -/
theorem swrWritesOneSampleOnlyWhileAcquiring : Obligations.SwrWritesOneSampleOnlyWhileAcquiring := by
  intro s idx data
  refine ⟨fun hst hidx hdata => ?_, fun hno => exec_swr.2 (.inr ⟨?_, rfl⟩)⟩
  · exact ⟨s.sb.store idx.toNat data, exec_swr.2 (.inl ⟨hst, sampleOperandsOk_iff.2 ⟨hidx, hdata⟩, rfl⟩),
      readOver_memWrite_same s.built s.toBlockState idx.toNat data,
      fun j hj => readOver_memWrite_other s.built s.toBlockState data hj⟩
  · rintro ⟨hst, hok⟩
    obtain ⟨hidx, hdata⟩ := sampleOperandsOk_iff.1 hok
    obtain hgate | hrange | hrange := hno
    · exact hgate hst
    · exact hrange.not_gt hidx
    · exact hrange.not_gt hdata

/-- Settles O17: once accepted the signal finds the block `Ready`, where it is dropped. -/
theorem cpltIsAcceptedExactlyWhileAcquiring : Obligations.CpltIsAcceptedExactlyWhileAcquiring := by
  refine ⟨fun s => ⟨fun hst => exec_cplt.2 (.inl ⟨hst, rfl⟩), fun hst => exec_cplt.2 (.inr ⟨hst, rfl⟩)⟩, ?_⟩
  intro s t h
  obtain ⟨-, rfl⟩ | ⟨hst, rfl⟩ := exec_cplt.1 h
  · exact exec_cplt.2 (.inr ⟨nofun, rfl⟩)
  · exact exec_cplt.2 (.inr ⟨hst, rfl⟩)

/-- Settles O18: `CLAIM` asks for its phase alone. -/
theorem claimTakesTheBuffer : Obligations.ClaimTakesTheBuffer := fun _ hph => exec_claim.2 ⟨hph, rfl⟩

/-- Settles O19: the buffer reads from the memory and the count of resets, which `REARM` keeps. -/
theorem rearmReopensTheBuffer : Obligations.RearmReopensTheBuffer := fun _ hph =>
  ⟨_, exec_rearm.2 ⟨hph, rfl⟩, rfl, rfl, readOver_congr _ rfl rfl⟩

/-! ## Runs -/

theorem run_succ {s t : State} (k : Nat) (h : step s = .next t) :
    Host.Core.run core (k + 1) s = Host.Core.run core k t := by
  have hcore : core.step s = .next t := h
  simp only [Host.Core.run, hcore]

theorem run_add {s t : State} {j : Nat} (k : Nat) (h : Host.Core.run core j s = .next t) :
    Host.Core.run core (j + k) s = Host.Core.run core k t := by
  induction j generalizing s with
  | zero => cases h; rw [Nat.zero_add]
  | succ j ih =>
    rw [Nat.succ_add]
    simp only [Host.Core.run] at h ⊢
    cases hs : core.step s with
    | next s' => rw [hs] at h; exact ih h
    | fault f => rw [hs] at h; cases h
    | refused r => rw [hs] at h; cases h

/-! ## The sequencer's seven turns (40 R132) -/

/-- Nothing is offered but the sequencer's turn. -/
def OnlyTurns (script : List Input) : Prop := ∀ e ∈ script, e = .sequencer

theorem OnlyTurns.tail {script : List Input} (h : OnlyTurns script) : OnlyTurns script.tail :=
  fun e he => h e (List.mem_of_mem_tail he)

theorem OnlyTurns.head {script : List Input} (h : OnlyTurns script) :
    script = [] ∨ ∃ rest, script = .sequencer :: rest := by
  cases script with
  | nil => exact .inl rfl
  | cons e rest => exact .inr ⟨rest, by rw [h e (List.mem_cons_self ..)]⟩

/-- On its turn the sequencer takes the operation that completes. -/
theorem run_turn {s t : State} (k : Nat) (hturns : OnlyTurns s.script) {i : Instr} (hi : i.agent = .seq)
    (h : exec i (beginStep s) = .next t) : Host.Core.run core (k + 1) s = Host.Core.run core k t := by
  obtain ⟨-, htake⟩ := sequencerTakesTheOperationOfPhase s hturns.head
  exact run_succ k ((htake i hi (encode_eq_of_exec_seq (s := beginStep s) h hi)).trans h)

/-- One claimed block through the pipeline, from `CLAIM` to `REARM`. -/
theorem run_pipeline {s : State} (hph : s.ph = .claim) (hturns : OnlyTurns s.script) :
    Host.Core.run core 7 s = .next { s with
      st := .acquiring, ph := .wait, rv := true, gen := s.gen + 1
      reading := generationReading s.num.toNum s.cfg.logN (samples s) s.binres
      mean := none, cs := none, xr := none, xi := none, mg := none, kmax := none, maxm := none
      resp := none, script := s.script.drop 7 } := by
  have turns₁ := hturns.tail
  have turns₂ := turns₁.tail
  have turns₃ := turns₂.tail
  have turns₄ := turns₃.tail
  have turns₅ := turns₄.tail
  have turns₆ := turns₅.tail
  have hdrop : s.script.drop 7 = s.script.tail.tail.tail.tail.tail.tail.tail := by
    simp only [← List.drop_one, List.drop_drop]
  rw [hdrop, run_turn 6 hturns rfl (exec_claim.2 ⟨hph, rfl⟩), run_turn 5 turns₁ rfl (exec_dcr.2 ⟨rfl, rfl⟩),
    run_turn 4 turns₂ rfl (exec_fft.2 ⟨rfl, _, rfl, by simp, rfl⟩),
    run_turn 3 turns₃ rfl
      (exec_mag.2 ⟨rfl, _, rfl, (transform_hasLength ..).1, _, rfl, (transform_hasLength ..).2, rfl⟩),
    run_turn 2 turns₄ rfl (exec_peak.2 ⟨rfl, _, rfl, magnitudes_length .., rfl⟩),
    run_turn 1 turns₅ rfl (exec_pub.2 ⟨rfl, _, rfl, rfl⟩), run_turn 0 turns₆ rfl (exec_rearm.2 ⟨rfl, rfl⟩)]
  rfl

/-- Settles O40: with nothing in the script every turn is the sequencer's, and no operation of the pipeline writes the
memory or the count of resets. -/
theorem sevenSequencerStepsPublishAndRearm : Obligations.SevenSequencerStepsPublishAndRearm := by
  intro s _ hph hscript
  have hturns : OnlyTurns s.script := by rw [hscript]; exact nofun
  exact ⟨_, run_pipeline hph hturns, rfl, rfl, rfl, rfl, rfl, samplesOver_congr _ rfl rfl⟩

/-! ## One generation of the well-behaved agent's block (40 R122, R131) -/

/-- Samples written to ascending locations from `i` on. -/
def Memory.storeAll : Nat → List Sample → Memory → Memory
  | _, [], m => m
  | i, v :: vs, m => Memory.storeAll (i + 1) vs (m.store i v)

theorem find_storeAll_below (vs : List Sample) {i j : Nat} (m : Memory) (hj : j < i) :
    (Memory.storeAll i vs m).find j = m.find j := by
  induction vs generalizing i m with
  | nil => rfl
  | cons v vs ih => rw [Memory.storeAll, ih _ (Nat.lt_succ_of_lt hj), find_store_other m v hj.ne]

theorem find_storeAll_written {vs : List Sample} {j : Nat} {v : Sample} (i : Nat) (m : Memory) (hv : vs[j]? = some v) :
    (Memory.storeAll i vs m).find (i + j) = some v := by
  induction vs generalizing i j m with
  | nil => cases hv
  | cons w vs ih =>
    rw [Memory.storeAll]
    cases j with
    | zero => cases hv; exact (find_storeAll_below vs _ (Nat.lt_succ_self i)).trans (find_store_same m i v)
    | succ j => exact Nat.add_right_comm i 1 j ▸ ih (i + 1) _ hv

/-- A buffer with every location written holds what was written. -/
theorem samplesOver_storeAll {R P A W : Type} (b : Built R P A W) {x : BlockState R P} {vs : List Sample} {m : Memory}
    (hlen : vs.length = b.n) (hx : x.sb = Memory.storeAll 0 vs m) : samplesOver b x = vs := by
  refine List.ext_getElem (by rw [samplesOver_length, hlen]) fun j hj hj' => ?_
  have hfind : x.sb.find (0 + j) = some vs[j] := hx ▸ find_storeAll_written 0 m (List.getElem?_eq_getElem hj')
  rw [Nat.zero_add] at hfind
  simp [samplesOver, readOver, hfind]

/-- The line of a host or DMA operation is taken as that operation. -/
theorem step_line {s : State} {i : Instr} {rest : List Input} (hscript : s.script = line i :: rest)
    (hi : i.agent ≠ .seq) (hwf : i.wf s.cfg = true) : step s = exec i (beginStep s) := by
  have hoff : offered s = encode i := by
    cases i with
    | nop | init | rdfreq | rdstat => exact offered_of_command hscript
    | swr | cplt => exact offered_of_event hscript
    | reset => exact offered_of_resetWire hscript
    | claim | dcr | fft | mag | peak | pub | rearm => exact absurd rfl hi
  exact step_of_decode_ok (by rw [hoff, decodeOfEncodeIsTheInstruction s.cfg i hwf])

/-- With the gate open the line of a write in range stores its sample. -/
theorem step_swr_line {s : State} {i : Nat} {v : Sample} {rest : List Input} (hst : s.st = .acquiring)
    (hi : i < s.cfg.n) (hv : v.toNat < 2 ^ s.cfg.sampleW)
    (hscript : s.script = line (.swr (BitVec.ofNat 16 i) v) :: rest) :
    step s = .next { s with sb := s.sb.store i v, resp := none, script := rest } := by
  have hidx : (BitVec.ofNat 16 i).toNat = i := Nat.mod_eq_of_lt (hi.trans_le s.cfg.n_le)
  have hok : sampleOperandsOk s.cfg.toSize (BitVec.ofNat 16 i) v = true :=
    sampleOperandsOk_iff.2 ⟨by rwa [hidx], hv⟩
  rw [step_line hscript nofun hok, exec_swr]
  exact .inl ⟨hst, hok, by rw [indexOperand, hidx, beginStep, hscript]; rfl⟩

/-- With the gate open the line of a completion signal makes the block ready. -/
theorem step_cplt_line {s : State} {rest : List Input} (hst : s.st = .acquiring)
    (hscript : s.script = line .cplt :: rest) :
    step s = .next { s with st := .ready, ph := .claim, resp := none, script := rest } := by
  rw [step_line hscript nofun rfl, exec_cplt]
  exact .inl ⟨hst, by rw [beginStep, hscript]; rfl⟩

/-- The lines of a `FILL` from location `i` on (30_encoding R106). -/
def fillFrom (i : Nat) (vs : List Sample) : List Input :=
  (vs.zipIdx i).map fun e => line (.swr (BitVec.ofNat 16 e.2) e.1)

/-- With the gate open every line of a `FILL` is an accepted write. -/
theorem run_fillFrom {s : State} {i : Nat} {vs : List Sample} {rest : List Input} (hst : s.st = .acquiring)
    (hlen : i + vs.length ≤ s.cfg.n) (hvs : ∀ v ∈ vs, v.toNat < 2 ^ s.cfg.sampleW)
    (hscript : s.script = fillFrom i vs ++ rest) :
    ∃ r, Host.Core.run core vs.length s =
      .next { s with sb := s.sb.storeAll i vs, resp := r, script := rest } := by
  induction vs generalizing s i with
  | nil => exact ⟨s.resp, by obtain rfl : s.script = rest := hscript; rfl⟩
  | cons v vs ih =>
    rw [List.length_cons] at hlen
    have hstep := step_swr_line hst (by omega) (hvs v (List.mem_cons_self ..)) hscript
    obtain ⟨r, hrun⟩ := ih (s := { s with sb := s.sb.store i v, resp := none, script := fillFrom (i + 1) vs ++ rest })
      (i := i + 1) hst (show i + 1 + vs.length ≤ s.cfg.n by omega) (fun w hw => hvs w (List.mem_cons_of_mem _ hw)) rfl
    exact ⟨r, (run_succ _ hstep).trans hrun⟩

theorem onlyTurns_run : OnlyTurns run := fun _ he => List.eq_of_mem_replicate (n := 7) he

/-- Settles O41: the writes fill the buffer, the signal enables `CLAIM`, the turns take the block through the pipeline. -/
theorem oneGenerationReportsItsBlock : Obligations.OneGenerationReportsItsBlock := by
  intro s vs _ hst hlen hvs hscript
  have hlines : s.script = fillFrom 0 vs ++ line .cplt :: run := by rw [hscript, block, List.append_assoc]; rfl
  obtain ⟨r, hfill⟩ := run_fillFrom hst (by omega) hvs hlines
  have hcplt :=
    step_cplt_line (s := { s with sb := s.sb.storeAll 0 vs, resp := r, script := line .cplt :: run }) hst rfl
  rw [← hlen, run_add 8 hfill, run_succ 7 hcplt, run_pipeline rfl onlyTurns_run]
  exact ⟨_, rfl, rfl, rfl, rfl, rfl, rfl, samplesOver_storeAll _ hlen rfl,
    congrArg (generationReading s.num.toNum s.cfg.logN · s.binres) (samplesOver_storeAll _ hlen rfl)⟩

/-! ## The well-behaved agent (40 R122) -/

section agent

variable {c : Config} (v : Nat → Sample) {i : Nat}

theorem deliver_write (h : i < c.n) :
    DmaAgent.deliver c v { wp := i, armed := true, signalled := false } =
      some (.swr (BitVec.ofNat 16 i) (v i), { wp := i + 1, armed := true, signalled := false }) := by
  simp [DmaAgent.deliver, h]

theorem deliver_cplt (h : c.n ≤ i) :
    DmaAgent.deliver c v { wp := i, armed := true, signalled := false } =
      some (.cplt, { wp := i, armed := true, signalled := true }) := by
  simp [DmaAgent.deliver, h.not_gt]

theorem deliveries_signalled (h : c.n ≤ i) (turns : Nat) :
    DmaAgent.deliveries c v turns { wp := i, armed := true, signalled := true } = [] := by
  cases turns with
  | zero => rfl
  | succ turns => simp [DmaAgent.deliveries, DmaAgent.deliver, h.not_gt]

/-- With `m` samples still to write the agent writes them, signals, and delivers nothing more. -/
theorem deliveries_armed {m turns : Nat} (hi : i + m = c.n) (hturns : m < turns) :
    DmaAgent.deliveries c v turns { wp := i, armed := true, signalled := false } =
      (List.range' i m).map (fun j => .swr (BitVec.ofNat 16 j) (v j)) ++ [.cplt] := by
  induction turns generalizing i m with
  | zero => exact absurd hturns (Nat.not_lt_zero m)
  | succ turns ih =>
    cases m with
    | zero =>
      have hn : c.n ≤ i := hi.ge
      simp only [DmaAgent.deliveries, deliver_cplt v hn, deliveries_signalled v hn]
      rfl
    | succ m =>
      have hwrite := deliver_write v (show i < c.n by omega)
      simp only [DmaAgent.deliveries, hwrite, ih (i := i + 1) (m := m) (by omega) (by omega)]
      rfl

end agent

/-- A `FILL` of the agent's samples is its writes (30_encoding R106). -/
theorem fill_map_range (n : Nat) (v : Nat → Sample) :
    fill ((List.range n).map v) = (List.range n).map fun j => line (.swr (BitVec.ofNat 16 j) (v j)) :=
  List.ext_getElem (by simp [fill]) (by simp [fill])

/-- Settles O42: the rising sets the agent's pointer to 0, and what it then delivers are the lines of its block. -/
theorem wellBehavedAgentDeliversOneBlock : Obligations.WellBehavedAgentDeliversOneBlock := by
  intro c v a extra ha
  have hsee : a.see true = { wp := 0, armed := true, signalled := false } := by simp [DmaAgent.see, ha]
  rw [hsee, deliveries_armed v (Nat.zero_add c.n) (by omega), List.map_append, List.map_map, block, fill_map_range,
    List.range_eq_range']
  rfl

end Sys2Proof.Machine
end

section
/-! The DC-offset remover (41 R151 to R153): what `DCR` writes, and its arithmetic over the real numbers. -/

namespace Sys2Proof.Machine

/-- The accumulation over the buffer reads the locations in ascending order (41 R151's first loop). -/
theorem blockMean_samples {R P : Type} (num : Num R P) (s : State) :
    blockMean num (samples s) =
      (List.range s.cfg.n).foldl
        (fun a i => num.add a (num.scaleInvN (num.ofSample (memRead s i).toNat))) num.zero :=
  List.foldl_map ..

theorem centred_getElem {R P : Type} (num : Num R P) {sb : List Sample} {i : Nat} {v : Sample} (h : sb[i]? = some v) :
    (centred num sb)[i]? = some (num.sub (num.ofSample v.toNat) (blockMean num sb)) := by simp [centred, h]

/-- Settles O20: `DCR` asks for its phase alone, and the samples it folds and maps over are what the locations read. -/
theorem dcrCentresTheBlock : Obligations.DcrCentresTheBlock := fun s hph =>
  ⟨_, _, exec_dcr.2 ⟨hph, rfl⟩, blockMean_samples s.num.toNum s, by simp,
    fun _ hi => centred_getElem s.num.toNum (samples_getElem s hi)⟩

/-! ## Over the real numbers (41 R152, R153) -/

/-- Over the reals the factor `1/N` of the terms is one factor of their sum. -/
theorem blockMean_numReal (logN : Nat) (sb : List Sample) :
    blockMean (numReal logN) sb = (1 / 2 ^ logN) * (sb.map fun v : Sample => (v.toNat : ℝ)).sum := by
  calc blockMean (numReal logN) sb
      = (sb.map fun v : Sample => (v.toNat : ℝ) * (1 / 2 ^ logN)).sum := by
        rw [List.sum_eq_foldl, List.foldl_map]; rfl
    _ = (1 / 2 ^ logN) * (sb.map fun v : Sample => (v.toNat : ℝ)).sum := by
        rw [List.sum_map_mul_right, mul_comm]

theorem mul_blockMean_numReal (logN : Nat) (sb : List Sample) :
    2 ^ logN * blockMean (numReal logN) sb = (sb.map fun v : Sample => (v.toNat : ℝ)).sum := by
  rw [blockMean_numReal, one_div, mul_inv_cancel_left₀ (by positivity)]

/-- Subtracting the mean from every sample takes it from the sum once for each sample. -/
theorem centred_numReal_sum (logN : Nat) (sb : List Sample) :
    (centred (numReal logN) sb).sum =
      (sb.map fun v : Sample => (v.toNat : ℝ)).sum - sb.length * blockMean (numReal logN) sb := by
  calc (centred (numReal logN) sb).sum
      = (sb.map fun v : Sample => (v.toNat : ℝ) - blockMean (numReal logN) sb).sum := rfl
    _ = _ := by
        simp only [sub_eq_add_neg, List.sum_map_add, List.map_const', List.sum_replicate, nsmul_eq_mul, mul_neg]

/-- Settles O43: the sum of a block is `N` times its mean, which is what the centred sum loses. -/
theorem realMeanIsTheArithmeticMean : Obligations.RealMeanIsTheArithmeticMean := by
  intro logN sb hlen
  refine ⟨blockMean_numReal logN sb, fun _ _ hv => centred_getElem (numReal logN) hv, ?_⟩
  rw [centred_numReal_sum, hlen, Nat.cast_pow, Nat.cast_ofNat, mul_blockMean_numReal, sub_self]

theorem blockMean_numReal_replicate (logN : Nat) (c : Sample) :
    blockMean (numReal logN) (List.replicate (2 ^ logN) c) = c.toNat := by
  rw [blockMean_numReal, List.map_replicate, List.sum_replicate, nsmul_eq_mul, Nat.cast_pow, Nat.cast_ofNat, one_div,
    inv_mul_cancel_left₀ (by positivity)]

/-- Settles O44: every sample of a constant block equals its mean. -/
theorem realConstantBlockCentresToZero : Obligations.RealConstantBlockCentresToZero := by
  intro logN c
  have hmean := blockMean_numReal_replicate logN c
  have hzero : (c.toNat : ℝ) - c.toNat = 0 := sub_self _
  refine ⟨hmean, ?_⟩
  rw [centred, hmean, List.map_replicate]
  exact congrArg _ hzero

end Sys2Proof.Machine
end

section
/-! The spectral transform (42 R161 to R171): what `FFT` writes, and the reference algorithm over the real numbers, followed
stage by stage through the sub-transforms it holds. -/

namespace Sys2Proof.Machine

/-- Settles O21: `FFT` asks for its phase and a `CS` of `N` values, and the transform has two arrays of `N` elements. -/
theorem fftTransformsTheCentredSignal : Obligations.FftTransformsTheCentredSignal := fun s l hph hcs hlen =>
  have hsize := transform_hasLength s.num.toNum s.cfg.logN l
  ⟨_, _, exec_fft.2 ⟨hph, l, hcs, hlen, rfl⟩, hsize.1, hsize.2, rfl⟩

/-! ## The bit-reversed input (00_scope R10, 42 R161) -/

theorem bitrev_two_mul (l n : Nat) : bitrev (l + 1) (2 * n) = bitrev l n := by simp [bitrev]

theorem bitrev_two_mul_add_one (l n : Nat) : bitrev (l + 1) (2 * n + 1) = bitrev l n + 2 ^ l := by
  rw [bitrev, show (2 * n + 1) % 2 = 1 by omega, show (2 * n + 1) / 2 = n by omega, one_mul, add_comm]

/-- The top bit of an index is the bottom bit of its reverse. -/
theorem bitrev_top (l : Nat) {t n : Nat} (ht : t < 2) (hn : n < 2 ^ l) :
    bitrev (l + 1) (t * 2 ^ l + n) = 2 * bitrev l n + t := by
  induction l generalizing n with
  | zero =>
    obtain rfl : n = 0 := by simpa using hn
    simp [bitrev, Nat.mod_eq_of_lt ht]
  | succ l ih =>
    have htop : t * 2 ^ (l + 1) = 2 * (t * 2 ^ l) := by ring
    have hmod : (t * 2 ^ (l + 1) + n) % 2 = n % 2 := by omega
    have hdiv : (t * 2 ^ (l + 1) + n) / 2 = t * 2 ^ l + n / 2 := by omega
    rw [bitrev, hmod, hdiv, ih (by rw [pow_succ] at hn; omega), bitrev]
    ring

theorem bitrev_bitrev (l : Nat) {n : Nat} (hn : n < 2 ^ l) : bitrev l (bitrev l n) = n := by
  induction l generalizing n with
  | zero =>
    obtain rfl : n = 0 := by simpa using hn
    rfl
  | succ l ih =>
    have hhalf : n / 2 < 2 ^ l := by rw [pow_succ] at hn; omega
    calc bitrev (l + 1) (bitrev (l + 1) n)
        = 2 * bitrev l (bitrev l (n / 2)) + n % 2 := bitrev_top l (Nat.mod_lt n two_pos) (bitrev_lt l _)
      _ = n := by rw [ih hhalf, Nat.div_add_mod]

theorem bitrev_injOn (l : Nat) {m n : Nat} (hm : m < 2 ^ l) (hn : n < 2 ^ l) (h : bitrev l m = bitrev l n) : m = n := by
  rw [← bitrev_bitrev l hm, h, bitrev_bitrev l hn]

/-- No later write of the initial permutation reaches the place of an earlier one. -/
theorem loadReversed_re_getElem? {R P : Type} (num : Num R P) (logN : Nat) {cs : List R} (hlen : cs.length ≤ 2 ^ logN)
    {n : Nat} (hn : n < cs.length) : (loadReversed num logN cs).re[bitrev logN n]? = cs[n]? := by
  induction cs using List.reverseRecOn with
  | nil => simp at hn
  | append_singleton cs v ih =>
    rw [List.length_append, List.length_singleton] at hlen hn
    have hstep : (loadReversed num logN (cs ++ [v])).re
        = (loadReversed num logN cs).re.set (bitrev logN cs.length) v := by
      simp [loadReversed, List.zipIdx_append]
    rw [hstep]
    rcases Nat.lt_succ_iff_lt_or_eq.1 hn with hlt | rfl
    · have hne : bitrev logN cs.length ≠ bitrev logN n := fun h =>
        absurd (bitrev_injOn logN (by omega) (by omega) h) (by omega)
      rw [List.getElem?_set_ne hne, ih (by omega) hlt, List.getElem?_append_left hlt]
    · rw [List.getElem?_set_self (by rw [(loadReversed_hasLength num logN cs).1]; exact bitrev_lt logN _)]
      simp

/-! ## The twiddles as powers of one root of unity (42 R161, R162) -/

/-- `e^(-2 π i / 2^s)`, the root of unity of the transform of `2^s` values. -/
noncomputable def dftRoot (s : Nat) : ℂ := Complex.exp (-(2 * Real.pi * Complex.I / (2 ^ s : ℕ)))

theorem dftRoot_isPrimitiveRoot (s : Nat) : IsPrimitiveRoot (dftRoot s) (2 ^ s) := by
  rw [dftRoot, Complex.exp_neg]
  exact (Complex.isPrimitiveRoot_exp _ (by positivity)).inv

theorem dftRoot_pow (s t : Nat) : dftRoot s ^ t =
    ⟨Real.cos (2 * Real.pi * t / 2 ^ s), -Real.sin (2 * Real.pi * t / 2 ^ s)⟩ := by
  have hexp : dftRoot s ^ t = Complex.exp ((-(2 * Real.pi * t / 2 ^ s) : ℝ) * Complex.I) := by
    rw [dftRoot, ← Complex.exp_nat_mul]
    congr 1
    push_cast
    ring
  rw [hexp]
  apply Complex.ext
  · rw [Complex.exp_ofReal_mul_I_re, Real.cos_neg]
  · rw [Complex.exp_ofReal_mul_I_im, Real.sin_neg]

theorem dftRoot_inv_pow (s t : Nat) : (dftRoot s)⁻¹ ^ t =
    ⟨Real.cos (2 * Real.pi * t / 2 ^ s), Real.sin (2 * Real.pi * t / 2 ^ s)⟩ := by
  rw [inv_pow, dftRoot_pow, Complex.inv_def]
  apply Complex.ext <;> simp [Complex.normSq_apply, ← sq]

theorem dftRoot_add_pow (s e : Nat) : dftRoot (s + e) ^ 2 ^ e = dftRoot s := by
  rw [dftRoot, dftRoot, ← Complex.exp_nat_mul]
  congr 1
  push_cast
  field_simp
  ring

theorem dftRoot_succ_half (s : Nat) : dftRoot (s + 1) ^ 2 ^ s = -1 := by
  have hpi : 2 * Real.pi * Complex.I / (2 ^ 1 : ℕ) = Real.pi * Complex.I := by push_cast; ring
  rw [add_comm, dftRoot_add_pow, dftRoot, Complex.exp_neg, hpi, Complex.exp_pi_mul_I, inv_neg, inv_one]

/-! ## The transform of a decimated input -/

/-- The transform of the `2^s` values of `x` at `r, r + d, r + 2 d, ...`, at bin `k`. -/
noncomputable def decimatedDft (x : List ℝ) (s r d k : Nat) : ℂ :=
  ∑ q ∈ Finset.range (2 ^ s), (x.getD (r + q * d) 0 : ℂ) * dftRoot s ^ (q * k)

/-- Undecimated, it is the transform of 42 R162. -/
theorem decimatedDft_eq_dft (logN : Nat) (x : List ℝ) (k : Nat) :
    decimatedDft x logN 0 1 k = ⟨dftRe logN x k, dftIm logN x k⟩ := by
  apply Complex.ext <;> simp [decimatedDft, dftRe, dftIm, dftRoot_pow, mul_assoc]

/-- A sum over an even number of terms, even and odd indices apart. -/
theorem sum_range_two_mul {M : Type*} [AddCommMonoid M] (f : ℕ → M) (n : Nat) :
    ∑ i ∈ Finset.range (2 * n), f i = ∑ i ∈ Finset.range n, f (2 * i) + ∑ i ∈ Finset.range n, f (2 * i + 1) := by
  induction n with
  | zero => simp
  | succ n ih =>
    rw [Nat.mul_succ, Finset.sum_range_succ, Finset.sum_range_succ, ih, Finset.sum_range_succ, Finset.sum_range_succ]
    abel

/-- The even and the odd terms are transforms of half the size. -/
theorem decimatedDft_succ (x : List ℝ) (s r d k : Nat) : decimatedDft x (s + 1) r d k =
    decimatedDft x s r (2 * d) k + dftRoot (s + 1) ^ k * decimatedDft x s (r + d) (2 * d) k := by
  have hroot (t : Nat) : dftRoot s ^ t = dftRoot (s + 1) ^ (2 * t) := by
    rw [pow_mul, ← dftRoot_add_pow s 1, pow_one]
  simp only [decimatedDft, pow_succ' 2 s, sum_range_two_mul, Finset.mul_sum, hroot]
  congr 1 <;> exact Finset.sum_congr rfl fun q _ => by ring_nf

theorem decimatedDft_add_period (x : List ℝ) (s r d k : Nat) :
    decimatedDft x s r d (k + 2 ^ s) = decimatedDft x s r d k := by
  refine Finset.sum_congr rfl fun q _ => ?_
  rw [mul_add, pow_add, mul_comm q (2 ^ s), pow_mul _ (2 ^ s), (dftRoot_isPrimitiveRoot s).pow_eq_one, one_pow, mul_one]

/-- In the upper half of the bins the odd terms change their sign. -/
theorem decimatedDft_succ_upper (x : List ℝ) (s r d k : Nat) : decimatedDft x (s + 1) r d (k + 2 ^ s) =
    decimatedDft x s r (2 * d) k - dftRoot (s + 1) ^ k * decimatedDft x s (r + d) (2 * d) k := by
  rw [decimatedDft_succ, decimatedDft_add_period, decimatedDft_add_period, pow_add, dftRoot_succ_half]
  ring

/-! ## The stages over the real numbers (42 R161) -/

/-- Element `i` of the two arrays as one complex number. -/
def Spectrum.bin (x : Spectrum ℝ) (i : Nat) : ℂ := ⟨x.re.getD i 0, x.im.getD i 0⟩

theorem Spectrum.HasLength.getElem?_of_bin {n i : Nat} {x : Spectrum ℝ} {z : ℂ} (hx : x.HasLength n) (hi : i < n)
    (h : x.bin i = z) : x.re[i]? = some z.re ∧ x.im[i]? = some z.im := by
  obtain ⟨hre, him⟩ := hx
  subst h
  simp [Spectrum.bin, hre, him, hi]

theorem bin_butterfly_of_ne (logN b j h : Nat) (wr ws : ℝ) (x : Spectrum ℝ) {i : Nat} (hfst : i ≠ b + j)
    (hsnd : i ≠ b + j + h) : (butterfly (numReal logN) b j h wr ws x).bin i = x.bin i := by
  simp [Spectrum.bin, butterfly, hfst.symm, hsnd.symm]

/-- A butterfly over the reals is `(u, v) ↦ (u + w v, u - w v)` with the twiddle `w = wr - i ws`. -/
theorem bin_butterfly (logN b j h : Nat) (wr ws : ℝ) {n : Nat} {x : Spectrum ℝ} (hx : x.HasLength n) (hh : 0 < h)
    (hn : b + j + h < n) :
    (butterfly (numReal logN) b j h wr ws x).bin (b + j) = x.bin (b + j) + ⟨wr, -ws⟩ * x.bin (b + j + h)
      ∧ (butterfly (numReal logN) b j h wr ws x).bin (b + j + h) = x.bin (b + j) - ⟨wr, -ws⟩ * x.bin (b + j + h) := by
  obtain ⟨hre, him⟩ := hx
  have hfst : b + j < n := by omega
  constructor <;> apply Complex.ext <;>
    simp [Spectrum.bin, butterfly, numReal, hre, him, hn, hfst, hh.ne'] <;> ring

/-- Butterfly `k = (g, j)` of stage `s + 1`: number `j` of group `g`. -/
noncomputable def stageButterfly (logN s : Nat) (x : Spectrum ℝ) (k : Nat × Nat) : Spectrum ℝ :=
  butterfly (numReal logN) (k.1 * 2 ^ (s + 1)) k.2 (2 ^ s)
    ((numReal logN).twc (k.2 * (2 ^ logN / 2 ^ (s + 1)))) ((numReal logN).tws (k.2 * (2 ^ logN / 2 ^ (s + 1)))) x

/-- Its first element; the second is half a group further. -/
def pairStart (s : Nat) (k : Nat × Nat) : Nat := k.1 * 2 ^ (s + 1) + k.2

theorem stageButterfly_hasLength (logN s : Nat) (k : Nat × Nat) {n : Nat} {x : Spectrum ℝ} (hx : x.HasLength n) :
    (stageButterfly logN s x k).HasLength n :=
  butterfly_hasLength _ _ _ _ _ _ hx

/-- A stage's two loops as one over the pairs of a group and a butterfly in it. -/
theorem fftStage_eq_foldl (logN s : Nat) (x : Spectrum ℝ) :
    fftStage (numReal logN) logN (s + 1) x =
      (List.range (2 ^ logN / 2 ^ (s + 1)) ×ˢ List.range (2 ^ s)).foldl (stageButterfly logN s) x := by
  have hhalf : 2 ^ (s + 1) / 2 = 2 ^ s := by rw [pow_succ]; omega
  simp only [fftStage, group, SProd.sprod, List.product, List.foldl_flatMap, List.foldl_map, hhalf, stageButterfly]

/-- `i` is one of the two elements of butterfly `k`. -/
def InPair (s : Nat) (k : Nat × Nat) (i : Nat) : Prop := i = pairStart s k ∨ i = pairStart s k + 2 ^ s

/-- The butterfly of an element can be read off it. -/
theorem InPair.eq {s i : Nat} {k : Nat × Nat} (h : InPair s k i) (hk : k.2 < 2 ^ s) :
    k = (i / 2 ^ (s + 1), i % 2 ^ s) := by
  have hpow : 2 ^ (s + 1) = 2 ^ s * 2 := pow_succ 2 s
  have hfst {r : Nat} (hr : r < 2 ^ (s + 1)) : (k.1 * 2 ^ (s + 1) + r) / 2 ^ (s + 1) = k.1 := by
    rw [mul_comm, Nat.mul_add_div (Nat.two_pow_pos _), Nat.div_eq_of_lt hr, add_zero]
  have hsnd (a : Nat) : (2 ^ s * a + k.2) % 2 ^ s = k.2 := by rw [Nat.mul_add_mod, Nat.mod_eq_of_lt hk]
  rcases h with rfl | rfl
  · refine Prod.ext (hfst (by omega)).symm ?_
    rw [← hsnd (2 * k.1), pairStart, hpow]
    ring_nf
  · refine Prod.ext ?_ ?_
    · rw [pairStart, add_assoc, hfst (by omega)]
    · rw [← hsnd (2 * k.1 + 1), pairStart, hpow]
      ring_nf

/-- The pairs of a stage have no element in common. -/
theorem InPair.disjoint {s i : Nat} {k k' : Nat × Nat} (h : InPair s k i) (hk : k.2 < 2 ^ s) (hk' : k'.2 < 2 ^ s)
    (hne : k' ≠ k) : ¬ InPair s k' i :=
  fun h' => hne ((h'.eq hk').trans (h.eq hk).symm)

theorem stageButterfly_bin_of_not_inPair (logN s : Nat) (x : Spectrum ℝ) {k : Nat × Nat} {i : Nat} (h : ¬ InPair s k i) :
    (stageButterfly logN s x k).bin i = x.bin i :=
  bin_butterfly_of_ne _ _ _ _ _ _ _ (fun hi => h (.inl hi)) fun hi => h (.inr hi)

theorem foldl_stageButterfly_bin_of_not_inPair (logN s : Nat) {ops : List (Nat × Nat)} {i : Nat}
    (hi : ∀ k ∈ ops, ¬ InPair s k i) (x : Spectrum ℝ) : (ops.foldl (stageButterfly logN s) x).bin i = x.bin i := by
  induction ops generalizing x with
  | nil => rfl
  | cons k ops ih =>
    obtain ⟨hk, hops⟩ := List.forall_mem_cons.1 hi
    rw [List.foldl_cons, ih hops, stageButterfly_bin_of_not_inPair logN s x hk]

/-- Stage `s + 1` has `N / 2^(s+1)` groups. -/
theorem groups_count (s e : Nat) : 2 ^ (s + 1 + e) / 2 ^ (s + 1) = 2 ^ e := by
  rw [pow_add, Nat.mul_div_cancel_left _ (Nat.two_pow_pos (s + 1))]

/-- The twiddle of butterfly `j` of stage `s + 1` is `e^(-2 π i j / 2^(s+1))`. -/
theorem stage_twiddle (s e j : Nat) :
    (⟨(numReal (s + 1 + e)).twc (j * (2 ^ (s + 1 + e) / 2 ^ (s + 1))),
      -(numReal (s + 1 + e)).tws (j * (2 ^ (s + 1 + e) / 2 ^ (s + 1)))⟩ : ℂ) = dftRoot (s + 1) ^ j := by
  rw [groups_count, ← dftRoot_add_pow (s + 1) e, ← pow_mul, mul_comm (2 ^ e) j, dftRoot_pow]
  rfl

/-- What butterfly `k` of stage `s + 1` makes of its pair: `y` holds the pair's new values, `x` its old ones. -/
def Combines (s : Nat) (k : Nat × Nat) (x y : Spectrum ℝ) : Prop :=
  y.bin (pairStart s k) = x.bin (pairStart s k) + dftRoot (s + 1) ^ k.2 * x.bin (pairStart s k + 2 ^ s)
    ∧ y.bin (pairStart s k + 2 ^ s)
      = x.bin (pairStart s k) - dftRoot (s + 1) ^ k.2 * x.bin (pairStart s k + 2 ^ s)

theorem Combines.congr {s : Nat} {k : Nat × Nat} {x x' y y' : Spectrum ℝ} (h : Combines s k x y)
    (hx : ∀ i, InPair s k i → x'.bin i = x.bin i) (hy : ∀ i, InPair s k i → y'.bin i = y.bin i) :
    Combines s k x' y' := by
  rw [Combines, hx _ (.inl rfl), hx _ (.inr rfl), hy _ (.inl rfl), hy _ (.inr rfl)]
  exact h

theorem stageButterfly_combines {s e : Nat} {x : Spectrum ℝ} (hx : x.HasLength (2 ^ (s + 1 + e))) {k : Nat × Nat}
    (hk : pairStart s k + 2 ^ s < 2 ^ (s + 1 + e)) : Combines s k x (stageButterfly (s + 1 + e) s x k) := by
  have h := bin_butterfly (s + 1 + e) (k.1 * 2 ^ (s + 1)) k.2 (2 ^ s)
    ((numReal (s + 1 + e)).twc (k.2 * (2 ^ (s + 1 + e) / 2 ^ (s + 1))))
    ((numReal (s + 1 + e)).tws (k.2 * (2 ^ (s + 1 + e) / 2 ^ (s + 1)))) hx (Nat.two_pow_pos s) hk
  rwa [stage_twiddle] at h

/-- Each pair is changed by its own butterfly alone, which finds there what the stage began with. -/
theorem foldl_stageButterfly_combines {s e : Nat} {ops : List (Nat × Nat)} (hnodup : ops.Nodup)
    (hops : ∀ k ∈ ops, k.2 < 2 ^ s ∧ pairStart s k + 2 ^ s < 2 ^ (s + 1 + e)) {x : Spectrum ℝ}
    (hx : x.HasLength (2 ^ (s + 1 + e))) {k : Nat × Nat} (hk : k ∈ ops) :
    Combines s k x (ops.foldl (stageButterfly (s + 1 + e) s) x) := by
  induction ops generalizing x with
  | nil => simp at hk
  | cons k₀ ops ih =>
    obtain ⟨hnew, hnodup⟩ := List.nodup_cons.1 hnodup
    obtain ⟨hk₀, hrest⟩ := List.forall_mem_cons.1 hops
    rw [List.foldl_cons]
    rcases List.mem_cons.1 hk with rfl | hmem
    · refine (stageButterfly_combines hx hk₀.2).congr (fun _ _ => rfl) fun i hi => ?_
      have hlater : ∀ k' ∈ ops, ¬ InPair s k' i := fun k' hk' =>
        hi.disjoint hk₀.1 (hrest k' hk').1 fun h => hnew (h ▸ hk')
      exact foldl_stageButterfly_bin_of_not_inPair _ s hlater _
    · refine (ih hnodup hrest (stageButterfly_hasLength _ s k₀ hx) hmem).congr (fun i hi => ?_) fun _ _ => rfl
      have hearlier : ¬ InPair s k₀ i := hi.disjoint (hrest k hmem).1 hk₀.1 fun h => hnew (h ▸ hmem)
      exact (stageButterfly_bin_of_not_inPair _ s x hearlier).symm

theorem fftStage_combines {s e g j : Nat} (hg : g < 2 ^ e) (hj : j < 2 ^ s) {x : Spectrum ℝ}
    (hx : x.HasLength (2 ^ (s + 1 + e))) : Combines s (g, j) x (fftStage (numReal (s + 1 + e)) (s + 1 + e) (s + 1) x) := by
  rw [fftStage_eq_foldl, groups_count]
  refine foldl_stageButterfly_combines (List.nodup_range.product List.nodup_range) (fun k hk => ?_) hx
    (List.mem_product.2 ⟨List.mem_range.2 hg, List.mem_range.2 hj⟩)
  obtain ⟨hk₁, hk₂⟩ := List.mem_product.1 hk
  rw [List.mem_range] at hk₁ hk₂
  refine ⟨hk₂, ?_⟩
  calc pairStart s k + 2 ^ s < (k.1 + 1) * 2 ^ (s + 1) := by rw [pairStart, pow_succ]; linarith
    _ ≤ 2 ^ e * 2 ^ (s + 1) := Nat.mul_le_mul_right _ hk₁
    _ = 2 ^ (s + 1 + e) := by rw [pow_add _ (s + 1) e, mul_comm]

/-! ## The sub-transforms in the groups -/

/-- Each of the `2^e` groups of `2^s` elements holds the transform of the inputs whose index ends in the `e` bits of the
group's number reversed. -/
def HoldsGroups (cs : List ℝ) (s e : Nat) (x : Spectrum ℝ) : Prop :=
  ∀ g k : Nat, g < 2 ^ e → k < 2 ^ s → x.bin (g * 2 ^ s + k) = decimatedDft cs s (bitrev e g) (2 ^ e) k

theorem loadReversed_holdsGroups {logN : Nat} {cs : List ℝ} (hlen : cs.length = 2 ^ logN) :
    HoldsGroups cs 0 logN (loadReversed (numReal logN) logN cs) := by
  intro g k hg hk
  obtain rfl : k = 0 := by simpa using hk
  have hre := loadReversed_re_getElem? (numReal logN) logN hlen.le (hlen ▸ bitrev_lt logN g)
  rw [bitrev_bitrev logN hg] at hre
  apply Complex.ext
  · simp [Spectrum.bin, decimatedDft, hre]
  · simp [Spectrum.bin, decimatedDft, loadReversed, numReal, hg]

theorem fftStage_holdsGroups {cs : List ℝ} {s e : Nat} {x : Spectrum ℝ} (hx : x.HasLength (2 ^ (s + 1 + e)))
    (h : HoldsGroups cs s (e + 1) x) :
    HoldsGroups cs (s + 1) e (fftStage (numReal (s + 1 + e)) (s + 1 + e) (s + 1) x) := by
  intro g k hg hk
  have hpow : 2 ^ (e + 1) = 2 * 2 ^ e := pow_succ' 2 e
  have heven {j : Nat} (hj : j < 2 ^ s) : x.bin (pairStart s (g, j)) = decimatedDft cs s (bitrev e g) (2 * 2 ^ e) j := by
    rw [← hpow, ← bitrev_two_mul, ← h (2 * g) j (by omega) hj, pairStart]
    ring_nf
  have hodd {j : Nat} (hj : j < 2 ^ s) :
      x.bin (pairStart s (g, j) + 2 ^ s) = decimatedDft cs s (bitrev e g + 2 ^ e) (2 * 2 ^ e) j := by
    rw [← hpow, ← bitrev_two_mul_add_one, ← h (2 * g + 1) j (by omega) hj, pairStart]
    ring_nf
  rcases lt_or_ge k (2 ^ s) with hj | hge
  · rw [decimatedDft_succ, ← heven hj, ← hodd hj]
    exact (fftStage_combines hg hj hx).1
  · obtain ⟨j, rfl⟩ := Nat.exists_eq_add_of_le' hge
    have hj : j < 2 ^ s := by rw [pow_succ] at hk; omega
    rw [decimatedDft_succ_upper, ← heven hj, ← hodd hj, ← add_assoc]
    exact (fftStage_combines hg hj hx).2

/-- The first `s` stages of the reference algorithm. -/
noncomputable def stages (logN s : Nat) (cs : List ℝ) : Spectrum ℝ :=
  (List.range s).foldl (fun x k => fftStage (numReal logN) logN (k + 1) x) (loadReversed (numReal logN) logN cs)

theorem stages_succ (logN s : Nat) (cs : List ℝ) :
    stages logN (s + 1) cs = fftStage (numReal logN) logN (s + 1) (stages logN s cs) := by
  rw [stages, List.range_succ, List.foldl_append]
  rfl

theorem stages_hasLength (logN s : Nat) (cs : List ℝ) : (stages logN s cs).HasLength (2 ^ logN) :=
  foldl_keeps (Spectrum.HasLength (2 ^ logN)) _ (fun _ _ h => fftStage_hasLength _ _ _ h) _ _
    (loadReversed_hasLength _ logN cs)

theorem stages_holdsGroups {s e : Nat} {cs : List ℝ} (hlen : cs.length = 2 ^ (s + e)) :
    HoldsGroups cs s e (stages (s + e) s cs) := by
  induction s generalizing e with
  | zero =>
    rw [zero_add] at hlen ⊢
    exact loadReversed_holdsGroups hlen
  | succ s ih =>
    have hshape : s + (e + 1) = s + 1 + e := by ring
    have hprev := ih (e := e + 1) (hshape ▸ hlen)
    rw [hshape] at hprev
    rw [stages_succ]
    exact fftStage_holdsGroups (stages_hasLength _ s cs) hprev

/-- After the last stage the one group holds the transform of the whole input. -/
theorem transform_bin {logN : Nat} {x : List ℝ} (hlen : x.length = 2 ^ logN) {k : Nat} (hk : k < 2 ^ logN) :
    (transform (numReal logN) logN x).bin k = ⟨dftRe logN x k, dftIm logN x k⟩ := by
  have h := stages_holdsGroups (s := logN) (e := 0) hlen 0 k one_pos hk
  rw [zero_mul, zero_add] at h
  rw [← decimatedDft_eq_dft]
  exact h

/-- Settles O45 stage by stage: each combines two groups into the transform of twice as many inputs. -/
theorem realTransformIsTheFourierTransform : Obligations.RealTransformIsTheFourierTransform := fun logN x hlen _ hk =>
  (transform_hasLength (numReal logN) logN x).getElem?_of_bin hk (transform_bin hlen hk)

/-! ## Symmetry of the spectrum (42 R167, R168) -/

theorem transform_getD {logN : Nat} {x : List ℝ} (hlen : x.length = 2 ^ logN) {k : Nat} (hk : k < 2 ^ logN) :
    (transform (numReal logN) logN x).re.getD k 0 = dftRe logN x k
      ∧ (transform (numReal logN) logN x).im.getD k 0 = dftIm logN x k :=
  Complex.ext_iff.1 (transform_bin hlen hk)

/-- The angle at bin `N - k` is the negative of that at bin `k`, up to full turns. -/
theorem dft_angle_sub (logN n : Nat) {k : Nat} (hk : k ≤ 2 ^ logN) :
    2 * Real.pi * n * (2 ^ logN - k : ℕ) / 2 ^ logN = n * (2 * Real.pi) - 2 * Real.pi * n * k / 2 ^ logN := by
  rw [Nat.cast_sub hk]
  push_cast
  field_simp

theorem dftRe_sub (logN : Nat) (x : List ℝ) {k : Nat} (hk : k ≤ 2 ^ logN) :
    dftRe logN x (2 ^ logN - k) = dftRe logN x k := by
  simp only [dftRe, dft_angle_sub logN _ hk, Real.cos_nat_mul_two_pi_sub]

theorem dftIm_sub (logN : Nat) (x : List ℝ) {k : Nat} (hk : k ≤ 2 ^ logN) :
    dftIm logN x (2 ^ logN - k) = -dftIm logN x k := by
  simp only [dftIm, dft_angle_sub logN _ hk, Real.sin_nat_mul_two_pi_sub, mul_neg, Finset.sum_neg_distrib]

theorem dftIm_zero (logN : Nat) (x : List ℝ) : dftIm logN x 0 = 0 := by simp [dftIm]

theorem dftRe_zero {logN : Nat} {x : List ℝ} (hlen : x.length = 2 ^ logN) : dftRe logN x 0 = x.sum := by
  simp [dftRe, ← hlen, Finset.sum_range]

/-- Settles O46: the transform at `N - k` against that at `k`, of which bin `N/2` is the case `k = N - k`. -/
theorem realSpectrumIsConjugateSymmetric : Obligations.RealSpectrumIsConjugateSymmetric := by
  intro logN x hL hlen
  have hpos := Nat.two_pow_pos logN
  have hre {k : Nat} (hk : k < 2 ^ logN) := (transform_getD hlen hk).1
  have him {k : Nat} (hk : k < 2 ^ logN) := (transform_getD hlen hk).2
  refine ⟨fun k hk₁ hk => ?_, ?_, ?_, fun hsum => ?_⟩
  · have hsub : 2 ^ logN - k < 2 ^ logN := by omega
    exact ⟨by rw [hre hsub, hre hk, dftRe_sub logN x hk.le], by rw [him hsub, him hk, dftIm_sub logN x hk.le]⟩
  · rw [him hpos, dftIm_zero]
  · have hself : 2 ^ logN - 2 ^ logN / 2 = 2 ^ logN / 2 := by
      obtain ⟨l, rfl⟩ := Nat.exists_eq_add_of_le' hL
      rw [pow_succ]
      omega
    have hneg := dftIm_sub logN x (Nat.div_le_self (2 ^ logN) 2)
    rw [hself] at hneg
    rw [him (by omega)]
    linarith
  · rw [hre hpos, dftRe_zero hlen, hsum]

/-! ## The mathematical inverse (42 R171) -/

/-- The inverse at index `n` as one complex number. -/
theorem inverseDft_eq (logN : Nat) (y : Spectrum ℝ) (n : Nat) :
    (⟨inverseDftRe logN y n, inverseDftIm logN y n⟩ : ℂ) =
      (1 / 2 ^ logN : ℝ) * ∑ k ∈ Finset.range (2 ^ logN), y.bin k * (dftRoot logN)⁻¹ ^ (n * k) := by
  have hangle (k : Nat) : 2 * Real.pi * n * k / 2 ^ logN = 2 * Real.pi * (n * k : ℕ) / 2 ^ logN := by
    rw [Nat.cast_mul, mul_assoc _ (n : ℝ)]
  apply Complex.ext
  · rw [Complex.re_ofReal_mul, Complex.re_sum]
    simp only [inverseDftRe, dftRoot_inv_pow, Spectrum.bin, Complex.mul_re, hangle]
  · rw [Complex.im_ofReal_mul, Complex.im_sum]
    simp only [inverseDftIm, dftRoot_inv_pow, Spectrum.bin, Complex.mul_im, hangle]

/-- The powers of the root at two indices are orthogonal. -/
theorem sum_dftRoot_mul_inv {logN m n : Nat} (hm : m < 2 ^ logN) (hn : n < 2 ^ logN) :
    ∑ k ∈ Finset.range (2 ^ logN), dftRoot logN ^ (m * k) * (dftRoot logN)⁻¹ ^ (n * k)
      = if m = n then 2 ^ logN else 0 := by
  have hprim := dftRoot_isPrimitiveRoot logN
  have hne : dftRoot logN ^ n ≠ 0 := pow_ne_zero n (hprim.ne_zero (by positivity))
  have hgeom (k : Nat) : dftRoot logN ^ (m * k) * (dftRoot logN)⁻¹ ^ (n * k)
      = (dftRoot logN ^ m / dftRoot logN ^ n) ^ k := by
    rw [pow_mul, pow_mul, ← mul_pow, inv_pow, div_eq_mul_inv]
  simp only [hgeom]
  split_ifs with h
  · simp [h, div_self hne]
  · have hratio : dftRoot logN ^ m / dftRoot logN ^ n ≠ 1 := fun h1 =>
      h (hprim.pow_inj hm hn ((div_eq_one_iff_eq hne).1 h1))
    have hone : (dftRoot logN ^ m / dftRoot logN ^ n) ^ 2 ^ logN = 1 := by
      rw [div_pow, ← pow_mul, ← pow_mul, mul_comm m, mul_comm n, pow_mul, pow_mul, hprim.pow_eq_one, one_pow, one_pow,
        div_one]
    rw [geom_sum_eq hratio, hone, sub_self, zero_div]

/-- Only the terms of index `n` are left of the inverse sum at `n`. -/
theorem sum_transform_bin_mul_inv {logN n : Nat} {x : List ℝ} (hlen : x.length = 2 ^ logN) (hn : n < 2 ^ logN) :
    ∑ k ∈ Finset.range (2 ^ logN), (transform (numReal logN) logN x).bin k * (dftRoot logN)⁻¹ ^ (n * k)
      = 2 ^ logN * x.getD n 0 := by
  calc ∑ k ∈ Finset.range (2 ^ logN), (transform (numReal logN) logN x).bin k * (dftRoot logN)⁻¹ ^ (n * k)
      = ∑ k ∈ Finset.range (2 ^ logN), ∑ m ∈ Finset.range (2 ^ logN),
          (x.getD m 0 : ℂ) * (dftRoot logN ^ (m * k) * (dftRoot logN)⁻¹ ^ (n * k)) := by
        refine Finset.sum_congr rfl fun k hk => ?_
        rw [transform_bin hlen (Finset.mem_range.1 hk), ← decimatedDft_eq_dft, decimatedDft, Finset.sum_mul]
        simp only [zero_add, mul_one, mul_assoc]
    _ = ∑ m ∈ Finset.range (2 ^ logN), (x.getD m 0 : ℂ) * if m = n then 2 ^ logN else 0 := by
        rw [Finset.sum_comm]
        refine Finset.sum_congr rfl fun m hm => ?_
        rw [← Finset.mul_sum, sum_dftRoot_mul_inv (Finset.mem_range.1 hm) hn]
    _ = 2 ^ logN * x.getD n 0 := by simp [hn, mul_comm]

theorem inverseDft_transform {logN n : Nat} {x : List ℝ} (hlen : x.length = 2 ^ logN) (hn : n < 2 ^ logN) :
    (⟨inverseDftRe logN (transform (numReal logN) logN x) n, inverseDftIm logN (transform (numReal logN) logN x) n⟩ : ℂ)
      = x.getD n 0 := by
  rw [inverseDft_eq, sum_transform_bin_mul_inv hlen hn]
  push_cast
  field_simp

/-- Settles O48: the real and the imaginary part of the inverse, which is the input as a complex number. -/
theorem realRoundTripGivesTheInputBack : Obligations.RealRoundTripGivesTheInputBack := by
  intro logN x hlen n hn
  obtain ⟨hre, him⟩ := Complex.ext_iff.1 (inverseDft_transform hlen hn)
  refine ⟨?_, him⟩
  rw [show inverseDftRe _ _ n = x.getD n 0 from hre]
  simp [hlen, hn]

end Sys2Proof.Machine
end

section
/-! The magnitude converter, the peak detector and the Reading (43 R181 to R187): what `MAG`, `PEAK` and `PUB` write, the scan
as the lowest maximum, and the sinusoid over the real numbers (43 R189). -/

namespace Sys2Proof.Machine

/-! ## The magnitudes and the Reading (43 R181, R187) -/

theorem magnitudes_getElem? {R P : Type} (num : Num R P) {bins k : Nat} {xr xi : List R} {a b : R} (hk : k < bins)
    (ha : xr[k]? = some a) (hb : xi[k]? = some b) : (magnitudes num bins xr xi)[k]? = some (magnitudeOf num a b) := by
  simp [magnitudes, hk, ha, hb]

/-- Settles O22: `MAG` asks for its phase and two arrays of `N` values, and fills one bin after the other. -/
theorem magComputesTheFirstHalf : Obligations.MagComputesTheFirstHalf :=
  fun s xr xi hph hxr hxi hr hi =>
    ⟨_, exec_mag.2 ⟨hph, xr, hxr, hr, xi, hxi, hi, rfl⟩, magnitudes_length .., fun _ _ _ hk ha hb =>
      magnitudes_getElem? s.num.toNum hk ha hb⟩

/-- Settles O25: `PUB` asks for its phase and a bin in `KMAX`. -/
theorem pubPublishesTheReading : Obligations.PubPublishesTheReading := fun _ k hph hk =>
  exec_pub.2 ⟨hph, k, hk, rfl⟩

/-! ## The scan (43 R184) -/

section scan

variable {R P : Type} (num : Num R P)

/-- One round of 43 R184's loop over an array: bin `j` against the stored maximum. -/
def scanStep (l : List R) (best : Nat × R) (j : Nat) : Nat × R :=
  if num.gt (l.getD j num.zero) best.2 then (j, l.getD j num.zero) else best

theorem scanFrom_drop (l vs : List R) (k : Nat) (best : Nat × R) (h : l.drop k = vs) :
    scanFrom num k best vs = (List.range' k vs.length).foldl (scanStep num l) best := by
  induction vs generalizing k best with
  | nil => rfl
  | cons v vs ih =>
    have hv : l.getD k num.zero = v := by rw [List.getD_eq_getElem?_getD, ← List.head?_drop, h]; rfl
    have htail : l.drop (k + 1) = vs := by rw [← List.tail_drop, h, List.tail_cons]
    rw [scanFrom, ih (k + 1) _ htail, List.length_cons, List.range'_succ, List.foldl_cons, scanStep, hv]

/-- The scan is the spec's loop from bin 1 up, bin 0 being stored first. -/
theorem peakScan_eq_foldl {l : List R} (h : 0 < l.length) :
    peakScan num l = (List.range' 1 (l.length - 1)).foldl (scanStep num l) (0, l.getD 0 num.zero) := by
  cases l with
  | nil => simp at h
  | cons m ms => exact scanFrom_drop num (m :: ms) ms 1 (0, m) rfl

/-- The stored maximum after a scanned value is the value of the stored bin. -/
theorem getElem?_scanned {seen : List R} {best : Nat × R} (v : R) (h : seen[best.1]? = some best.2) :
    (seen ++ [v])[(if num.gt v best.2 then (seen.length, v) else best).1]?
      = some (if num.gt v best.2 then (seen.length, v) else best).2 := by
  split_ifs
  · exact List.getElem?_concat_length
  · rw [List.getElem?_append_left (List.getElem?_eq_some_iff.1 h).1, h]

theorem scanFrom_getElem? (vs seen : List R) (best : Nat × R) (h : seen[best.1]? = some best.2) :
    (seen ++ vs)[(scanFrom num seen.length best vs).1]? = some (scanFrom num seen.length best vs).2 := by
  induction vs generalizing seen best with
  | nil => rwa [List.append_nil]
  | cons v vs ih =>
    have hnext := ih (seen ++ [v]) _ (getElem?_scanned num v h)
    rwa [List.append_assoc, List.length_append] at hnext

theorem peakScan_getElem? {l : List R} (h : 0 < l.length) : l[(peakScan num l).1]? = some (peakScan num l).2 := by
  cases l with
  | nil => simp at h
  | cons m ms => exact scanFrom_getElem? num ms [m] (0, m) rfl

/-! ## The result without the loop (43 R184) -/

/-- No value of the list exceeds the stored maximum, which exceeds every value before the stored bin. -/
structure LowestMaximum (l : List R) (best : Nat × R) : Prop where
  max    : ∀ w ∈ l, num.gt w best.2 = false
  lowest : ∀ j w, j < best.1 → l[j]? = some w → num.gt best.2 w = true

variable {num} {dom : R → Prop} {same : R → R → Prop}

/-- A value that exceeds a value of the list exceeds every value that one is not exceeded by. -/
theorem StrictOrderOn.gt_of_gt_of_not_gt (ho : StrictOrderOn num dom same) {v m w : R} (hv : dom v) (hm : dom m)
    (hw : dom w) (hvm : num.gt v m = true) (hwm : num.gt w m = false) : num.gt v w = true := by
  rcases ho.total v w hv hw with h | h | h
  · exact h
  · rw [ho.trans w v m hw hv hm h hvm] at hwm
    cases hwm
  · rw [← ho.congr_left v w m hv hw hm h, hvm] at hwm
    cases hwm

theorem StrictOrderOn.not_gt_of_gt (ho : StrictOrderOn num dom same) {v w : R} (hv : dom v) (hw : dom w)
    (h : num.gt v w = true) : num.gt w v = false := by
  by_contra hwv
  rw [Bool.not_eq_false] at hwv
  have hself := ho.trans v w v hv hw hv h hwv
  rw [ho.irrefl v hv] at hself
  cases hself

theorem LowestMaximum.scanned (ho : StrictOrderOn num dom same) {seen : List R} {best : Nat × R} {v : R}
    (h : LowestMaximum num seen best) (hbest : seen[best.1]? = some best.2) (hseen : ∀ w ∈ seen, dom w) (hv : dom v) :
    LowestMaximum num (seen ++ [v]) (if num.gt v best.2 then (seen.length, v) else best) := by
  have hm : dom best.2 := hseen _ (List.mem_of_getElem? hbest)
  split_ifs with hgt
  · have hover {w : R} (hw : w ∈ seen) : num.gt v w = true :=
      ho.gt_of_gt_of_not_gt hv hm (hseen w hw) hgt (h.max w hw)
    refine ⟨fun w hw => ?_, fun j w hj hw => ?_⟩
    · rcases List.mem_append.1 hw with hw | hw
      · exact ho.not_gt_of_gt hv (hseen w hw) (hover hw)
      · rw [List.mem_singleton.1 hw]
        exact ho.irrefl v hv
    · rw [List.getElem?_append_left hj] at hw
      exact hover (List.mem_of_getElem? hw)
  · refine ⟨fun w hw => ?_, fun j w hj hw => ?_⟩
    · rcases List.mem_append.1 hw with hw | hw
      · exact h.max w hw
      · rw [List.mem_singleton.1 hw]
        exact Bool.not_eq_true _ ▸ hgt
    · rw [List.getElem?_append_left (hj.trans (List.getElem?_eq_some_iff.1 hbest).1)] at hw
      exact h.lowest j w hj hw

theorem LowestMaximum.scanFrom (ho : StrictOrderOn num dom same) {vs seen : List R} {best : Nat × R}
    (h : LowestMaximum num seen best) (hbest : seen[best.1]? = some best.2) (hdom : ∀ w ∈ seen ++ vs, dom w) :
    LowestMaximum num (seen ++ vs) (scanFrom num seen.length best vs) := by
  induction vs generalizing seen best with
  | nil => rwa [List.append_nil]
  | cons v vs ih =>
    have hstep := h.scanned ho hbest (fun w hw => hdom w (List.mem_append_left _ hw)) (hdom v (by simp))
    have hnext := ih hstep (getElem?_scanned num v hbest) (by rwa [List.append_assoc])
    rwa [List.append_assoc, List.length_append] at hnext

/-- Under a strict total order on the values the scan finds the lowest maximum. -/
theorem peakScan_lowestMaximum {l : List R} (ho : StrictOrderOn num dom same) (hdom : ∀ w ∈ l, dom w) :
    LowestMaximum num l (peakScan num l) := by
  cases l with
  | nil => exact ⟨by simp, by simp⟩
  | cons m ms =>
    have hfirst : LowestMaximum num [m] (0, m) :=
      ⟨fun w hw => by rw [List.mem_singleton.1 hw]; exact ho.irrefl m (hdom m List.mem_cons_self), by simp⟩
    exact hfirst.scanFrom ho rfl hdom

end scan

/-- Settles O23: the model's scan of the array is the spec's loop, and finds the lowest maximum. -/
theorem peakFindsTheLowestMaximum : Obligations.PeakFindsTheLowestMaximum := by
  intro s mg hph hmg hlen
  have hpos : 0 < mg.length := hlen ▸ s.cfg.bins_pos
  have hbin := peakScan_getElem? s.num.toNum hpos
  refine ⟨_, _, exec_peak.2 ⟨hph, mg, hmg, hlen, rfl⟩, ?_, hlen ▸ peakScan_index_lt _ hpos, hbin, fun same ho => ?_⟩
  · rw [← hlen]
    exact peakScan_eq_foldl s.num.toNum hpos
  · obtain ⟨hmax, hlowest⟩ := peakScan_lowestMaximum ho fun _ hw => hw
    exact ⟨hmax, fun j v hj hv => ⟨_, List.mem_of_getElem? hbin, hlowest j v hj hv⟩⟩

/-! ## Equal magnitudes (43 R185, R186) -/

theorem scanFrom_replicate {R P : Type} (num : Num R P) {z : R} (hz : num.gt z z = false) (n k i : Nat) :
    scanFrom num k (i, z) (List.replicate n z) = (i, z) := by
  induction n generalizing k with
  | zero => rfl
  | succ n ih => simp [List.replicate_succ, scanFrom, hz, ih]

/-- Settles O24: no equal magnitude replaces the one of bin 0. -/
theorem equalMagnitudesReportBinZero : Obligations.EqualMagnitudesReportBinZero := by
  intro R P num z bins hz hbins
  obtain ⟨n, rfl⟩ := Nat.exists_eq_add_of_le' hbins
  exact scanFrom_replicate num hz n 1 0

/-! ## A sinusoid over the real numbers (42 R169, 43 R189) -/

theorem numReal_strictOrderOn (logN : Nat) (dom : ℝ → Prop) : StrictOrderOn (numReal logN) dom (· = ·) where
  irrefl _ _ := decide_eq_false (lt_irrefl _)
  trans _ _ _ _ _ _ hab hbc := decide_eq_true ((of_decide_eq_true hbc).trans (of_decide_eq_true hab))
  total a b _ _ := by
    rcases lt_trichotomy b a with h | h | h
    · exact .inl (decide_eq_true h)
    · exact .inr (.inr h.symm)
    · exact .inr (.inl (decide_eq_true h))
  congr_left _ _ _ _ _ _ h := by rw [h]
  congr_right _ _ _ _ _ _ h := by rw [h]

theorem magnitudes_transform_numReal {logN k : Nat} {x : List ℝ} (hlen : x.length = 2 ^ logN) (hk : k < 2 ^ logN / 2) :
    (magnitudes (numReal logN) (2 ^ logN / 2) (transform (numReal logN) logN x).re (transform (numReal logN) logN x).im)[k]?
      = some ‖decimatedDft x logN 0 1 k‖ := by
  have hkN : k < 2 ^ logN := by omega
  obtain ⟨hre, him⟩ := (transform_hasLength (numReal logN) logN x).getElem?_of_bin hkN (transform_bin hlen hkN)
  rw [magnitudes_getElem? _ hk hre him, decimatedDft_eq_dft]
  rfl

/-- A sample of the sinusoid as two opposite rotations. -/
theorem cos_eq_rotations (logN k0 : Nat) (amp phase : ℝ) (n : Nat) :
    ((amp * Real.cos (2 * Real.pi * k0 * n / 2 ^ logN + phase) : ℝ) : ℂ) =
      amp / 2 * (Complex.exp (phase * Complex.I) * (dftRoot logN)⁻¹ ^ (k0 * n)
        + Complex.exp (-(phase * Complex.I)) * dftRoot logN ^ (k0 * n)) := by
  set angle : ℝ := 2 * Real.pi * k0 * n / 2 ^ logN with hangle
  have hback : dftRoot logN ^ (k0 * n) = Complex.exp (-(angle * Complex.I)) := by
    rw [dftRoot, ← Complex.exp_nat_mul, hangle]
    congr 1
    push_cast
    ring
  rw [inv_pow, hback, ← Complex.exp_neg, neg_neg, ← Complex.exp_add, ← Complex.exp_add, Complex.ofReal_mul,
    Complex.ofReal_cos, Complex.cos, Complex.ofReal_add]
  ring_nf

/-- The transform of a sinusoid at an integer bin of the lower half has one bin there that is not zero (42 R169). -/
theorem decimatedDft_sinusoid {logN k0 k : Nat} {amp phase : ℝ} {x : List ℝ} (hk0 : 1 ≤ k0) (hk0' : k0 < 2 ^ logN / 2)
    (hk : k < 2 ^ logN / 2)
    (hx : ∀ n : Nat, n < 2 ^ logN → x[n]? = some (amp * Real.cos (2 * Real.pi * k0 * n / 2 ^ logN + phase))) :
    decimatedDft x logN 0 1 k = amp / 2 * Complex.exp (phase * Complex.I) * if k = k0 then 2 ^ logN else 0 := by
  have hforth := sum_dftRoot_mul_inv (logN := logN) (m := k) (n := k0) (by omega) (by omega)
  have hback := sum_dftRoot_mul_inv (logN := logN) (m := k0 + k) (n := 0) (by omega) (by omega)
  rw [if_neg (by omega)] at hback
  calc decimatedDft x logN 0 1 k
      = ∑ n ∈ Finset.range (2 ^ logN), (amp / 2 * Complex.exp (phase * Complex.I)
            * (dftRoot logN ^ (k * n) * (dftRoot logN)⁻¹ ^ (k0 * n))
          + amp / 2 * Complex.exp (-(phase * Complex.I))
            * (dftRoot logN ^ ((k0 + k) * n) * (dftRoot logN)⁻¹ ^ (0 * n))) := by
        refine Finset.sum_congr rfl fun n hn => ?_
        rw [zero_add, mul_one, List.getD_eq_getElem?_getD, hx n (Finset.mem_range.1 hn), Option.getD_some,
          cos_eq_rotations]
        ring
    _ = amp / 2 * Complex.exp (phase * Complex.I) * if k = k0 then 2 ^ logN else 0 := by
        rw [Finset.sum_add_distrib, ← Finset.mul_sum, ← Finset.mul_sum, hforth, hback, mul_zero, add_zero]

theorem norm_sinusoid_peak {amp : ℝ} (hamp : 0 < amp) (phase : ℝ) (n : Nat) :
    ‖(amp / 2 * Complex.exp (phase * Complex.I) * 2 ^ n : ℂ)‖ = amp * 2 ^ n / 2 := by
  rw [norm_mul, norm_mul, Complex.norm_exp_ofReal_mul_I, norm_div, Complex.norm_of_nonneg hamp.le, norm_pow,
    Complex.norm_ofNat]
  ring

/-- Settles O47: every other bin is zero, so that the one bin is the maximum wherever the scan meets it. -/
theorem realSinusoidIsReportedExactly : Obligations.RealSinusoidIsReportedExactly := by
  intro logN k0 amp phase binres cs hk0 hk0' hamp hlen hcs x mg
  have hmag {k : Nat} (hk : k < 2 ^ logN / 2) :
      mg[k]? = some ‖(amp / 2 * Complex.exp (phase * Complex.I) * if k = k0 then 2 ^ logN else 0 : ℂ)‖ := by
    rw [← decimatedDft_sinusoid hk0 hk0' hk hcs]
    exact magnitudes_transform_numReal hlen hk
  have hpeak : mg[k0]? = some (amp * 2 ^ logN / 2) := by
    rw [hmag hk0', if_pos rfl, norm_sinusoid_peak hamp]
  have hother {k : Nat} (hk : k < 2 ^ logN / 2) (hne : k ≠ k0) : mg[k]? = some 0 := by
    rw [hmag hk, if_neg hne, mul_zero, norm_zero]
  have hpos : 0 < mg.length := by rw [magnitudes_length]; omega
  have hkmax : (peakScan (numReal logN) mg).1 = k0 := by
    by_contra hne
    have hbin := peakScan_getElem? (numReal logN) hpos
    have hlt := peakScan_index_lt (numReal logN) hpos
    rw [magnitudes_length] at hlt
    have hmax := (peakScan_lowestMaximum (numReal_strictOrderOn logN fun _ => True) fun _ _ => trivial).max _
      (List.mem_of_getElem? hpeak)
    rw [hother hlt hne, Option.some_inj] at hbin
    rw [← hbin] at hmax
    exact of_decide_eq_false hmax (by positivity)
  exact ⟨hpeak, fun _ hk hne => hother hk hne, hkmax, by rw [hkmax]; rfl⟩

end Sys2Proof.Machine
end

section
/-! Binary32 (45_numerics R234 to R238): the fields of a packed word, the sums and products that come out exact, the signed
zeros and the finite twiddles. -/

namespace Sys2Proof.Machine.F32

/-! ## The fields of a packed word -/

theorem pack_toNat (s : Bool) {m : Nat} (hm : m < 2 ^ 31) : (pack s m).toNat = s.toNat * 2 ^ 31 + m := by
  rw [pack, BitVec.toNat_append, BitVec.toNat_ofBool, BitVec.toNat_ofNat, Nat.mod_eq_of_lt hm,
    ← Nat.shiftLeft_add_eq_or_of_lt hm, Nat.shiftLeft_eq]

@[simp] theorem sign_pack (s : Bool) (m : Nat) : sign (pack s m) = s := by
  rw [sign, pack, BitVec.msb_append, if_neg one_ne_zero]
  cases s <;> rfl

theorem exponent_pack (s : Bool) {m : Nat} (hm : m < 2 ^ 31) : exponent (pack s m) = m / 2 ^ 23 := by
  have := s.toNat_le
  rw [exponent, BitVec.extractLsb'_toNat, pack_toNat s hm, Nat.shiftRight_eq_div_pow]
  omega

theorem fraction_pack (s : Bool) {m : Nat} (hm : m < 2 ^ 31) : fraction (pack s m) = m % 2 ^ 23 := by
  rw [fraction, BitVec.extractLsb'_toNat, pack_toNat s hm, Nat.shiftRight_zero]
  omega

theorem isFinite_pack (s : Bool) {m : Nat} (hm : m < 255 * 2 ^ 23) : isFinite (pack s m) = true := by
  rw [isFinite, exponent_pack s (by omega), bne_iff_ne]
  omega

/-- A significand `q` of 24 bits over `k` dropped bits, which a subnormal has none of. -/
theorem magnitude_pack (s : Bool) {k q : Nat} (hk : k ≤ 253) (hq : q < 2 ^ 24) (hnormal : k = 0 ∨ 2 ^ 23 ≤ q) :
    magnitude (pack s (k * 2 ^ 23 + q)) = q * 2 ^ k := by
  rw [magnitude, exponent_pack s (by omega), fraction_pack s (by omega)]
  by_cases hsub : q < 2 ^ 23
  · obtain rfl : k = 0 := by omega
    rw [if_pos (by omega)]
    omega
  · rw [if_neg (by omega), show (k * 2 ^ 23 + q) / 2 ^ 23 - 1 = k by omega,
      show 2 ^ 23 + (k * 2 ^ 23 + q) % 2 ^ 23 = q by omega]

theorem isNan_of_isFinite {w : Word} (h : isFinite w = true) : isNan w = false := by
  rw [isFinite, bne_iff_ne] at h
  simp [isNan, h]

theorem isInf_of_isFinite {w : Word} (h : isFinite w = true) : isInf w = false := by
  rw [isFinite, bne_iff_ne] at h
  simp [isInf, h]

/-! ## The negative of a word -/

theorem sign_neg (w : Word) : sign (neg w) = !sign w := by
  rw [sign, neg, BitVec.msb_xor, show (0x80000000#32).msb = true from rfl, Bool.xor_true]
  rfl

theorem exponent_neg (w : Word) : exponent (neg w) = exponent w := by
  simp [exponent, neg, BitVec.extractLsb'_xor]

theorem fraction_neg (w : Word) : fraction (neg w) = fraction w := by
  simp [fraction, neg, BitVec.extractLsb'_xor]

theorem isFinite_neg (w : Word) : isFinite (neg w) = isFinite w := by rw [isFinite, exponent_neg, isFinite]

theorem magnitude_neg (w : Word) : magnitude (neg w) = magnitude w := by
  rw [magnitude, exponent_neg, fraction_neg, magnitude]

theorem units_neg (w : Word) : units (neg w) = -units w := by
  rw [units, units, sign_neg, magnitude_neg]
  cases sign w <;> simp

/-! ## Finite operands -/

section finite

variable {a b : Word} (ha : isFinite a = true) (hb : isFinite b = true)
include ha hb

theorem addAs_of_isFinite (op : NanOp) : addAs op a b = addFinite a b := by
  simp [addAs, isNan_of_isFinite, isInf_of_isFinite, ha, hb]

theorem add_of_isFinite : add a b = addFinite a b := addAs_of_isFinite ha hb _

theorem sub_of_isFinite : sub a b = addFinite a (neg b) := by
  have hnan : (isNan a || isNan b) = false := by rw [isNan_of_isFinite ha, isNan_of_isFinite hb, Bool.or_false]
  rw [sub, hnan, addAs_of_isFinite ha ((isFinite_neg b).trans hb)]
  exact if_neg Bool.false_ne_true

theorem mul_of_isFinite : mul a b = roundUnits (sign a != sign b) (magnitude a * magnitude b) (2 ^ 149) := by
  have hnan : (isNan a || isNan b) = false := by rw [isNan_of_isFinite ha, isNan_of_isFinite hb, Bool.or_false]
  have hinf : (isInf a || isInf b) = false := by rw [isInf_of_isFinite ha, isInf_of_isFinite hb, Bool.or_false]
  rw [mul, hnan, hinf]
  exact (if_neg Bool.false_ne_true).trans (if_neg Bool.false_ne_true)

end finite

/-- An exact zero is `+0` unless both terms are negative (45_numerics R237). -/
theorem addFinite_of_units_eq_zero {a b : Word} (h : units a + units b = 0) :
    addFinite a b = pack (sign a && sign b) 0 := by simp [addFinite, h]

theorem sub_self {a : Word} (ha : isFinite a = true) : sub a a = 0 := by
  rw [sub_of_isFinite ha ha, addFinite_of_units_eq_zero (by rw [units_neg, add_neg_cancel]), sign_neg, Bool.and_not_self]
  rfl

/-! ## Rounding -/

theorem roundDiv_le (p q : Nat) : roundDiv p q ≤ p / q + 1 := by
  unfold roundDiv
  dsimp only
  split_ifs <;> omega

theorem roundDiv_mul_left (n : Nat) {d : Nat} (hd : 0 < d) : roundDiv (n * d) d = n := by
  simp [roundDiv, hd, hd.ne]

theorem roundDiv_mul_right (p q : Nat) {c : Nat} (hc : 0 < c) : roundDiv (p * c) (q * c) = roundDiv p q := by
  have hlt : q * c < 2 * (p % q * c) ↔ q < 2 * (p % q) := by rw [← mul_assoc, Nat.mul_lt_mul_right hc]
  have heq : 2 * (p % q * c) = q * c ↔ 2 * (p % q) = q := by rw [← mul_assoc, Nat.mul_left_inj hc.ne']
  simp only [roundDiv, Nat.mul_mod_mul_right, Nat.mul_div_mul_right p q hc, hlt, heq]

/-- Rounding depends on the fraction alone. -/
theorem roundUnits_mul_right (s : Bool) (p q : Nat) {c : Nat} (hc : 0 < c) :
    roundUnits s (p * c) (q * c) = roundUnits s p q := by
  simp only [roundUnits, Nat.mul_div_mul_right p q hc, mul_right_comm q c, roundDiv_mul_right _ _ hc]

theorem roundUnits_mul_self (s : Bool) (n : Nat) {c : Nat} (hc : 0 < c) : roundUnits s (n * c) c = roundUnits s n 1 := by
  rw [← roundUnits_mul_right s n 1 hc, one_mul]

theorem lt_two_pow_dropBits (n : Nat) : n < 2 ^ (dropBits n + 24) :=
  Nat.lt_log2_self.trans_le (Nat.pow_le_pow_right two_pos (by rw [dropBits]; omega))

theorem dropBits_le {n e : Nat} (h : n < 2 ^ (e + 24)) : dropBits n ≤ e := by
  rcases eq_or_ne n 0 with rfl | hn
  · exact Nat.zero_le e
  · have := (Nat.log2_lt hn).2 h
    rw [dropBits]
    omega

theorem le_of_dropBits_ne_zero {n : Nat} (h : dropBits n ≠ 0) : 2 ^ (dropBits n + 23) ≤ n := by
  have hlog : dropBits n + 23 = n.log2 := by rw [dropBits] at h ⊢; omega
  rw [hlog]
  refine Nat.log2_self_le ?_
  rintro rfl
  exact h rfl

/-- Nothing below `2^276` units rounds to an infinity. -/
theorem isFinite_roundUnits (s : Bool) {p q : Nat} (h : p / q < 2 ^ (252 + 24)) : isFinite (roundUnits s p q) = true := by
  have hk : dropBits (p / q) ≤ 252 := dropBits_le h
  have hsig : p / (q * 2 ^ dropBits (p / q)) < 2 ^ 24 := by
    rw [← Nat.div_div_eq_div_mul]
    exact Nat.div_lt_of_lt_mul (by rw [← pow_add]; exact lt_two_pow_dropBits _)
  have hround := roundDiv_le p (q * 2 ^ dropBits (p / q))
  rw [roundUnits, if_neg (by omega)]
  exact isFinite_pack s (by omega)

/-! ## What needs no rounding -/

/-- The numbers of units that 24 significant bits hold below the overflow bound. -/
def Representable (n : Nat) : Prop := ∃ m e : Nat, m < 2 ^ 24 ∧ e ≤ 253 ∧ n = m * 2 ^ e

theorem representable_mul_two_pow {m e : Nat} (hm : m < 2 ^ 24) (he : e ≤ 253) : Representable (m * 2 ^ e) :=
  ⟨m, e, hm, he, rfl⟩

theorem Representable.dropBits_le {n : Nat} (h : Representable n) : dropBits n ≤ 253 ∧ 2 ^ dropBits n ∣ n := by
  obtain ⟨m, e, hm, he, rfl⟩ := h
  have hlt : m * 2 ^ e < 2 ^ (e + 24) := by
    rw [pow_add, mul_comm]
    exact Nat.mul_lt_mul_of_pos_left hm (Nat.two_pow_pos e)
  exact ⟨(F32.dropBits_le hlt).trans he, (pow_dvd_pow 2 (F32.dropBits_le hlt)).mul_left m⟩

/-- A representable number is packed with its 24 highest bits as the significand. -/
theorem Representable.roundUnits_eq {n : Nat} (h : Representable n) (s : Bool) : ∃ k q : Nat,
    k ≤ 253 ∧ q < 2 ^ 24 ∧ (k = 0 ∨ 2 ^ 23 ≤ q) ∧ n = q * 2 ^ k ∧ roundUnits s n 1 = pack s (k * 2 ^ 23 + q) := by
  obtain ⟨hk, q, hq⟩ := h.dropBits_le
  have hpos := Nat.two_pow_pos (dropBits n)
  have hlt : q < 2 ^ 24 := by
    have := lt_two_pow_dropBits n
    rw [pow_add] at this
    exact Nat.lt_of_mul_lt_mul_left (hq.symm.trans_lt this)
  have hnormal : dropBits n = 0 ∨ 2 ^ 23 ≤ q := by
    refine or_iff_not_imp_left.2 fun hne => ?_
    have := le_of_dropBits_ne_zero hne
    rw [pow_add] at this
    exact Nat.le_of_mul_le_mul_left (this.trans_eq hq) hpos
  have hround : roundDiv n (1 * 2 ^ dropBits n) = q := by
    rw [one_mul]
    conv_lhs => arg 1; rw [hq, mul_comm]
    exact roundDiv_mul_left q hpos
  refine ⟨dropBits n, q, hk, hlt, hnormal, by rw [mul_comm]; exact hq, ?_⟩
  rw [roundUnits, Nat.div_one, hround, if_neg (by omega)]

section representable

variable {n : Nat} (h : Representable n) (s : Bool)
include h

theorem Representable.isFinite : isFinite (roundUnits s n 1) = true := by
  obtain ⟨k, q, hk, hq, -, -, heq⟩ := h.roundUnits_eq s
  rw [heq]
  exact isFinite_pack s (by omega)

theorem Representable.magnitude : magnitude (roundUnits s n 1) = n := by
  obtain ⟨k, q, hk, hq, hnormal, hn, heq⟩ := h.roundUnits_eq s
  rw [heq, magnitude_pack s hk hq hnormal, hn]

theorem Representable.sign : sign (roundUnits s n 1) = s := by
  obtain ⟨k, q, -, -, -, -, heq⟩ := h.roundUnits_eq s
  rw [heq, sign_pack]

theorem Representable.units : units (roundUnits false n 1) = n := by
  rw [F32.units, h.sign, h.magnitude, if_neg Bool.false_ne_true]

end representable

/-- A sum that both terms and the rounding leave non-negative. -/
theorem add_roundUnits {p q : Nat} (hp : Representable p) (hq : Representable q) :
    add (roundUnits false p 1) (roundUnits false q 1) = roundUnits false (p + q) 1 := by
  rw [add_of_isFinite (hp.isFinite _) (hq.isFinite _)]
  by_cases hzero : p + q = 0
  · rw [addFinite_of_units_eq_zero (by rw [hp.units, hq.units]; exact_mod_cast hzero), hp.sign, hzero]
    rfl
  · have hsum : (p : Int) + q ≠ 0 := by exact_mod_cast hzero
    have hnonneg : ¬ (p : Int) + q < 0 := by omega
    rw [addFinite, hp.units, hq.units, if_neg hsum, decide_eq_false hnonneg, ← Nat.cast_add, Int.natAbs_natCast]

/-! ## Integers and the factor `1/N` (45_numerics R222, R238) -/

theorem representable_ofNat {n : Nat} (hn : n < 2 ^ 24) : Representable (n * 2 ^ 149) :=
  representable_mul_two_pow hn (by decide)

theorem isFinite_ofNat {n : Nat} (hn : n < 2 ^ 24) : isFinite (ofNat n) = true := (representable_ofNat hn).isFinite _

theorem invPow2_eq {logN : Nat} (h : logN ≤ 126) : invPow2 logN = pack false ((126 - logN) * 2 ^ 23 + 2 ^ 23) := by
  rw [invPow2, ← Nat.succ_mul, Nat.succ_eq_add_one, show 126 - logN + 1 = 127 - logN by omega]

/-- An integer scaled by `1/N` loses no bit. -/
theorem mul_ofNat_invPow2 {n logN : Nat} (hn : n < 2 ^ 24) (hL : logN ≤ 126) :
    mul (ofNat n) (invPow2 logN) = roundUnits false (n * 2 ^ (149 - logN)) 1 := by
  have hint := representable_ofNat hn
  have hpow : 2 ^ 23 * 2 ^ (126 - logN) = 2 ^ (149 - logN) := by
    rw [← pow_add, show 23 + (126 - logN) = 149 - logN by omega]
  rw [invPow2_eq hL, ofNat, mul_of_isFinite (hint.isFinite _) (isFinite_pack _ (by omega)), hint.sign, hint.magnitude,
    sign_pack, magnitude_pack _ (by omega) (by decide) (.inr le_rfl), hpow, mul_right_comm,
    roundUnits_mul_self _ _ (Nat.two_pow_pos 149), bne_self_eq_false]

/-! ## The signed zeros (45_numerics R229, R237) -/

/-- A zero of either sign. -/
def IsZero (w : Word) : Prop := ∃ s, w = pack s 0

theorem isZero_zero : IsZero 0 := ⟨false, rfl⟩

theorem roundUnits_zero (s : Bool) {q : Nat} (hq : 0 < q) : roundUnits s 0 q = pack s 0 := by
  have hone : roundUnits s 0 1 = pack s 0 := by cases s <;> decide
  rw [← hone, ← roundUnits_mul_self s 0 hq, zero_mul]

section zeros

variable {a b : Word} (ha : IsZero a)
include ha

theorem IsZero.isFinite : isFinite a = true := by
  obtain ⟨s, rfl⟩ := ha
  exact isFinite_pack s (by decide)

theorem IsZero.magnitude : magnitude a = 0 := by
  obtain ⟨s, rfl⟩ := ha
  cases s <;> rfl

theorem IsZero.units : units a = 0 := by simp [F32.units, ha.magnitude]

theorem IsZero.neg : IsZero (neg a) := by
  obtain ⟨s, rfl⟩ := ha
  cases s
  · exact ⟨true, rfl⟩
  · exact ⟨false, rfl⟩

theorem IsZero.mul_eq (hb : F32.isFinite b = true) : mul a b = pack (sign a != sign b) 0 := by
  rw [mul_of_isFinite ha.isFinite hb, ha.magnitude, zero_mul, roundUnits_zero _ (Nat.two_pow_pos 149)]

theorem IsZero.mul (hb : F32.isFinite b = true) : IsZero (mul a b) := ⟨_, ha.mul_eq hb⟩

theorem IsZero.add_eq (hb : IsZero b) : add a b = pack (sign a && sign b) 0 := by
  rw [add_of_isFinite ha.isFinite hb.isFinite, addFinite_of_units_eq_zero (by rw [ha.units, hb.units, add_zero])]

theorem IsZero.add (hb : IsZero b) : IsZero (add a b) := ⟨_, ha.add_eq hb⟩

theorem IsZero.sub (hb : IsZero b) : IsZero (sub a b) := by
  rw [sub_of_isFinite ha.isFinite hb.isFinite, ← add_of_isFinite ha.isFinite hb.neg.isFinite]
  exact ha.add hb.neg

/-- A square is `+0`. -/
theorem IsZero.mul_self : F32.mul a a = 0 := by
  rw [ha.mul_eq ha.isFinite, bne_self_eq_false]
  rfl

end zeros

/-! ## The twiddles are finite -/

/-- The partial sums of a series whose terms grow at most `f` times from one to the next. -/
theorem seriesSum_natAbs_le {x2 f : Nat} (fuel : Nat) {k : Nat} (term : Nat) (hx2 : x2 ≤ f * (k * (k + 1)) * 2 ^ 160) :
    (seriesSum x2 fuel k term).natAbs ≤ term * (f + 1) ^ fuel := by
  induction fuel generalizing k term with
  | zero => simp [seriesSum]
  | succ fuel ih =>
    have hnext : term * x2 / (k * (k + 1)) / 2 ^ 160 ≤ term * f := by
      refine Nat.div_le_of_le_mul (Nat.div_le_of_le_mul ?_)
      calc term * x2 ≤ term * (f * (k * (k + 1)) * 2 ^ 160) := Nat.mul_le_mul_left _ hx2
        _ = k * (k + 1) * (2 ^ 160 * (term * f)) := by ring
    have hgrow : f * (k * (k + 1)) * 2 ^ 160 ≤ f * ((k + 2) * (k + 2 + 1)) * 2 ^ 160 := by gcongr <;> omega
    calc (seriesSum x2 (fuel + 1) k term).natAbs
        ≤ term + (seriesSum x2 fuel (k + 2) (term * x2 / (k * (k + 1)) / 2 ^ 160)).natAbs :=
          Int.natAbs_sub_le (term : Int) _
      _ ≤ term * (f + 1) ^ fuel + term * f * (f + 1) ^ fuel :=
          Nat.add_le_add (Nat.le_mul_of_pos_right _ (by positivity))
            ((ih _ (hx2.trans hgrow)).trans (Nat.mul_le_mul_right _ hnext))
      _ = term * (f + 1) ^ (fuel + 1) := by ring

theorem twoPi_lt : twoPi < 2 ^ 163 := by decide

/-- The angles of the butterflies are in the first half turn. -/
theorem angle_lt {logN t : Nat} (ht : 2 * t < 2 ^ logN) : angle logN t < 2 ^ 162 := by
  refine Nat.div_lt_of_lt_mul (Nat.lt_of_mul_lt_mul_left (a := 2) ?_)
  calc 2 * (twoPi * t) = twoPi * (2 * t) := mul_left_comm ..
    _ < 2 ^ 163 * 2 ^ logN := Nat.mul_lt_mul'' twoPi_lt ht
    _ = 2 * (2 ^ logN * 2 ^ 162) := by ring

theorem isFinite_ofFixed {v : Int} (h : v.natAbs < 2 ^ 11 * 2 ^ (252 + 24)) : isFinite (ofFixed v) = true :=
  isFinite_roundUnits _ (Nat.div_lt_of_lt_mul h)

theorem square_div_le {x : Nat} (hx : x < 2 ^ 162) : x * x / 2 ^ 160 ≤ 2 ^ 164 :=
  Nat.div_le_of_le_mul ((Nat.mul_le_mul hx.le hx.le).trans (by norm_num))

theorem isFinite_cosFixed {x : Nat} (hx : x < 2 ^ 162) : isFinite (ofFixed (cosFixed x)) = true := by
  refine isFinite_ofFixed ((seriesSum_natAbs_le (f := 8) 40 _ ((square_div_le hx).trans (by norm_num))).trans_lt ?_)
  calc 2 ^ 160 * (8 + 1) ^ 40 < 2 ^ 160 * 2 ^ 127 := Nat.mul_lt_mul_of_pos_left (by norm_num) (by norm_num)
    _ = 2 ^ 11 * 2 ^ (252 + 24) := by rw [← pow_add, ← pow_add]

theorem isFinite_sinFixed {x : Nat} (hx : x < 2 ^ 162) : isFinite (ofFixed (sinFixed x)) = true := by
  refine isFinite_ofFixed ((seriesSum_natAbs_le (f := 3) 40 _ ((square_div_le hx).trans (by norm_num))).trans_lt ?_)
  calc x * (3 + 1) ^ 40 < 2 ^ 162 * 2 ^ 125 := Nat.mul_lt_mul'' hx (by norm_num)
    _ = 2 ^ 11 * 2 ^ (252 + 24) := by rw [← pow_add, ← pow_add]

theorem isFinite_twc {logN t : Nat} (ht : 2 * t < 2 ^ logN) : isFinite (twc logN t) = true := by
  unfold twc
  split_ifs
  · exact isFinite_ofNat (by decide)
  · exact isZero_zero.isFinite
  · exact isFinite_cosFixed (angle_lt ht)

theorem isFinite_tws {logN t : Nat} (ht : 2 * t < 2 ^ logN) : isFinite (tws logN t) = true := by
  unfold tws
  split_ifs
  · exact isZero_zero.isFinite
  · exact isFinite_ofNat (by decide)
  · exact isFinite_sinFixed (angle_lt ht)

end Sys2Proof.Machine.F32
end

section
/-! The pipeline over a constant block (41 R153, 43 R186, 45_numerics R238): the mean over any `NUM`, butterflies over values
they do not leave, and the whole pipeline in binary32. -/

namespace Sys2Proof.Machine

/-! ## Over any `NUM` -/

/-- The mean of equal samples adds one term again and again (45_numerics NP2). -/
theorem blockMean_replicate {R P : Type} (num : Num R P) (n : Nat) (v : Sample) :
    blockMean num (List.replicate n v) = (fun m => num.add m (num.scaleInvN (num.ofSample v.toNat)))^[n] num.zero := by
  rw [blockMean]
  generalize num.zero = m
  induction n generalizing m with
  | zero => rfl
  | succ n ih => rw [List.replicate_succ, List.foldl_cons, ih, Function.iterate_succ_apply]

theorem centred_replicate {R P : Type} (num : Num R P) (n : Nat) (v : Sample) :
    centred num (List.replicate n v)
      = List.replicate n (num.sub (num.ofSample v.toNat) (blockMean num (List.replicate n v))) := List.map_replicate

section butterflies

variable {R P : Type}

/-- The values `Z` hold the zero, and the butterflies of `N = 2^L` values do not leave them. -/
structure ButterflyClosed (num : Num R P) (logN : Nat) (Z : R → Prop) : Prop where
  zero    : Z num.zero
  mul_twc : ∀ a t, Z a → 2 * t < 2 ^ logN → Z (num.mul a (num.twc t))
  mul_tws : ∀ a t, Z a → 2 * t < 2 ^ logN → Z (num.mul a (num.tws t))
  add     : ∀ a b, Z a → Z b → Z (num.add a b)
  sub     : ∀ a b, Z a → Z b → Z (num.sub a b)

/-- Every element of both arrays satisfies `Z`. -/
def Spectrum.Forall (Z : R → Prop) (x : Spectrum R) : Prop := (∀ v ∈ x.re, Z v) ∧ ∀ v ∈ x.im, Z v

variable {num : Num R P} {logN : Nat} {Z : R → Prop}

theorem getD_of_forall_mem {l : List R} {d : R} (h : ∀ v ∈ l, Z v) (hd : Z d) (i : Nat) : Z (l.getD i d) := by
  rw [List.getD_eq_getElem?_getD]
  cases hi : l[i]? with
  | none => exact hd
  | some v => exact h v (List.mem_of_getElem? hi)

theorem forall_mem_set {l : List R} {a : R} (h : ∀ v ∈ l, Z v) (ha : Z a) (i : Nat) : ∀ v ∈ l.set i a, Z v :=
  fun v hv => (List.mem_or_eq_of_mem_set hv).elim (h v) fun hva => hva ▸ ha

/-- The twiddle indices are in the first half of the table. -/
theorem twiddle_index_lt {logN stage j : Nat} (hj : j < 2 ^ stage / 2) : 2 * (j * (2 ^ logN / 2 ^ stage)) < 2 ^ logN := by
  have hj2 : 2 * j < 2 ^ stage := by omega
  rcases Nat.eq_zero_or_pos (2 ^ logN / 2 ^ stage) with h | h
  · rw [h, mul_zero, mul_zero]
    exact Nat.two_pow_pos logN
  · calc 2 * (j * (2 ^ logN / 2 ^ stage)) = 2 * j * (2 ^ logN / 2 ^ stage) := (mul_assoc ..).symm
      _ < 2 ^ stage * (2 ^ logN / 2 ^ stage) := Nat.mul_lt_mul_of_pos_right hj2 h
      _ ≤ 2 ^ logN := Nat.mul_div_le ..

namespace ButterflyClosed

variable (hZ : ButterflyClosed num logN Z)
include hZ

theorem butterfly_forall {x : Spectrum R} (hx : x.Forall Z) (b j h : Nat) {t : Nat} (ht : 2 * t < 2 ^ logN) :
    (butterfly num b j h (num.twc t) (num.tws t) x).Forall Z := by
  obtain ⟨hre, him⟩ := hx
  have elem {l : List R} (hl : ∀ v ∈ l, Z v) (i : Nat) : Z (l.getD i num.zero) := getD_of_forall_mem hl hZ.zero i
  have hvr := hZ.add _ _ (hZ.mul_twc _ _ (elem hre (b + j + h)) ht) (hZ.mul_tws _ _ (elem him (b + j + h)) ht)
  have hvi := hZ.sub _ _ (hZ.mul_twc _ _ (elem him (b + j + h)) ht) (hZ.mul_tws _ _ (elem hre (b + j + h)) ht)
  exact ⟨forall_mem_set (forall_mem_set hre (hZ.add _ _ (elem hre _) hvr) _) (hZ.sub _ _ (elem hre _) hvr) _,
    forall_mem_set (forall_mem_set him (hZ.add _ _ (elem him _) hvi) _) (hZ.sub _ _ (elem him _) hvi) _⟩

theorem fftStage_forall (stage : Nat) {x : Spectrum R} (hx : x.Forall Z) : (fftStage num logN stage x).Forall Z :=
  foldl_keeps (Spectrum.Forall Z) _
    (fun _ _ hx => List.foldlRecOn _ _ hx fun _ hx _ hj =>
      hZ.butterfly_forall hx _ _ _ (twiddle_index_lt (List.mem_range.1 hj))) _ _ hx

theorem loadReversed_forall {cs : List R} (hcs : ∀ v ∈ cs, Z v) : (loadReversed num logN cs).Forall Z := by
  have hzero : ∀ v ∈ List.replicate (2 ^ logN) num.zero, Z v := fun v hv => List.eq_of_mem_replicate hv ▸ hZ.zero
  exact ⟨List.foldlRecOn (motive := fun l => ∀ v ∈ l, Z v) _ _ hzero fun _ hl _ he =>
    forall_mem_set hl (hcs _ (List.fst_mem_of_mem_zipIdx he)) _, hzero⟩

/-- The transform of such values consists of such values. -/
theorem transform_forall {cs : List R} (hcs : ∀ v ∈ cs, Z v) : (transform num logN cs).Forall Z :=
  foldl_keeps (Spectrum.Forall Z) _ (fun _ _ hx => hZ.fftStage_forall _ hx) _ _ (hZ.loadReversed_forall hcs)

end ButterflyClosed

theorem magnitudes_eq_replicate (bins : Nat) {x : Spectrum R} {z : R} (hx : x.Forall Z) (hzero : Z num.zero)
    (hmag : ∀ a b, Z a → Z b → magnitudeOf num a b = z) : magnitudes num bins x.re x.im = List.replicate bins z := by
  refine List.eq_replicate_iff.2 ⟨magnitudes_length .., fun v hv => ?_⟩
  obtain ⟨k, -, rfl⟩ := List.mem_map.1 hv
  exact hmag _ _ (getD_of_forall_mem hx.1 hzero k) (getD_of_forall_mem hx.2 hzero k)

end butterflies

/-! ## Over binary32 -/

section constantBlock

variable {logN : Nat} {v : Sample}

/-- Every partial sum of the mean of a constant block is exact (45_numerics R238). -/
theorem numF32_partialSum (hL : logN ≤ 126) {k c : Nat} (hk : k * c < 2 ^ 24) (hc : c < 2 ^ 24) :
    (fun m => F32.add m (F32.mul (F32.ofNat c) (F32.invPow2 logN)))^[k] 0
      = F32.roundUnits false (k * c * 2 ^ (149 - logN)) 1 := by
  have hrep {m : Nat} (hm : m < 2 ^ 24) : F32.Representable (m * 2 ^ (149 - logN)) :=
    F32.representable_mul_two_pow hm (by omega)
  rw [F32.mul_ofNat_invPow2 hc hL]
  induction k with
  | zero =>
    rw [zero_mul, zero_mul, F32.roundUnits_zero _ one_pos]
    rfl
  | succ k ih =>
    have hk' : k * c < 2 ^ 24 := (Nat.mul_le_mul_right c k.le_succ).trans_lt hk
    rw [Function.iterate_succ_apply', ih hk', F32.add_roundUnits (hrep hk') (hrep hc), ← add_mul, Nat.succ_mul]

variable (hsize : 2 ^ logN * v.toNat < 2 ^ 24) (hL : logN ≤ 126)
include hsize hL

theorem blockMean_numF32_replicate :
    blockMean (numF32 logN).toNum (List.replicate (2 ^ logN) v) = F32.ofNat v.toNat := by
  have hv : v.toNat < 2 ^ 24 := (Nat.le_mul_of_pos_left _ (Nat.two_pow_pos logN)).trans_lt hsize
  have hunits : 2 ^ logN * v.toNat * 2 ^ (149 - logN) = v.toNat * 2 ^ 149 := by
    rw [mul_right_comm, ← pow_add, Nat.add_sub_cancel' (by omega), mul_comm]
  rw [blockMean_replicate]
  refine (numF32_partialSum hL hsize hv).trans ?_
  rw [hunits, F32.ofNat]

theorem centred_numF32_replicate :
    centred (numF32 logN).toNum (List.replicate (2 ^ logN) v) = List.replicate (2 ^ logN) 0 := by
  have hv : v.toNat < 2 ^ 24 := (Nat.le_mul_of_pos_left _ (Nat.two_pow_pos logN)).trans_lt hsize
  rw [centred_replicate, blockMean_numF32_replicate hsize hL]
  exact congrArg _ (F32.sub_self (F32.isFinite_ofNat hv))

end constantBlock

/-- The signed zeros of binary32 are closed under the butterflies, the twiddles being finite. -/
theorem numF32_butterflyClosed (logN : Nat) : ButterflyClosed (numF32 logN).toNum logN F32.IsZero where
  zero             := F32.isZero_zero
  mul_twc _ _ ha ht := ha.mul (F32.isFinite_twc ht)
  mul_tws _ _ ha ht := ha.mul (F32.isFinite_tws ht)
  add _ _ ha hb    := ha.add hb
  sub _ _ ha hb    := ha.sub hb

theorem magnitudeOf_numF32_zeros (logN : Nat) {a b : Word} (ha : F32.IsZero a) (hb : F32.IsZero b) :
    magnitudeOf (numF32 logN).toNum a b = 0 := by
  have hsquares : magnitudeOf (numF32 logN).toNum a b = F32.sqrt (F32.add 0 0) :=
    congrArg₂ (fun x y => F32.sqrt (F32.add x y)) ha.mul_self hb.mul_self
  rw [hsquares]
  decide

theorem readingOf_numF32_zero (logN : Nat) {binres : Word} (h : F32.isPositive binres = true) :
    readingOf (numF32 logN).toNum 0 binres = 0 := by
  simp only [F32.isPositive, Bool.and_eq_true, Bool.not_eq_true'] at h
  obtain ⟨⟨hfin, hsign⟩, -⟩ := h
  refine (F32.isZero_zero.mul_eq hfin).trans ?_
  rw [hsign]
  rfl

/-- Settles O58: the centred block is all `+0`, the spectrum all signed zeros, the magnitudes all `+0`, so that the scan
stays at bin 0. -/
theorem f32ConstantBlockReadsZero : Obligations.F32ConstantBlockReadsZero := by
  intro c v binres hsum hv hbinres
  have hL : c.logN ≤ 126 := c.logN_range.2.trans (by decide)
  have hsize : 2 ^ c.logN * v.toNat < 2 ^ 24 := calc
    2 ^ c.logN * v.toNat < 2 ^ c.logN * 2 ^ c.sampleW := Nat.mul_lt_mul_of_pos_left hv (Nat.two_pow_pos _)
    _ = 2 ^ (c.logN + c.sampleW) := (pow_add ..).symm
    _ ≤ 2 ^ 24 := Nat.pow_le_pow_right two_pos hsum
  have hspectrum := (numF32_butterflyClosed c.logN).transform_forall (cs := List.replicate (2 ^ c.logN) 0)
    fun w hw => List.eq_of_mem_replicate hw ▸ F32.isZero_zero
  have hmg := magnitudes_eq_replicate (2 ^ c.logN / 2) hspectrum F32.isZero_zero
    fun _ _ => magnitudeOf_numF32_zeros c.logN
  have hirrefl : F32.gt 0 0 = false := by decide
  have hpeak := equalMagnitudesReportBinZero Word Word (numF32 c.logN).toNum 0 (2 ^ c.logN / 2) hirrefl c.bins_pos
  rw [generationReading, Size.n, centred_numF32_replicate hsize hL, hmg, hpeak]
  exact readingOf_numF32_zero c.logN hbinres

end Sys2Proof.Machine
end

section
/-! The four host operations, each as one whole-state update (44 R200, R201, R203, R204), and the fields of the status word
(10_state R36). -/

namespace Sys2Proof.Machine

/-! ## The fields of the status word -/

theorem status_st (s : State) : (status s).extractLsb' 0 2 = ctrlCode s.st := by
  rw [status, statusOver, BitVec.extractLsb'_setWidth_of_le (by decide)]
  exact BitVec.extractLsb'_append_eq_right

theorem status_rv (s : State) : (status s).getLsbD 2 = s.rv := by
  rw [status, statusOver, BitVec.getLsbD_setWidth, BitVec.getLsbD_append, BitVec.getLsbD_append]
  simp

theorem status_bit_three (s : State) : (status s).getLsbD 3 = false := by
  rw [status, statusOver, BitVec.getLsbD_setWidth, BitVec.getLsbD_append, BitVec.getLsbD_append, BitVec.getLsbD_append]
  rfl

theorem status_ph (s : State) : (status s).extractLsb' 4 4 = phaseCode s.ph := by
  rw [status, statusOver, BitVec.extractLsb'_setWidth_of_le (by decide),
    BitVec.extractLsb'_append_eq_of_le (by decide), BitVec.extractLsb'_append_eq_of_le (by decide)]
  exact BitVec.extractLsb'_append_eq_left

/-- The four fields take eight bits, and the extension to 32 adds zeros. -/
theorem status_high (s : State) : (status s).extractLsb' 8 24 = 0#24 := by
  refine BitVec.eq_of_getLsbD_eq fun i _ => ?_
  rw [status, statusOver, BitVec.getLsbD_extractLsb', BitVec.getLsbD_setWidth,
    BitVec.getLsbD_of_ge _ (8 + i) (Nat.le_add_right 8 i), Bool.and_false, Bool.and_false, BitVec.getLsbD_zero]

/-! ## `INIT` -/

theorem resolutionOf_of_binResDom {R P A W : Type} {b : Built R P A W} {epoch : Nat} {p : P}
    (h : b.num.binResDom p = true) : resolutionOf b epoch p = b.num.binRes p := if_pos h

theorem exec_init_of_idle {s : State} (h : s.st = .idle) (arg : Word) :
    exec (.init arg) s = .next { s with
      period := s.num.decP arg
      binres := resolutionOf s.built s.epoch (s.num.decP arg)
      st := .acquiring
      gen := s.gen + 1
      resp := some 0 } :=
  exec_init.2 (.inl ⟨h, rfl⟩)

theorem exec_init_of_not_idle {s : State} (h : s.st ≠ .idle) (arg : Word) :
    exec (.init arg) s = .next { s with resp := some 0 } :=
  exec_init.2 (.inr ⟨h, rfl⟩)

/-! ## The obligations -/

/-- Settles O10: the null response is the word zero. -/
theorem nopRespondsZeroAndChangesNothing : Obligations.NopRespondsZeroAndChangesNothing := fun _ => exec_nop.2 rfl

/-- Settles O11: by whether the state is `Idle`; there the resolution is `binRes` in its domain, and outside it the
unspecified draw is the value whose existence is claimed. -/
theorem initArmsFromIdleAndIsDroppedElsewhere : Obligations.InitArmsFromIdleAndIsDroppedElsewhere := by
  intro s arg
  refine ⟨fun hidle hdom => ?_, fun hidle _ => ⟨_, exec_init_of_idle hidle arg⟩,
    fun hbusy => exec_init_of_not_idle hbusy arg⟩
  rw [exec_init_of_idle hidle, resolutionOf_of_binResDom hdom, built_num]

/-- Settles O12: the response carries `NUM.enc` of the Reading. -/
theorem rdfreqRespondsWithTheReading : Obligations.RdfreqRespondsWithTheReading := fun _ => exec_rdfreq.2 rfl

/-- Settles O13: the response is `STATUS`, whose fields are those of R36. -/
theorem rdstatRespondsWithTheStatusLayout : Obligations.RdstatRespondsWithTheStatusLayout := fun s =>
  ⟨status s, exec_rdstat.2 rfl, status_st s, status_rv s, status_bit_three s, status_ph s, status_high s⟩

end Sys2Proof.Machine
end

section
/-! Binary32 where nothing is rounded (45_numerics R222, R225, R227, R229, R238): the integers, the quarters of the twiddle
tables, the order of the finite words, the zero laws and the mean of a constant block. -/

namespace Sys2Proof.Machine.F32

/-! ## The fields of a word -/

theorem fraction_lt (w : Word) : fraction w < 2 ^ 23 := (w.extractLsb' 0 23).isLt

theorem exponent_le (w : Word) : exponent w ≤ 255 := Nat.le_of_lt_succ (w.extractLsb' 23 8).isLt

theorem exponent_le_of_isFinite {w : Word} (h : isFinite w = true) : exponent w ≤ 254 := by
  rw [isFinite, bne_iff_ne] at h
  have := exponent_le w
  omega

/-- A word is its sign, its exponent field and its fraction field. -/
theorem pack_fields (w : Word) : pack (sign w) (exponent w * 2 ^ 23 + fraction w) = w := by
  have hfraction := fraction_lt w
  have hexponent := exponent_le w
  refine BitVec.eq_of_toNat_eq ?_
  rw [pack_toNat _ (by omega), sign, BitVec.msb_eq_toNat, exponent, fraction, BitVec.extractLsb'_toNat,
    BitVec.extractLsb'_toNat, Nat.shiftRight_eq_div_pow, Nat.shiftRight_zero]
  have := w.isLt
  by_cases hsign : 2 ^ 31 ≤ w.toNat
  · rw [decide_eq_true hsign, Bool.toNat_true]
    omega
  · rw [decide_eq_false hsign, Bool.toNat_false]
    omega

/-- The significand of a finite word has 24 bits. -/
theorem representable_magnitude {w : Word} (h : isFinite w = true) : Representable (magnitude w) := by
  have hfraction := fraction_lt w
  have hexponent := exponent_le_of_isFinite h
  unfold magnitude
  split_ifs
  · exact ⟨fraction w, 0, by omega, by decide, (mul_one _).symm⟩
  · exact representable_mul_two_pow (by omega) (by omega)

theorem isZero_of_magnitude_eq_zero {w : Word} (h : magnitude w = 0) : IsZero w := by
  refine ⟨sign w, ?_⟩
  unfold magnitude at h
  split_ifs at h with hexponent
  · conv_lhs => rw [← pack_fields w, hexponent, h, Nat.zero_mul]
  · exact absurd h (by positivity)

theorem units_natAbs (w : Word) : (units w).natAbs = magnitude w := by
  unfold units
  split_ifs <;> simp

theorem isZero_of_units_eq_zero {w : Word} (h : units w = 0) : IsZero w :=
  isZero_of_magnitude_eq_zero (by rw [← units_natAbs, h]; rfl)

/-! ## Values -/

theorem sameValue_of_isZero {a b : Word} (ha : IsZero a) (hb : IsZero b) : SameValue a b :=
  ⟨ha.isFinite, hb.isFinite, ha.units.trans hb.units.symm⟩

/-- Adding a zero of either sign, on either side, keeps the value. -/
theorem addFinite_sameValue {a b c : Word} (ha : isFinite a = true) (h : units b + units c = units a) :
    SameValue (addFinite b c) a := by
  by_cases hzero : units a = 0
  · rw [addFinite_of_units_eq_zero (h.trans hzero)]
    exact sameValue_of_isZero ⟨_, rfl⟩ (isZero_of_units_eq_zero hzero)
  · have hrep := representable_magnitude ha
    rw [addFinite, h, if_neg hzero, units_natAbs]
    refine ⟨hrep.isFinite _, ha, ?_⟩
    rw [units, hrep.sign, hrep.magnitude]
    have habs := units_natAbs a
    by_cases hneg : units a < 0
    · rw [if_pos (decide_eq_true hneg)]
      omega
    · rw [if_neg (by simpa using hneg)]
      omega

theorem gt_of_isFinite {a b : Word} (ha : isFinite a = true) (hb : isFinite b = true) :
    gt a b = decide (units b < units a) := by
  simp [gt, isNan_of_isFinite, isInf_of_isFinite, ha, hb]

theorem ofNat_one : ofNat 1 = 0x3F800000 := by decide

theorem isZero_sub_self {a : Word} (ha : isFinite a = true) : IsZero (sub a a) := sub_self ha ▸ isZero_zero

section zeroLaws

variable {a z : Word} (ha : isFinite a = true) (hz : IsZero z)
include ha hz

theorem mul_isZero : IsZero (mul a z) := by
  rw [mul_of_isFinite ha hz.isFinite, hz.magnitude, Nat.mul_zero, roundUnits_zero _ (Nat.two_pow_pos 149)]
  exact ⟨_, rfl⟩

theorem add_isZero_sameValue : SameValue (add a z) a := by
  rw [add_of_isFinite ha hz.isFinite]
  exact addFinite_sameValue ha (by rw [hz.units, add_zero])

theorem isZero_add_sameValue : SameValue (add z a) a := by
  rw [add_of_isFinite hz.isFinite ha]
  exact addFinite_sameValue ha (by rw [hz.units, zero_add])

theorem sub_isZero_sameValue : SameValue (sub a z) a := by
  rw [sub_of_isFinite ha hz.isFinite]
  exact addFinite_sameValue ha (by rw [hz.neg.units, add_zero])

end zeroLaws

end Sys2Proof.Machine.F32

namespace Sys2Proof.Machine

/-! ## The obligations -/

/-- Settles O49: the integer is a significand of 24 bits at the exponent of one. -/
theorem f32IntegersAreExact : Obligations.F32IntegersAreExact := fun _ hn =>
  ⟨F32.isFinite_ofNat hn, by rw [F32.ofNat, (F32.representable_ofNat hn).units]; norm_cast⟩

/-- Settles O50: the tables name these entries. -/
theorem f32TwiddlesAreExactAtTheQuarters : Obligations.F32TwiddlesAreExactAtTheQuarters := by
  intro logN
  have hquarter (hL : 2 ≤ logN) : 2 ^ logN / 4 ≠ 0 ∧ 4 * (2 ^ logN / 4) = 2 ^ logN := by
    have hdvd : 4 ∣ 2 ^ logN := pow_dvd_pow 2 hL
    have := Nat.two_pow_pos logN
    omega
  refine ⟨F32.ofNat_one, rfl, fun hL => ?_, fun hL => ?_⟩
  · obtain ⟨hne, hfour⟩ := hquarter hL
    exact (if_neg hne).trans (if_pos hfour)
  · obtain ⟨hne, hfour⟩ := hquarter hL
    exact ((if_neg hne).trans (if_pos hfour)).trans F32.ofNat_one

/-- Settles O51: on finite words `gt` compares the numbers of units. -/
theorem f32ComparisonIsAStrictTotalOrder : Obligations.F32ComparisonIsAStrictTotalOrder := by
  intro logN
  have hgt {a b : Word} (ha : F32.isFinite a = true) (hb : F32.isFinite b = true) :
      (numF32 logN).gt a b = decide (F32.units b < F32.units a) := F32.gt_of_isFinite ha hb
  exact
    { irrefl := fun a ha => by rw [hgt ha ha, decide_eq_false (lt_irrefl _)]
      trans := fun a b c ha hb hc hab hbc => by
        rw [hgt ha hb, decide_eq_true_eq] at hab
        rw [hgt hb hc, decide_eq_true_eq] at hbc
        rw [hgt ha hc, decide_eq_true (hbc.trans hab)]
      total := fun a b ha hb => by
        rw [hgt ha hb, hgt hb ha, decide_eq_true_eq, decide_eq_true_eq]
        rcases lt_trichotomy (F32.units b) (F32.units a) with h | h | h
        · exact .inl h
        · exact .inr (.inr ⟨ha, hb, h.symm⟩)
        · exact .inr (.inl h)
      congr_left := fun a b c ha hb hc ⟨_, _, h⟩ => by rw [hgt ha hc, hgt hb hc, h]
      congr_right := fun a b c ha hb hc ⟨_, _, h⟩ => by rw [hgt hc ha, hgt hc hb, h] }

/-- Settles O52: a product with a zero is a zero, and a sum with one is exact. -/
theorem f32ZeroLawsHold : Obligations.F32ZeroLawsHold := fun _ =>
  have hzero := F32.isZero_zero
  { zero_mul := fun _ hb => F32.sameValue_of_isZero (hzero.mul hb) hzero
    mul_zero := fun _ ha => F32.sameValue_of_isZero (F32.mul_isZero ha hzero) hzero
    add_zero := fun _ ha => F32.add_isZero_sameValue ha hzero
    zero_add := fun _ ha => F32.isZero_add_sameValue ha hzero
    sub_zero := fun _ ha => F32.sub_isZero_sameValue ha hzero
    sub_self := fun _ ha => F32.sameValue_of_isZero (F32.isZero_sub_self ha) hzero }

/-- Settles O57: no partial sum of the mean loses a bit, and each sample less itself is `+0`. -/
theorem f32ConstantBlockIsExact : Obligations.F32ConstantBlockIsExact := by
  intro c v hsum hv
  have hL : c.logN ≤ 126 := c.logN_range.2.trans (by decide)
  have hsize : 2 ^ c.logN * v.toNat < 2 ^ 24 :=
    (Nat.mul_lt_mul_of_pos_left hv (Nat.two_pow_pos _)).trans_le
      (pow_add 2 c.logN c.sampleW ▸ Nat.pow_le_pow_right two_pos hsum)
  exact ⟨blockMean_numF32_replicate hsize hL, centred_numF32_replicate hsize hL⟩

end Sys2Proof.Machine
end

section
/-! Rounding to nearest, ties to even, over the real numbers (45_numerics R234): what a significand rounded in this way is
nearest to, and the word it is packed in. -/

namespace Sys2Proof.Machine.F32

/-! ## Signed reals -/

/-- The real number of sign `s` and absolute value `x`. -/
def signed (s : Bool) (x : ℝ) : ℝ := if s then -x else x

@[simp] theorem signed_false (x : ℝ) : signed false x = x := rfl

@[simp] theorem signed_true (x : ℝ) : signed true x = -x := rfl

@[simp] theorem signed_zero (s : Bool) : signed s 0 = 0 := by cases s <;> simp

@[simp] theorem abs_signed (s : Bool) (x : ℝ) : |signed s x| = |x| := by cases s <;> simp

theorem signed_signed_self (s : Bool) (x : ℝ) : signed s (signed s x) = x := by cases s <;> simp

theorem signed_div_right (s : Bool) (x y : ℝ) : signed s x / y = signed s (x / y) := by
  cases s <;> simp [neg_div]

theorem signed_signed (s t : Bool) (x : ℝ) : signed s (signed t x) = signed (s != t) x := by
  cases s <;> cases t <;> simp

theorem signed_sub (s : Bool) (x y : ℝ) : signed s x - signed s y = signed s (x - y) := by
  cases s
  · rfl
  · simp only [signed_true]
    ring

theorem signed_mul (s t : Bool) (x y : ℝ) : signed s x * signed t y = signed (s != t) (x * y) := by
  cases s <;> cases t <;> simp

theorem signed_div (s t : Bool) (x y : ℝ) : signed s x / signed t y = signed (s != t) (x / y) := by
  cases s <;> cases t <;> simp [neg_div, div_neg]

theorem units_eq_signed (w : Word) : (units w : ℝ) = signed (sign w) (magnitude w) := by
  unfold units
  cases sign w <;> simp

theorem val_eq_signed (w : Word) : val w = signed (sign w) (magnitude w / 2 ^ 149) := by
  rw [val, units_eq_signed]
  cases sign w <;> simp [neg_div]

/-! ## The significand -/

/-- The natural number `m` is `y` to nearest, ties to even, and `y` is the significand, 24 bits before the point, of the
number `y × 2^k`; where no bits are dropped it may have fewer. -/
structure Rounded (y : ℝ) (k m : Nat) : Prop where
  normal : k = 0 ∨ 2 ^ 23 ≤ y
  lt     : y < 2 ^ 24
  near   : |(m : ℝ) - y| ≤ 1 / 2
  even   : |(m : ℝ) - y| = 1 / 2 → Even m

/-- Twice the distance of the rounded quotient, in `q`-ths. -/
theorem roundDiv_error (p q : Nat) (hq : 0 < q) : |2 * ((roundDiv p q : ℤ) * q - p)| ≤ q
    ∧ (|2 * ((roundDiv p q : ℤ) * q - p)| = q → Even (roundDiv p q)) := by
  have hp : (p : ℤ) = q * (p / q : Nat) + (p % q : Nat) := by exact_mod_cast (Nat.div_add_mod p q).symm
  have hmod := Nat.mod_lt p hq
  unfold roundDiv
  dsimp only
  generalize p / q = d at *
  generalize p % q = r at *
  split_ifs with hup
  · have herror : 2 * (((d + 1 : Nat) : ℤ) * q - p) = (2 * q - 2 * r : ℤ) := by
      rw [hp]
      push_cast
      ring
    rw [herror, abs_of_nonneg (by omega), Nat.even_iff]
    omega
  · have herror : 2 * ((d : ℤ) * q - p) = (-(2 * r) : ℤ) := by
      rw [hp]
      ring
    rw [herror, abs_neg, abs_of_nonneg (by omega), Nat.even_iff]
    omega

theorem roundDiv_near (p : Nat) {q : Nat} (hq : 0 < q) : |(roundDiv p q : ℝ) - p / q| ≤ 1 / 2
    ∧ (|(roundDiv p q : ℝ) - p / q| = 1 / 2 → Even (roundDiv p q)) := by
  have hq' : (0 : ℝ) < q := Nat.cast_pos.2 hq
  have hreal : |(roundDiv p q : ℝ) - p / q| = (|2 * ((roundDiv p q : ℤ) * q - p)| : ℤ) / (2 * q) := by
    push_cast
    rw [eq_div_iff (by positivity), abs_mul, abs_two, mul_left_comm, mul_comm |_| (q : ℝ),
      ← abs_of_pos hq', ← abs_mul, abs_of_pos hq', mul_sub, mul_div_cancel₀ _ hq'.ne', mul_comm (q : ℝ)]
  obtain ⟨hle, heven⟩ := roundDiv_error p q hq
  rw [hreal]
  generalize |2 * ((roundDiv p q : ℤ) * q - p)| = e at *
  rw [div_le_div_iff₀ (by positivity) two_pos, div_eq_div_iff (by positivity) two_ne_zero]
  exact ⟨by norm_cast; omega, fun h => heven (by norm_cast at h; omega)⟩

/-- The significand that `roundUnits` packs. -/
theorem rounded_roundDiv (p : Nat) {q : Nat} (hq : 0 < q) :
    Rounded (p / q / 2 ^ dropBits (p / q)) (dropBits (p / q)) (roundDiv p (q * 2 ^ dropBits (p / q))) := by
  obtain ⟨hnear, heven⟩ := roundDiv_near p (q := q * 2 ^ dropBits (p / q)) (by positivity)
  have hq' : (0 : ℝ) < q := Nat.cast_pos.2 hq
  generalize hk : dropBits (p / q) = k at *
  push_cast [← div_div] at hnear heven
  refine ⟨or_iff_not_imp_left.2 fun hne => ?_, ?_, hnear, heven⟩
  · have hle : 2 ^ (k + 23) * q ≤ p := (Nat.le_div_iff_mul_le hq).1 (hk ▸ le_of_dropBits_ne_zero (hk ▸ hne))
    rw [div_div, le_div_iff₀ (by positivity), mul_left_comm, ← pow_add, mul_comm (q : ℝ), Nat.add_comm 23 k]
    exact_mod_cast hle
  · have hlt : p < 2 ^ (k + 24) * q := (Nat.div_lt_iff_lt_mul hq).1 (hk ▸ lt_two_pow_dropBits (p / q))
    rw [div_div, div_lt_iff₀ (by positivity), mul_left_comm, ← pow_add, mul_comm (q : ℝ), Nat.add_comm 24 k]
    exact_mod_cast hlt

theorem overflowBound_units : overflowBound * 2 ^ 149 = (2 ^ 24 - 1 / 2) * 2 ^ 253 := by
  rw [overflowBound]
  norm_num

section rounded

variable {y : ℝ} {k m : Nat} (h : Rounded y k m)
include h

theorem Rounded.le_two_pow : m ≤ 2 ^ 24 := by
  have hnear := (abs_sub_le_iff.1 h.near).1
  have hlt := h.lt
  have : (m : ℝ) < (2 ^ 24 + 1 : Nat) := by
    push_cast
    linarith
  exact Nat.le_of_lt_succ (Nat.cast_lt.1 this)

theorem Rounded.normal_significand : k = 0 ∨ 2 ^ 23 ≤ m := by
  refine h.normal.imp_right fun hle => ?_
  have hnear := (abs_sub_le_iff.1 h.near).2
  have : ((2 ^ 23 : Nat) : ℝ) < (m + 1 : Nat) := by
    push_cast
    linarith
  exact Nat.le_of_lt_succ (Nat.cast_lt.1 this)

/-- No integer is nearer to `y` than `m`, and one as near only where `m` is even. -/
theorem Rounded.le_of_int {w : ℝ} (hw : ∃ j : ℤ, (j : ℝ) = w) :
    |(m : ℝ) - y| < |w - y| ∨ (|(m : ℝ) - y| = |w - y| ∧ (w = m ∨ Even m)) := by
  obtain ⟨j, rfl⟩ := hw
  by_cases hj : j = m
  · exact .inr ⟨by rw [hj]; rfl, .inl (by rw [hj]; rfl)⟩
  · have hone : (1 : ℝ) ≤ |(j : ℝ) - m| := by exact_mod_cast Int.one_le_abs (sub_ne_zero.2 hj)
    have htriangle := abs_sub_le (j : ℝ) y m
    rw [abs_sub_comm y m] at htriangle
    have hnear := h.near
    rcases hnear.lt_or_eq with hlt | heq
    · exact .inl (by linarith)
    · rcases (show |(m : ℝ) - y| ≤ |(j : ℝ) - y| by linarith).lt_or_eq with hlt | heq'
      · exact .inl hlt
      · exact .inr ⟨heq', .inr (h.even heq)⟩

/-- What a finite number is in units of `2^k`: an integer, or below the significands of 24 bits. -/
def InGrid (k : Nat) (w : ℝ) : Prop := (∃ j : ℤ, (j : ℝ) = w) ∨ (k ≠ 0 ∧ w < 2 ^ 23)

theorem Rounded.le_of_inGrid {w : ℝ} (hw : InGrid k w) :
    |(m : ℝ) - y| < |w - y| ∨ (|(m : ℝ) - y| = |w - y| ∧ (w = m ∨ Even m)) := by
  obtain hint | ⟨hk, hlt⟩ := hw
  · exact h.le_of_int hint
  · have hnormal : (2 : ℝ) ^ 23 ≤ y := h.normal.resolve_left hk
    have hle : |(m : ℝ) - y| ≤ |2 ^ 23 - y| := (h.le_of_int ⟨2 ^ 23, by norm_num⟩).elim le_of_lt fun heq => heq.1.le
    rw [abs_sub_comm (2 ^ 23), abs_of_nonneg (sub_nonneg.2 hnormal)] at hle
    have hself := neg_abs_le (w - y)
    exact .inl (by linarith)

/-- The bound is half a unit above the largest significand at the largest exponent, a tie that goes to even. -/
theorem Rounded.overflow_iff : 255 * 2 ^ 23 ≤ k * 2 ^ 23 + m ↔ overflowBound * 2 ^ 149 ≤ y * 2 ^ k := by
  obtain ⟨hlow, hhigh⟩ := abs_le.1 h.near
  have hm := h.le_two_pow
  have hnormal := h.normal_significand
  rw [overflowBound_units]
  rcases lt_trichotomy k 253 with hk | rfl | hk
  · refine iff_of_false (by omega) (not_le.2 ?_)
    calc y * 2 ^ k < 2 ^ 24 * 2 ^ k := mul_lt_mul_of_pos_right h.lt (by positivity)
      _ ≤ 2 ^ 24 * 2 ^ 252 := mul_le_mul_of_nonneg_left (pow_le_pow_right₀ one_le_two (by omega)) (by positivity)
      _ ≤ (2 ^ 24 - 1 / 2) * 2 ^ 253 := by norm_num
  · rw [mul_le_mul_iff_left₀ (by positivity)]
    have hcarry : 255 * 2 ^ 23 ≤ 253 * 2 ^ 23 + m ↔ 2 ^ 24 ≤ m := by omega
    rw [hcarry]
    refine ⟨fun hle => ?_, fun hle => ?_⟩
    · have : ((2 ^ 24 : Nat) : ℝ) ≤ m := Nat.cast_le.2 hle
      push_cast at this
      linarith
    · by_contra hlt
      have hmin : ((2 ^ 24 : Nat) : ℝ) ≤ (m + 1 : Nat) := by
        push_cast
        linarith
      have hlast : m + 1 = 2 ^ 24 := Nat.le_antisymm (by omega) (Nat.cast_le.1 hmin)
      have hmax : (m : ℝ) + 1 = 2 ^ 24 := by exact_mod_cast hlast
      have heven := h.even (by rw [abs_of_nonpos (by linarith)]; linarith)
      rw [Nat.even_iff] at heven
      omega
  · refine iff_of_true (by omega) ?_
    have hy : (2 : ℝ) ^ 23 ≤ y := h.normal.resolve_left (by omega)
    calc (2 ^ 24 - 1 / 2) * 2 ^ 253 ≤ (2 : ℝ) ^ 23 * 2 ^ 254 := by norm_num
      _ ≤ y * 2 ^ k :=
        mul_le_mul hy (pow_le_pow_right₀ one_le_two (by omega)) (by positivity) (by linarith)

end rounded

/-- The significand with its exponent as a word, infinity where it has none. -/
def packRounded (s : Bool) (k m : Nat) : Word :=
  if 255 * 2 ^ 23 ≤ k * 2 ^ 23 + m then inf s else pack s (k * 2 ^ 23 + m)

theorem roundUnits_eq (s : Bool) (p q : Nat) : roundUnits s p q =
    packRounded s (dropBits (p / q)) (roundDiv p (q * 2 ^ dropBits (p / q))) := rfl

/-- A carry out of the significand goes to the exponent, so that the word's value is that of the significand. -/
theorem magnitude_pack_rounded {k m : Nat} (s : Bool) (hle : m ≤ 2 ^ 24) (hnormal : k = 0 ∨ 2 ^ 23 ≤ m)
    (hfin : k * 2 ^ 23 + m < 255 * 2 ^ 23) : magnitude (pack s (k * 2 ^ 23 + m)) = m * 2 ^ k := by
  rcases hle.lt_or_eq with hlt | rfl
  · exact magnitude_pack s (by omega) hlt hnormal
  · rw [show k * 2 ^ 23 + 2 ^ 24 = (k + 1) * 2 ^ 23 + 2 ^ 23 by ring, magnitude_pack s (by omega) (by decide) (.inr le_rfl)]
    ring

theorem getLsbD_zero_pack (s : Bool) {m : Nat} (hm : m < 2 ^ 31) (heven : Even m) : (pack s m).getLsbD 0 = false := by
  rw [BitVec.getLsbD, pack_toNat s hm, Nat.testBit_zero, decide_eq_false_iff_not]
  rw [Nat.even_iff] at heven
  omega

theorem exists_int_eq_signed (s : Bool) (n : Nat) : ∃ j : ℤ, (j : ℝ) = signed s n := by
  cases s
  · exact ⟨n, Int.cast_natCast n⟩
  · exact ⟨-n, by simp⟩

/-- A finite number is `a × 2^k` for an integer `a`, or too small for the significands over `k` bits. -/
theorem inGrid_units (s : Bool) (k : Nat) {c : Word} (hc : isFinite c = true) : InGrid k (signed s (units c) / 2 ^ k) := by
  obtain ⟨a, e, ha, -, hmag⟩ := representable_magnitude hc
  rw [units_eq_signed, hmag, signed_signed, signed_div_right, Nat.cast_mul, Nat.cast_pow, Nat.cast_two, mul_div_assoc]
  rcases le_or_gt k e with hke | hke
  · rw [div_eq_mul_inv, ← pow_sub₀ _ (two_ne_zero' ℝ) hke]
    exact_mod_cast Or.inl (exists_int_eq_signed (s != sign c) (a * 2 ^ (e - k)))
  · refine .inr ⟨by omega, (le_abs_self _).trans_lt ?_⟩
    have hsmall : a * 2 ^ e < 2 ^ 23 * 2 ^ k := calc
      a * 2 ^ e < 2 ^ 24 * 2 ^ e := Nat.mul_lt_mul_of_pos_right ha (Nat.two_pow_pos e)
      _ = 2 ^ 23 * 2 ^ (e + 1) := by ring
      _ ≤ 2 ^ 23 * 2 ^ k := Nat.mul_le_mul_left _ (Nat.pow_le_pow_right two_pos hke)
    rw [abs_signed, abs_of_nonneg (by positivity), ← mul_div_assoc, div_lt_iff₀ (by positivity)]
    exact_mod_cast hsmall

theorem Rounded.nearest {y : ℝ} {k m : Nat} (h : Rounded y k m) (s : Bool) (hfin : k * 2 ^ 23 + m < 255 * 2 ^ 23) :
    Nearest (pack s (k * 2 ^ 23 + m)) (signed s (y * 2 ^ k / 2 ^ 149)) := by
  refine ⟨isFinite_pack s hfin, fun c hc => ?_⟩
  have hpos : (0 : ℝ) < 2 ^ k / 2 ^ 149 := by positivity
  have hval : val (pack s (k * 2 ^ 23 + m)) = signed s (m * (2 ^ k / 2 ^ 149)) := by
    rw [val_eq_signed, sign_pack, magnitude_pack_rounded s h.le_two_pow h.normal_significand hfin, ← mul_div_assoc]
    push_cast
    rfl
  have hvalc : val c = signed s (signed s (units c) / 2 ^ k * (2 ^ k / 2 ^ 149)) := by
    rw [div_mul_div_cancel₀ (by positivity), ← signed_div_right, signed_signed_self, val]
  have hdist (a b : ℝ) : |signed s (a * (2 ^ k / 2 ^ 149)) - signed s (b * (2 ^ k / 2 ^ 149))| =
      |a - b| * (2 ^ k / 2 ^ 149) := by
    rw [signed_sub, abs_signed, ← sub_mul, abs_mul, abs_of_pos hpos]
  rw [hval, hvalc, mul_div_assoc y, hdist, hdist, mul_lt_mul_iff_left₀ hpos, mul_left_inj' hpos.ne']
  refine (h.le_of_inGrid (inGrid_units s k hc)).imp_right (And.imp_right (Or.imp (fun heq => by rw [heq]) fun heven => ?_))
  exact getLsbD_zero_pack s (by omega) ((Even.mul_left (by decide) k).add heven)

/-- The word of a rounded significand is the correctly rounded result, overflow included. -/
theorem Rounded.roundsTo {y : ℝ} {k m : Nat} (h : Rounded y k m) (hy : 0 ≤ y) (s : Bool) :
    RoundsTo (packRounded s k m) (signed s (y * 2 ^ k / 2 ^ 149)) := by
  have hbound : (0 : ℝ) < overflowBound := by norm_num [overflowBound]
  have hx : 0 ≤ y * 2 ^ k / 2 ^ 149 := by positivity
  have hiff : 255 * 2 ^ 23 ≤ k * 2 ^ 23 + m ↔ overflowBound ≤ y * 2 ^ k / 2 ^ 149 := by
    rw [h.overflow_iff, le_div_iff₀ (by positivity)]
  have hnearest := h.nearest s
  generalize y * 2 ^ k / 2 ^ 149 = x at *
  unfold packRounded
  refine ⟨fun hlt => ?_, fun hle => ?_, fun hle => ?_⟩
  · rw [abs_signed, abs_of_nonneg hx] at hlt
    have hfin := mt hiff.1 (not_le.2 hlt)
    rw [if_neg hfin]
    exact hnearest (not_le.1 hfin)
  · cases s
    · exact if_pos (hiff.2 hle)
    · rw [signed_true] at hle
      linarith
  · cases s
    · rw [signed_false] at hle
      linarith
    · rw [signed_true] at hle
      exact if_pos (hiff.2 (neg_le_neg_iff.1 hle))

/-- `roundUnits` rounds correctly. -/
theorem roundUnits_roundsTo (s : Bool) (p : Nat) {q : Nat} (hq : 0 < q) :
    RoundsTo (roundUnits s p q) (signed s (p / q / 2 ^ 149)) := by
  have hround := (rounded_roundDiv p hq).roundsTo (by positivity) s
  rwa [div_mul_cancel₀ _ (by positivity)] at hround

end Sys2Proof.Machine.F32
end

section
/-! The binary32 operations are correctly rounded (45_numerics R226, R228, R230, R234, R237). -/

namespace Sys2Proof.Machine.F32

/-! ## Addition and subtraction -/

theorem intCast_eq_signed (v : ℤ) : (v : ℝ) = signed (decide (v < 0)) v.natAbs := by
  rw [Nat.cast_natAbs]
  rcases lt_or_ge v 0 with h | h
  · rw [decide_eq_true h, abs_of_neg h, Int.cast_neg, signed_true, neg_neg]
  · rw [decide_eq_false h.not_gt, abs_of_nonneg h, signed_false]

theorem val_neg (w : Word) : val (neg w) = -val w := by rw [val, units_neg, Int.cast_neg, neg_div, val]

theorem val_add_val (a b : Word) : val a + val b = ((units a + units b : ℤ) : ℝ) / 2 ^ 149 := by
  rw [val, val, ← add_div, Int.cast_add]

theorem addFinite_roundsTo (a b : Word) : RoundsTo (addFinite a b) (val a + val b) := by
  rw [val_add_val]
  by_cases hzero : units a + units b = 0
  · have hround := roundUnits_roundsTo (sign a && sign b) 0 one_pos
    rw [roundUnits_zero _ one_pos, Nat.cast_zero, zero_div, zero_div, signed_zero] at hround
    rwa [addFinite_of_units_eq_zero hzero, hzero, Int.cast_zero, zero_div]
  · rw [addFinite, if_neg hzero, intCast_eq_signed, signed_div_right]
    have hround := roundUnits_roundsTo (decide (units a + units b < 0)) (units a + units b).natAbs one_pos
    rwa [Nat.cast_one, div_one] at hround

theorem IsZero.eq_pack {a : Word} (ha : IsZero a) : a = pack (sign a) 0 := by
  obtain ⟨s, rfl⟩ := ha
  rw [sign_pack]

/-- An exact zero is `+0` unless both terms are negative zeros (45_numerics R237). -/
theorem addFinite_exact_zero {a b : Word} (h : units a + units b = 0) :
    addFinite a b = if a = 0x80000000 ∧ b = 0x80000000 then 0x80000000 else 0 := by
  rw [addFinite_of_units_eq_zero h]
  by_cases hneg : sign a = true ∧ sign b = true
  · obtain ⟨ha, hb⟩ := hneg
    have hmag : magnitude a = 0 ∧ magnitude b = 0 := by
      rw [units, units, if_pos ha, if_pos hb] at h
      omega
    have ha' := (isZero_of_magnitude_eq_zero hmag.1).eq_pack
    have hb' := (isZero_of_magnitude_eq_zero hmag.2).eq_pack
    rw [ha] at ha'
    rw [hb] at hb'
    rw [ha, hb, if_pos ⟨ha', hb'⟩]
    rfl
  · have hand : (sign a && sign b) = false := by rwa [← Bool.not_eq_true, Bool.and_eq_true]
    have hne : ¬ (a = 0x80000000 ∧ b = 0x80000000) := by
      rintro ⟨rfl, rfl⟩
      exact hneg ⟨rfl, rfl⟩
    rw [hand, if_neg hne]
    rfl

theorem neg_eq_negative_zero {b : Word} : neg b = 0x80000000 ↔ b = 0 := by simp [neg]

theorem units_add_eq_zero {a b : Word} (h : val a + val b = 0) : units a + units b = 0 := by
  rw [val_add_val, div_eq_zero_iff] at h
  exact_mod_cast h.resolve_right (by positivity)

/-! ## Multiplication and division -/

theorem val_eq_zero_iff {w : Word} : val w = 0 ↔ magnitude w = 0 := by
  rw [val, div_eq_zero_iff, or_iff_left (by positivity), Int.cast_eq_zero, ← Int.natAbs_eq_zero, units_natAbs]

section finite

variable {a b : Word} (ha : isFinite a = true) (hb : isFinite b = true)
include ha hb

theorem mul_roundsTo : RoundsTo (mul a b) (val a * val b) := by
  have hround := roundUnits_roundsTo (sign a != sign b) (magnitude a * magnitude b) (Nat.two_pow_pos 149)
  rw [mul_of_isFinite ha hb, val_eq_signed, val_eq_signed, signed_mul, div_mul_div_comm, ← div_div]
  exact_mod_cast hround

theorem div_of_isFinite (hzero : magnitude b ≠ 0) :
    div a b = roundUnits (sign a != sign b) (magnitude a * 2 ^ 149) (magnitude b) := by
  simp [div, isNan_of_isFinite, isInf_of_isFinite, ha, hb, hzero]

theorem div_roundsTo (hzero : val b ≠ 0) : RoundsTo (div a b) (val a / val b) := by
  have hmag : magnitude b ≠ 0 := mt val_eq_zero_iff.2 hzero
  have hround := roundUnits_roundsTo (sign a != sign b) (magnitude a * 2 ^ 149) (Nat.pos_of_ne_zero hmag)
  rw [div_of_isFinite ha hb hmag, val_eq_signed, val_eq_signed, signed_div, div_div_div_cancel_right₀ (by positivity)]
  rwa [Nat.cast_mul, Nat.cast_pow, Nat.cast_two, mul_div_right_comm, mul_div_cancel_right₀ _ (by positivity)] at hround

theorem mul_exact_zero (h : val a * val b = 0) : mul a b = if sign a = sign b then 0 else 0x80000000 := by
  have hmag : magnitude a * magnitude b = 0 := by
    rwa [mul_eq_zero, val_eq_zero_iff, val_eq_zero_iff, ← mul_eq_zero] at h
  rw [mul_of_isFinite ha hb, hmag, roundUnits_zero _ (Nat.two_pow_pos 149)]
  cases sign a <;> cases sign b <;> rfl

end finite

/-! ## The resolution -/

theorem IsZero.val {w : Word} (h : IsZero w) : val w = 0 := val_eq_zero_iff.2 h.magnitude

theorem val_pos_iff {w : Word} : 0 < val w ↔ sign w = false ∧ magnitude w ≠ 0 := by
  rw [val_eq_signed]
  cases sign w
  · simp [Nat.pos_iff_ne_zero]
  · simpa using by positivity

theorem isPositive_iff {w : Word} : isPositive w = true ↔ isFinite w = true ∧ 0 < val w := by
  simp [isPositive, val_pos_iff, and_assoc]

theorem Representable.val {n : Nat} (h : Representable n) : val (roundUnits false n 1) = n / 2 ^ 149 := by
  rw [F32.val, h.units, Int.cast_natCast]

theorem val_ofNat {n : Nat} (hn : n < 2 ^ 24) : val (ofNat n) = n := by
  rw [ofNat, (representable_ofNat hn).val, Nat.cast_mul, Nat.cast_pow, Nat.cast_two,
    mul_div_cancel_right₀ _ (by positivity)]

/-- A shift to the left keeps the significand. -/
theorem Representable.mul_two_pow {n : Nat} (h : Representable n) {e : Nat} (hlt : 2 ^ e * n < 2 ^ 24 * 2 ^ 253) :
    Representable (2 ^ e * n) := by
  obtain ⟨a, i, ha, hi, rfl⟩ := h
  rcases le_total (e + i) 253 with hle | hle
  · exact ⟨a, e + i, ha, hle, by ring⟩
  · obtain ⟨d, hd⟩ := Nat.exists_eq_add_of_le hle
    have hshift : 2 ^ e * (a * 2 ^ i) = a * 2 ^ d * 2 ^ 253 := by
      rw [mul_left_comm, ← pow_add, hd, pow_add]
      ring
    rw [hshift] at hlt
    exact ⟨a * 2 ^ d, 253, Nat.lt_of_mul_lt_mul_right hlt, le_rfl, hshift⟩

section resolution

variable {logN : Nat} {p : Word} (hL : logN ≤ 16) (hp : isFinite p = true) (hpos : 0 < val p)
include hL hp hpos

/-- Below `2^128` the product `N p` is exact. -/
theorem mul_ofNat_two_pow (hlt : 2 ^ logN * val p < 2 ^ 128) :
    isFinite (mul (ofNat (2 ^ logN)) p) = true ∧ val (mul (ofNat (2 ^ logN)) p) = 2 ^ logN * val p := by
  have hint : 2 ^ logN < 2 ^ 24 := Nat.pow_lt_pow_right one_lt_two (by omega)
  have hN := representable_ofNat hint
  obtain ⟨hsign, -⟩ := val_pos_iff.1 hpos
  have hval : val p = magnitude p / 2 ^ 149 := by rw [val_eq_signed, hsign, signed_false]
  have hunits : 2 ^ logN * magnitude p < 2 ^ 128 * 2 ^ 149 := by
    rw [hval, ← mul_div_assoc, div_lt_iff₀ (by positivity)] at hlt
    exact_mod_cast hlt
  have hrep := (representable_magnitude hp).mul_two_pow (hunits.trans_eq (by rw [← pow_add, ← pow_add]))
  have heq : mul (ofNat (2 ^ logN)) p = roundUnits false (2 ^ logN * magnitude p) 1 := by
    rw [mul_of_isFinite (isFinite_ofNat hint) hp, ofNat, hN.sign, hN.magnitude, hsign, mul_right_comm,
      roundUnits_mul_self _ _ (Nat.two_pow_pos 149)]
    rfl
  refine ⟨heq ▸ hrep.isFinite _, ?_⟩
  rw [heq, hrep.val, hval, Nat.cast_mul, Nat.cast_pow, Nat.cast_two, mul_div_assoc]

theorem binRes_roundsTo (hlt : 2 ^ logN * val p < 2 ^ 128) : RoundsTo (binRes logN p) (1 / (2 ^ logN * val p)) := by
  obtain ⟨hfin, hval⟩ := mul_ofNat_two_pow hL hp hpos hlt
  have hdiv := div_roundsTo (isFinite_ofNat (by decide : 1 < 2 ^ 24)) hfin (by rw [hval]; positivity)
  rwa [hval, val_ofNat (by decide), Nat.cast_one] at hdiv

end resolution

/-- Where `N p` overflows the quotient is a zero. -/
theorem binRes_of_overflow {logN : Nat} {p : Word} (hL : logN ≤ 16) (hp : isFinite p = true)
    (hle : 2 ^ 128 ≤ 2 ^ logN * val p) : binRes logN p = 0 := by
  have hint : 2 ^ logN < 2 ^ 24 := Nat.pow_lt_pow_right one_lt_two (by omega)
  obtain ⟨-, hover, -⟩ := mul_roundsTo (isFinite_ofNat hint) hp
  rw [val_ofNat hint, Nat.cast_pow, Nat.cast_two] at hover
  have hinf := hover (le_trans (by norm_num [overflowBound]) hle)
  rw [binRes, hinf]
  decide

theorem not_isFinite_inf (s : Bool) : isFinite (inf s) = false := by cases s <;> decide

theorem Nearest.dist_le {w c : Word} {v : ℝ} (h : Nearest w v) (hc : isFinite c = true) : |val w - v| ≤ |val c - v| :=
  (h.2 c hc).elim le_of_lt fun heq => heq.1.le

/-- A number above the least subnormal does not round to zero. -/
theorem Nearest.val_pos {w : Word} {v : ℝ} (h : Nearest w v) (hv : 1 / 2 ^ 149 < v) : 0 < val w := by
  have hunit : val 1 = 1 / 2 ^ 149 := by
    have : units 1 = 1 := by decide
    rw [val, this, Int.cast_one]
  have hle : |val w - v| ≤ |val 1 - v| := h.dist_le (by decide)
  rw [hunit, abs_sub_comm (1 / 2 ^ 149), abs_of_pos (sub_pos.2 hv), abs_le] at hle
  have : (0 : ℝ) < 1 / 2 ^ 149 := by positivity
  linarith

/-- In the domain `1 / (N p)` does not underflow, `N p` being below `2^128`. -/
theorem binRes_nearest {logN : Nat} (hL : logN ≤ 16) {p : Word} (hp : isFinite p = true) (hpos : 0 < val p)
    (hlt : 2 ^ logN * val p < 2 ^ 128) (hbound : 1 / (2 ^ logN * val p) < overflowBound) :
    Nearest (binRes logN p) (1 / (2 ^ logN * val p)) ∧ 0 < val (binRes logN p) := by
  have hnearest := (binRes_roundsTo hL hp hpos hlt).1 (by rwa [abs_of_pos (by positivity)])
  refine ⟨hnearest, hnearest.val_pos ?_⟩
  calc (1 : ℝ) / 2 ^ 149 < 1 / 2 ^ 128 := one_div_pow_lt_one_div_pow_of_lt one_lt_two (by decide)
    _ < 1 / (2 ^ logN * val p) := one_div_lt_one_div_of_lt (by positivity) hlt

theorem binResDom_iff {logN : Nat} (hL : logN ≤ 16) (p : Word) : binResDom logN p = true ↔
    isFinite p = true ∧ 0 < val p ∧ 2 ^ logN * val p < 2 ^ 128 ∧ 1 / (2 ^ logN * val p) < overflowBound := by
  rw [binResDom, Bool.and_eq_true, isPositive_iff, isPositive_iff]
  constructor
  · rintro ⟨⟨hp, hpos⟩, hfin, hres⟩
    have hlt : 2 ^ logN * val p < 2 ^ 128 := by
      by_contra hle
      rw [binRes_of_overflow hL hp (not_lt.1 hle), isZero_zero.val] at hres
      exact lt_irrefl _ hres
    refine ⟨hp, hpos, hlt, ?_⟩
    by_contra hle
    obtain ⟨-, hover, -⟩ := binRes_roundsTo hL hp hpos hlt
    rw [hover (not_lt.1 hle), not_isFinite_inf] at hfin
    cases hfin
  · rintro ⟨hp, hpos, hlt, hbound⟩
    obtain ⟨⟨hfin, -⟩, hres⟩ := binRes_nearest hL hp hpos hlt hbound
    exact ⟨⟨hp, hpos⟩, hfin, hres⟩

/-! ## The square root -/

theorem isqrtBits_spec (m : Nat) : ∀ k r : Nat, r * r ≤ m → m < (r + 2 ^ k) * (r + 2 ^ k) →
    isqrtBits m k r * isqrtBits m k r ≤ m ∧ m < (isqrtBits m k r + 1) * (isqrtBits m k r + 1)
  | 0, _, hle, hlt => ⟨hle, hlt⟩
  | k + 1, r, hle, hlt => by
    have hhalf : r + 2 ^ k + 2 ^ k = r + 2 ^ (k + 1) := by ring
    unfold isqrtBits
    split_ifs with hbit
    · exact isqrtBits_spec m k _ hbit (by rwa [hhalf])
    · exact isqrtBits_spec m k r hle (not_le.1 hbit)

theorem isqrt_eq (m : Nat) : isqrt m = Nat.sqrt m := by
  have hlt : m < (0 + 2 ^ (m.log2 / 2 + 1)) * (0 + 2 ^ (m.log2 / 2 + 1)) := by
    rw [zero_add, ← pow_add]
    exact Nat.lt_log2_self.trans_le (Nat.pow_le_pow_right two_pos (by omega))
  obtain ⟨hle, hlt⟩ := isqrtBits_spec m _ 0 (Nat.zero_le m) hlt
  exact (Nat.eq_sqrt.2 ⟨hle, hlt⟩)

/-- `r + 1/2` over `k` bits to drop: no rounding boundary lies between `r` and `r + 1`. -/
theorem roundDiv_between (r j : Nat) : r + 1 ≤ 2 ^ (j + 1) * roundDiv (2 * r + 1) (2 * 2 ^ (j + 1)) + 2 ^ j
    ∧ 2 ^ (j + 1) * roundDiv (2 * r + 1) (2 * 2 ^ (j + 1)) ≤ r + 2 ^ j := by
  obtain ⟨herror, -⟩ := roundDiv_error (2 * r + 1) (2 * 2 ^ (j + 1)) (by positivity)
  generalize roundDiv (2 * r + 1) (2 * 2 ^ (j + 1)) = m at *
  have hproduct : (m : ℤ) * (2 * 2 ^ (j + 1) : Nat) = 4 * (2 ^ j * m : Nat) := by
    push_cast
    ring
  rw [hproduct, abs_le] at herror
  rw [pow_succ', mul_assoc] at *
  generalize 2 ^ j * m = t at *
  generalize 2 ^ j = half at *
  omega

/-- Where bits are dropped a real number between two integers is rounded as the midpoint of the two. -/
theorem rounded_between {r : Nat} {x : ℝ} (hdrop : dropBits r ≠ 0) (hlo : (r : ℝ) < x) (hhi : x < r + 1) :
    Rounded (x / 2 ^ dropBits r) (dropBits r) (roundDiv (2 * r + 1) (2 * 2 ^ dropBits r)) := by
  have hnormal := le_of_dropBits_ne_zero hdrop
  have hlt := lt_two_pow_dropBits r
  obtain ⟨j, hj⟩ := Nat.exists_eq_add_one_of_ne_zero hdrop
  rw [hj] at hnormal hlt ⊢
  obtain ⟨hlow, hhigh⟩ := roundDiv_between r j
  generalize roundDiv (2 * r + 1) (2 * 2 ^ (j + 1)) = m at *
  have hpos : (0 : ℝ) < 2 ^ (j + 1) := by positivity
  have hnormal' : (2 : ℝ) ^ (j + 1 + 23) ≤ r := by exact_mod_cast hnormal
  have hlt' : (r : ℝ) + 1 ≤ 2 ^ (j + 1 + 24) := by exact_mod_cast Nat.add_one_le_iff.2 hlt
  have hlow' : (r : ℝ) + 1 ≤ 2 ^ (j + 1) * m + 2 ^ j := by exact_mod_cast hlow
  have hhigh' : (2 : ℝ) ^ (j + 1) * m ≤ r + 2 ^ j := by exact_mod_cast hhigh
  have hnear : |(m : ℝ) - x / 2 ^ (j + 1)| < 1 / 2 := by
    have hhalf : (2 : ℝ) ^ (j + 1) * (1 / 2) = 2 ^ j := by ring
    rw [← mul_lt_mul_iff_right₀ hpos, hhalf, ← abs_of_pos hpos, ← abs_mul, abs_of_pos hpos, mul_sub,
      mul_div_cancel₀ _ hpos.ne', abs_lt]
    constructor <;> linarith
  refine ⟨.inr ?_, ?_, hnear.le, fun h => absurd h hnear.ne⟩
  · rw [le_div_iff₀ hpos, ← pow_add, Nat.add_comm 23]
    linarith
  · rw [div_lt_iff₀ hpos, ← pow_add, Nat.add_comm 24]
    linarith

/-- The integer square root, with half a unit added where it is not exact, rounded. -/
def roundSqrt (m : Nat) : Word :=
  roundUnits false (if Nat.sqrt m * Nat.sqrt m = m then 2 * Nat.sqrt m else 2 * Nat.sqrt m + 1) 2

theorem roundSqrt_roundsTo {m : Nat} (hdrop : dropBits (Nat.sqrt m) ≠ 0) :
    RoundsTo (roundSqrt m) (Real.sqrt m / 2 ^ 149) := by
  unfold roundSqrt
  split_ifs with hexact
  · have hround := roundUnits_roundsTo false (2 * Nat.sqrt m) two_pos
    rw [signed_false, Nat.cast_mul, Nat.cast_two, mul_div_cancel_left₀ _ (two_ne_zero' ℝ)] at hround
    have hreal : Real.sqrt m = Nat.sqrt m := by
      conv_lhs => rw [← hexact, Nat.cast_mul]
      exact Real.sqrt_mul_self (Nat.cast_nonneg _)
    rwa [hreal]
  · have hlo : (Nat.sqrt m : ℝ) < Real.sqrt m := by
      refine Real.nat_sqrt_le_real_sqrt.lt_of_ne fun h => hexact ?_
      have hsq := Real.mul_self_sqrt (Nat.cast_nonneg (α := ℝ) m)
      rw [← h] at hsq
      exact_mod_cast hsq
    have hround := (rounded_between hdrop hlo Real.real_sqrt_lt_nat_sqrt_succ).roundsTo (by positivity) false
    rw [div_mul_cancel₀ _ (by positivity), signed_false] at hround
    rwa [roundUnits_eq, show (2 * Nat.sqrt m + 1) / 2 = Nat.sqrt m by omega]

theorem nearest_val {w : Word} (hw : isFinite w = true) : Nearest w (val w) := by
  have hself : |val w - val w| = 0 := by simp
  refine ⟨hw, fun c _ => ?_⟩
  rw [hself]
  by_cases h : val c = val w
  · exact .inr ⟨by rw [h, hself], .inl h⟩
  · exact .inl (abs_pos.2 (sub_ne_zero.2 h))

theorem sign_roundUnits (s : Bool) (p q : Nat) : sign (roundUnits s p q) = s := by
  unfold roundUnits
  dsimp only
  split_ifs
  · exact sign_pack s _
  · exact sign_pack s _

theorem val_nonneg_of_sign {w : Word} (h : sign w = false) : 0 ≤ val w := by
  rw [val_eq_signed, h, signed_false]
  positivity

theorem units_eq_of_val_eq {a b : Word} (h : val a = val b) : units a = units b := by
  rw [val, val, div_left_inj' (by positivity)] at h
  exact_mod_cast h

theorem not_gt_iff {a b : Word} (ha : isFinite a = true) (hb : isFinite b = true) :
    gt a b = false ↔ val a ≤ val b := by
  rw [gt_of_isFinite ha hb, decide_eq_false_iff_not, not_lt, val, val, div_le_div_iff_of_pos_right (by positivity),
    Int.cast_le]

section sqrt

variable {a : Word} (ha : isFinite a = true)
include ha

theorem sqrt_of_isZero (hzero : magnitude a = 0) : sqrt a = a := by
  simp [sqrt, isNan_of_isFinite ha, ha, hzero]

/-- The square root of a positive number depends on its magnitude. -/
theorem sqrt_of_pos (hpos : 0 < val a) : sqrt a = roundSqrt (magnitude a * 2 ^ 149) := by
  obtain ⟨hsign, hmag⟩ := val_pos_iff.1 hpos
  have hzero : (isFinite a && magnitude a == 0) = false := by simp [hmag]
  simp only [sqrt, isNan_of_isFinite ha, isInf_of_isFinite ha, hsign, hzero, isqrt_eq, Bool.false_eq_true, ↓reduceIte]
  rfl

theorem abs_val_lt : |val a| < 2 ^ 128 := by
  obtain ⟨m, e, hm, he, hmag⟩ := representable_magnitude ha
  have hlt : magnitude a < 2 ^ 128 * 2 ^ 149 := calc
    magnitude a = m * 2 ^ e := hmag
    _ < 2 ^ 24 * 2 ^ 253 := Nat.mul_lt_mul_of_lt_of_le hm (Nat.pow_le_pow_right two_pos he) (Nat.two_pow_pos _)
    _ = 2 ^ 128 * 2 ^ 149 := by rw [← pow_add, ← pow_add]
  rw [val_eq_signed, abs_signed, abs_of_nonneg (by positivity), div_lt_iff₀ (by positivity)]
  exact_mod_cast hlt

theorem sqrt_nearest_of_pos (hpos : 0 < val a) : Nearest (sqrt a) (Real.sqrt (val a)) := by
  obtain ⟨hsign, hmag⟩ := val_pos_iff.1 hpos
  have hlarge : 2 ^ 74 ≤ Nat.sqrt (magnitude a * 2 ^ 149) := Nat.le_sqrt.2 (by
    rw [← pow_add]
    exact (Nat.pow_le_pow_right two_pos (by decide)).trans (Nat.le_mul_of_pos_left _ (Nat.pos_of_ne_zero hmag)))
  have hdrop : dropBits (Nat.sqrt (magnitude a * 2 ^ 149)) ≠ 0 := fun hzero => by
    have hsmall := lt_two_pow_dropBits (Nat.sqrt (magnitude a * 2 ^ 149))
    rw [hzero] at hsmall
    exact absurd (hlarge.trans_lt hsmall) (by decide)
  have hunits : Real.sqrt (magnitude a * 2 ^ 149 : Nat) / 2 ^ 149 = Real.sqrt (val a) := by
    have hval : ((magnitude a * 2 ^ 149 : Nat) : ℝ) = val a * (2 ^ 149) ^ 2 := by
      rw [val_eq_signed, hsign, signed_false, sq, ← mul_assoc, div_mul_cancel₀ _ (by positivity),
        Nat.cast_mul, Nat.cast_pow, Nat.cast_two]
    rw [hval, Real.sqrt_mul hpos.le, Real.sqrt_sq (by positivity), mul_div_cancel_right₀ _ (by positivity)]
  have hround := roundSqrt_roundsTo hdrop
  rw [hunits, ← sqrt_of_pos ha hpos] at hround
  refine hround.1 ?_
  rw [abs_of_nonneg (Real.sqrt_nonneg _), Real.sqrt_lt' (by norm_num [overflowBound])]
  exact ((le_abs_self _).trans_lt (abs_val_lt ha)).trans_le (by norm_num [overflowBound])

theorem sqrt_nearest (hnonneg : 0 ≤ val a) : Nearest (sqrt a) (Real.sqrt (val a)) ∧ 0 ≤ val (sqrt a) := by
  rcases hnonneg.eq_or_lt with hzero | hpos
  · rw [sqrt_of_isZero ha (val_eq_zero_iff.1 hzero.symm), ← hzero, Real.sqrt_zero]
    exact ⟨hzero ▸ nearest_val ha, le_rfl⟩
  · refine ⟨sqrt_nearest_of_pos ha hpos, val_nonneg_of_sign ?_⟩
    rw [sqrt_of_pos ha hpos, roundSqrt, sign_roundUnits]

end sqrt

/-- Rounding does not change the order. -/
theorem Nearest.mono {w w' : Word} {v v' : ℝ} (h : Nearest w v) (h' : Nearest w' v') (hlt : v < v') :
    val w ≤ val w' := by
  by_contra! hgt
  have hle : |val w - v| ≤ |val w' - v| := h.dist_le h'.1
  have hle' : |val w' - v'| ≤ |val w - v'| := h'.dist_le h.1
  rw [← sq_le_sq] at hle hle'
  nlinarith

/-- The square root does not tell apart words of the same value. -/
theorem val_sqrt_congr {a b : Word} (ha : isFinite a = true) (hb : isFinite b = true) (hnonneg : 0 ≤ val a)
    (h : val a = val b) : val (sqrt a) = val (sqrt b) := by
  rcases hnonneg.eq_or_lt with hzero | hpos
  · rw [sqrt_of_isZero ha (val_eq_zero_iff.1 hzero.symm), sqrt_of_isZero hb (val_eq_zero_iff.1 (h ▸ hzero.symm)), h]
  · have hpos' : 0 < val b := h ▸ hpos
    have hmag : magnitude a = magnitude b := by
      rw [← units_natAbs, ← units_natAbs, units_eq_of_val_eq h]
    rw [sqrt_of_pos ha hpos, sqrt_of_pos hb hpos', hmag]

end Sys2Proof.Machine.F32

namespace Sys2Proof.Machine

/-! ## The obligations -/

/-- Settles O53: an exact sum of units, rounded; a difference is the sum with the negative. -/
theorem f32AddAndSubAreCorrectlyRounded : Obligations.F32AddAndSubAreCorrectlyRounded := by
  intro a b ha hb
  rw [F32.add_of_isFinite ha hb, F32.sub_of_isFinite ha hb, sub_eq_add_neg, ← F32.val_neg]
  refine ⟨F32.addFinite_roundsTo a b, F32.addFinite_roundsTo a (F32.neg b),
    fun h => F32.addFinite_exact_zero (F32.units_add_eq_zero h), fun h => ?_⟩
  rw [F32.addFinite_exact_zero (F32.units_add_eq_zero h)]
  simp only [F32.neg_eq_negative_zero]

/-- Settles O54: exact fractions of units, rounded; the resolution is one exact product and one quotient. -/
theorem f32MulDivAndBinResAreCorrectlyRounded : Obligations.F32MulDivAndBinResAreCorrectlyRounded := by
  refine ⟨fun a b ha hb => ⟨F32.mul_roundsTo ha hb, F32.div_roundsTo ha hb, F32.mul_exact_zero ha hb⟩, fun c p => ?_⟩
  have hdom := F32.binResDom_iff c.logN_range.2 p
  refine ⟨hdom, fun h => ?_⟩
  obtain ⟨hp, hpos, hlt, hbound⟩ := hdom.1 h
  exact F32.binRes_nearest c.logN_range.2 hp hpos hlt hbound

/-- Settles O55: no rounding boundary lies between the model's fraction and the real root. -/
theorem f32SqrtIsCorrectlyRounded : Obligations.F32SqrtIsCorrectlyRounded := fun _ => F32.sqrt_nearest

/-- Settles O56: the real root is strictly monotone, and words of one value have roots of one value. -/
theorem f32SqrtIsMonotone : Obligations.F32SqrtIsMonotone := by
  intro logN a b ⟨ha, ha0⟩ ⟨hb, hb0⟩ hle
  obtain ⟨hroota, -⟩ := F32.sqrt_nearest ha ha0
  obtain ⟨hrootb, -⟩ := F32.sqrt_nearest hb hb0
  have hgt : F32.gt b a = false := hle
  refine (?_ : F32.gt (F32.sqrt b) (F32.sqrt a) = false)
  rw [F32.not_gt_iff hb ha] at hgt
  rw [F32.not_gt_iff hrootb.1 hroota.1]
  rcases hgt.lt_or_eq with hlt | heq
  · exact hrootb.mono hroota (Real.sqrt_lt_sqrt hb0 hlt)
  · exact (F32.val_sqrt_congr hb ha hb0 heq).le

end Sys2Proof.Machine
end

section
/-! The named properties of 45_numerics R230 over `NUM_REAL` (R225, R233). -/

namespace Sys2Proof.Machine

theorem realValuation_same : realValuation.same = (· = ·) := by
  funext a b
  simp [Valuation.same, realValuation]

/-- NP2. -/
theorem numReal_partialSumsExact (logN sampleW : Nat) :
    PartialSumsExact (numReal logN) logN sampleW realValuation where
  sum c k _ _ _ := by
    refine ⟨trivial, ?_⟩
    have hsum : (fun a : ℝ => a + c * (1 / 2 ^ logN))^[k] 0 = k * c / 2 ^ logN := by
      rw [add_right_iterate, nsmul_eq_mul, ← mul_assoc, mul_one_div]
      exact zero_add _
    exact hsum
  sub c _ := by
    rw [realValuation_same]
    exact sub_self (c : ℝ)

/-- NP3. -/
theorem numReal_zeroLaws (logN : Nat) (dom : ℝ → Prop) : ZeroLaws (numReal logN) dom (· = ·) where
  zero_mul b _ := zero_mul b
  mul_zero a _ := mul_zero a
  add_zero a _ := add_zero a
  zero_add a _ := zero_add a
  sub_zero a _ := sub_zero a
  sub_self a _ := sub_self a

/-- The butterflies keep the zero. -/
theorem numReal_butterflyClosed (logN : Nat) : ButterflyClosed (numReal logN) logN (· = 0) where
  zero             := rfl
  mul_twc a t ha _ := mul_eq_zero_of_left ha _
  mul_tws a t ha _ := mul_eq_zero_of_left ha _
  add a b ha hb    := by rw [ha, hb]; exact add_zero 0
  sub a b ha hb    := by rw [ha, hb]; exact sub_zero 0

/-- NP4. -/
theorem numReal_zeroSpectrum (logN : Nat) : ZeroSpectrum (numReal logN) logN realValuation := by
  obtain ⟨hre, him⟩ := (numReal_butterflyClosed logN).transform_forall (cs := List.replicate (2 ^ logN) 0)
    fun v hv => List.eq_of_mem_replicate hv
  rw [ZeroSpectrum, realValuation_same]
  exact fun z hz => hz.elim (hre z) (him z)

/-- NP5's second half. -/
theorem numReal_sqrtMonotone (logN : Nat) (nonneg : ℝ → Prop) : SqrtMonotone (numReal logN) nonneg :=
  fun _ _ _ _ h => decide_eq_false (not_lt.2 (Real.sqrt_le_sqrt (not_lt.1 (of_decide_eq_false h))))

/-- NP6, the sinusoids being exact: every bin but theirs is zero (43 R189). -/
theorem numReal_sinusoidPeak (logN : Nat) : SinusoidPeak (numReal logN) logN realValuation 0 := by
  intro k0 k cs hk0 hk0' hnear hk hne
  obtain ⟨hlen, amp, phase, hamp, hvalue⟩ := hnear
  have hcs (n : Nat) (hn : n < 2 ^ logN) :
      cs[n]? = some (amp * Real.cos (2 * Real.pi * k0 * n / 2 ^ logN + phase)) := by
    have hget := List.getElem?_eq_getElem (hlen.symm ▸ hn)
    obtain ⟨-, hclose⟩ := hvalue n _ hget
    rw [zero_mul, abs_nonpos_iff, sub_eq_zero] at hclose
    rw [hget]
    exact congrArg some hclose
  obtain ⟨hpeak, hother, -⟩ := realSinusoidIsReportedExactly logN k0 amp phase 0 cs hk0 hk0' hamp hlen hcs
  exact ⟨_, _, hpeak, hother k hk hne, decide_eq_true (by positivity)⟩

/-- NP7: the Reading is the quotient itself. -/
theorem numReal_readingNearest (logN : Nat) : ReadingNearest (numReal logN) logN realValuation := by
  intro k p _ _
  refine ⟨trivial, fun c _ => ?_⟩
  have hreading : realValuation.val (readingOf (numReal logN) k ((numReal logN).binRes p)) =
      k / (2 ^ logN * realValuation.valP p) := mul_one_div ..
  rw [hreading, sub_self, abs_zero]
  exact abs_nonneg _

theorem numReal_namedProperties (logN sampleW : Nat) :
    NamedProperties (numReal logN) logN sampleW realValuation 0 where
  np2       := numReal_partialSumsExact logN sampleW
  np3       := realValuation_same ▸ numReal_zeroLaws logN _
  np4       := numReal_zeroSpectrum logN
  np5_order := realValuation_same ▸ numReal_strictOrderOn logN _
  np5_sqrt  := numReal_sqrtMonotone logN _
  np6       := numReal_sinusoidPeak logN
  np7       := numReal_readingNearest logN

/-- The angle of the twiddle at `N/4`. -/
theorem quarter_angle {logN : Nat} (hL : 2 ≤ logN) :
    2 * Real.pi * ((2 ^ logN / 4 : Nat) : ℝ) / 2 ^ logN = Real.pi / 2 := by
  have hdvd : 4 ∣ 2 ^ logN := pow_dvd_pow 2 hL
  rw [Nat.cast_div hdvd (by norm_num)]
  push_cast
  field_simp
  norm_num

theorem numReal_twiddlesExact (logN : Nat) : TwiddlesExact (numReal logN) logN 1 where
  cos_zero       := by simp [numReal]
  sin_zero       := by simp [numReal]
  cos_quarter hL := (congrArg Real.cos (quarter_angle hL)).trans Real.cos_pi_div_two
  sin_quarter hL := (congrArg Real.sin (quarter_angle hL)).trans Real.sin_pi_div_two

/-- Settles O59: the named properties one by one, the rest by what `NUM_REAL` is. -/
theorem realHasTheNamedProperties : Obligations.RealHasTheNamedProperties := fun logN sampleW =>
  ⟨numReal_namedProperties logN sampleW, numReal_twiddlesExact logN, fun _ => ⟨rfl, rfl⟩,
    fun _ => ⟨decide_eq_true_iff, rfl⟩, rfl⟩

end Sys2Proof.Machine
end

section
/-! One generation of a block over any `NUM`, from `INIT` to `RDFREQ` (30_encoding R105, R106; 44 R201, R203): the runs of a
script of operations, and what the response is over the real numbers (43 R184, 45_numerics R233). -/

namespace Sys2Proof.Machine

/-! ## Runs of a script of operations -/

section runs

variable {R P A W : Type} {b : Built R P A W} {x y : BlockState R P} {resp resp' : Option (Response W)}
  {o : Op A} {rest : List (Op A)}

theorem runOver_op {k : Nat} (h : execOver b o x = .next ⟨y, resp'⟩) :
    runOver b (k + 1) ⟨x, resp, o :: rest⟩ = runOver b k ⟨y, resp', rest⟩ := by
  have hstep : stepOver b ⟨x, resp, o :: rest⟩ = .next ⟨y, resp', rest⟩ := 
    stepOver_of_op (e := ⟨y, resp'⟩) rfl h
  simp only [runOver, hstep]

/-- A sequencer operation that completes presents no response. -/
theorem runOver_seq {k : Nat} (f : BlockState R P → BlockResult R P) (ho : ∀ z, execOver b o z = noResponse (f z))
    (h : f x = .next y) : runOver b (k + 1) ⟨x, resp, o :: rest⟩ = runOver b k ⟨y, none, rest⟩ :=
  runOver_op (by rw [ho, h]; rfl)

/-- The writes of `BLOCK` from location `i` on (30_encoding R106). -/
def writeOps (i : Nat) (vs : List Sample) : List (Op A) :=
  (vs.zipIdx i).map fun e => .swr (BitVec.ofNat 16 e.2) e.1

/-- With the gate open every write in range is accepted. -/
theorem runOver_writeOps {i : Nat} {vs : List Sample} (hst : x.st = .acquiring) (hlen : i + vs.length ≤ b.n)
    (hvs : ∀ v ∈ vs, v.toNat < 2 ^ b.sampleW) :
    ∃ resp', runOver b vs.length ⟨x, resp, writeOps i vs ++ rest⟩ =
      .next ⟨{ x with sb := x.sb.storeAll i vs }, resp', rest⟩ := by
  induction vs generalizing x i resp with
  | nil => exact ⟨resp, rfl⟩
  | cons v vs ih =>
    rw [List.length_cons] at hlen
    have hidx : (BitVec.ofNat 16 i).toNat = i := Nat.mod_eq_of_lt ((show i < b.n by omega).trans_le b.n_le)
    have hok : sampleOperandsOk b.toSize (BitVec.ofNat 16 i) v = true :=
      sampleOperandsOk_iff.2 ⟨by rw [hidx]; omega, hvs v (List.mem_cons_self ..)⟩
    have hwrite : swrOver b (BitVec.ofNat 16 i) v x = memWrite i v x := by
      rw [swrOver_written hst hok, indexOperand, hidx]
    obtain ⟨resp', hrun⟩ := ih (x := memWrite i v x) (i := i + 1) (resp := none) hst (by omega)
      fun w hw => hvs w (List.mem_cons_of_mem _ hw)
    exact ⟨resp', (runOver_op (by rw [execOver, hwrite])).trans hrun⟩

/-- One claimed block through the pipeline, from `CLAIM` to `REARM`. -/
theorem runOver_runOps (hph : x.ph = .claim) :
    runOver b 7 ⟨x, resp, runOps ++ rest⟩ = .next ⟨{ x with
      st := .acquiring, ph := .wait, rv := true, gen := x.gen + 1
      reading := generationReading b.num.toNum b.logN (samplesOver b x) x.binres
      mean := none, cs := none, xr := none, xi := none, mg := none, kmax := none, maxm := none }, none, rest⟩ := by
  refine Eq.trans (runOver_seq claimOver (fun _ => rfl) (claimOver_iff.2 ⟨hph, rfl⟩)) ?_
  refine Eq.trans (runOver_seq (dcrOver b) (fun _ => rfl) (by exact dcrOver_iff.2 ⟨rfl, rfl⟩)) ?_
  refine Eq.trans (runOver_seq (fftOver b) (fun _ => rfl) (by exact fftOver_iff.2 ⟨rfl, _, rfl, by simp, rfl⟩)) ?_
  refine Eq.trans (runOver_seq (magOver b) (fun _ => rfl) (by
    exact magOver_iff.2 ⟨rfl, _, rfl, (transform_hasLength ..).1, _, rfl, (transform_hasLength ..).2, rfl⟩)) ?_
  refine Eq.trans (runOver_seq (peakOver b) (fun _ => rfl) (by
    exact peakOver_iff.2 ⟨rfl, _, rfl, magnitudes_length .., rfl⟩)) ?_
  refine Eq.trans (runOver_seq (pubOver b) (fun _ => rfl) (by exact pubOver_iff.2 ⟨rfl, _, rfl, rfl⟩)) ?_
  exact runOver_seq rearmOver (fun _ => rfl) (rearmOver_iff.2 ⟨rfl, rfl⟩)

end runs

/-- The registers after an `INIT` with a period in the domain, from reset (44 R201). -/
def armedBlock {R P A W : Type} (b : Built R P A W) (p : P) : BlockState R P :=
  { resetBlock b 0 with st := .acquiring, gen := 1, period := p, binres := b.num.binRes p }

theorem initOver_resetBlock {R P A W : Type} {b : Built R P A W} {arg : A}
    (hdom : b.num.binResDom (b.num.decP arg) = true) :
    initOver b arg (resetBlock b 0) = armedBlock b (b.num.decP arg) := by
  rw [initOver_idle rfl, initialise, periodOperand, resolutionOf_of_binResDom hdom]
  rfl

/-- The registers one generation later, with the samples `vs`. -/
def reportedBlock {R P A W : Type} (b : Built R P A W) (p : P) (vs : List Sample) : BlockState R P :=
  { armedBlock b p with
    rv := true, gen := 2, sb := Memory.storeAll 0 vs []
    reading := generationReading b.num.toNum b.logN vs (b.num.binRes p) }

/-- From an armed block the block's writes, the signal, the pipeline and the read. -/
theorem runOver_blockOps {R P A W : Type} (b : Built R P A W) (p : P) {vs : List Sample} (hlen : vs.length = b.n)
    (hvs : ∀ v ∈ vs, v.toNat < 2 ^ b.sampleW) (resp : Option (Response W)) :
    runOver b (b.n + 9) ⟨armedBlock b p, resp, writeOps 0 vs ++ .cplt :: (runOps ++ [.rdfreq])⟩ =
      .next ⟨reportedBlock b p vs, some (readingResponse b (reportedBlock b p vs)), []⟩ := by
  obtain ⟨resp', hfill⟩ := runOver_writeOps (b := b) (x := armedBlock b p) (resp := resp)
    (rest := .cplt :: (runOps ++ [.rdfreq])) (i := 0) rfl (by omega) hvs
  rw [← hlen, runOver_add b 9 _ _ _ hfill, runOver_op (k := 8) (by rw [execOver, cpltOver_accepted rfl])]
  refine (runOver_add b 1 7 _ _ (runOver_runOps rfl)).trans ?_
  rw [samplesOver_storeAll b hlen rfl]
  exact runOver_op rfl

/-- The whole script of one generation from reset. -/
theorem runOver_generation {R P A W : Type} (b : Built R P A W) (arg : A) {vs : List Sample} (hlen : vs.length = b.n)
    (hvs : ∀ v ∈ vs, v.toNat < 2 ^ b.sampleW) (hdom : b.num.binResDom (b.num.decP arg) = true) :
    runOver b (b.n + 10) (machineAfterReset b ([.init arg] ++ blockOps vs ++ runOps ++ [.rdfreq])) =
      .next ⟨reportedBlock b (b.num.decP arg) vs,
        some (readingResponse b (reportedBlock b (b.num.decP arg) vs)), []⟩ := by
  have hscript : [.init arg] ++ blockOps vs ++ runOps ++ [.rdfreq] =
      .init arg :: (writeOps 0 vs ++ .cplt :: (runOps ++ [.rdfreq])) := by
    simp [blockOps, writeOps]
  rw [machineAfterReset, hscript, runOver_op (k := b.n + 9) (by rw [execOver, initOver_resetBlock hdom])]
  exact runOver_blockOps b _ hlen hvs _

/-! ## The bin reported over the real numbers (43 R184) -/

theorem magnitudes_numReal_eq_dftAbs {logN k : Nat} {x : List ℝ} (hlen : x.length = 2 ^ logN) (hk : k < 2 ^ logN / 2) :
    (magnitudes (numReal logN) (2 ^ logN / 2) (transform (numReal logN) logN x).re (transform (numReal logN) logN x).im)[k]?
      = some (dftAbs logN x k) := by
  rw [magnitudes_transform_numReal hlen hk, decimatedDft_eq_dft, Complex.norm_eq_sqrt_sq_add_sq, dftAbs]

/-- The bin the block reports for a centred signal. -/
noncomputable def realPeak (logN : Nat) (x : List ℝ) : Nat :=
  (peakScan (numReal logN)
    (magnitudes (numReal logN) (2 ^ logN / 2) (transform (numReal logN) logN x).re (transform (numReal logN) logN x).im)).1

/-- It is the lowest bin of the greatest magnitude of the transform. -/
theorem realPeak_lowestMaximum {logN : Nat} {x : List ℝ} (hlen : x.length = 2 ^ logN) (hbins : 0 < 2 ^ logN / 2) :
    realPeak logN x < 2 ^ logN / 2
      ∧ (∀ j, j < 2 ^ logN / 2 → dftAbs logN x j ≤ dftAbs logN x (realPeak logN x))
      ∧ ∀ j, j < realPeak logN x → dftAbs logN x j < dftAbs logN x (realPeak logN x) := by
  set mg := magnitudes (numReal logN) (2 ^ logN / 2) (transform (numReal logN) logN x).re
    (transform (numReal logN) logN x).im with hmg
  have hpos : 0 < mg.length := by rwa [hmg, magnitudes_length]
  have hk : realPeak logN x < 2 ^ logN / 2 := (peakScan_index_lt (numReal logN) hpos).trans_eq (magnitudes_length ..)
  have hbin {j : Nat} (hj : j < 2 ^ logN / 2) : mg[j]? = some (dftAbs logN x j) := magnitudes_numReal_eq_dftAbs hlen hj
  have hbest : (peakScan (numReal logN) mg).2 = dftAbs logN x (realPeak logN x) :=
    Option.some_inj.1 ((peakScan_getElem? (numReal logN) hpos).symm.trans (hbin hk))
  obtain ⟨hmax, hlowest⟩ :=
    peakScan_lowestMaximum (numReal_strictOrderOn logN fun _ => True) (l := mg) fun _ _ => trivial
  rw [hbest] at hmax hlowest
  exact ⟨hk, fun j hj => not_lt.1 (of_decide_eq_false (hmax _ (List.mem_of_getElem? (hbin hj)))),
    fun j hj => of_decide_eq_true (hlowest j _ hj (hbin (hj.trans hk)))⟩

/-- Settles O60: the run is that of the script, and over `NUM_REAL` the pipeline's result is read off the reported bin. -/
theorem oneGenerationOverAnyNumReportsItsBlock : Obligations.OneGenerationOverAnyNumReportsItsBlock := by
  refine ⟨fun R P A W b arg vs hlen hvs hdom =>
    ⟨_, runOver_generation b arg hlen hvs hdom, rfl, rfl, rfl, rfl, rfl, rfl⟩, fun c u p vs hlen hvs hp => ?_⟩
  have hcentred : (centred (numReal c.logN) vs).length = 2 ^ c.logN := (centred_length ..).trans hlen
  have hreading : generationReading (numReal c.logN) c.logN vs (1 / (2 ^ c.logN * p)) =
      realPeak c.logN (centred (numReal c.logN) vs) / (2 ^ c.logN * p) := mul_one_div ..
  refine ⟨_, realPeak c.logN (centred (numReal c.logN) vs),
    runOver_generation (realBlock c u) p hlen hvs (decide_eq_true hp), ?_, realPeak_lowestMaximum hcentred c.bins_pos⟩
  rw [← hreading]
  rfl

end Sys2Proof.Machine
end

section
/-! What `RESET` leaves from every state, and a reset after a reset (70 R280). -/

namespace Sys2Proof.Machine

/-- After a reset every location is unwritten (10_state R50). -/
theorem readOver_resetBlock {R P A W : Type} (b : Built R P A W) (e j : Nat) :
    readOver b (resetBlock b e) j = unwrittenSample b e j := rfl

theorem status_reset (s : State) (e : Nat) : status (s.withBlock (resetBlock s.built e)) = 0 := by
  rw [status_of (resetBlock_ph s.built e) (resetBlock_st s.built e) (resetBlock_rv s.built e)]
  decide

/-- The registers a reset leaves depend on its number only where they are unspecified (10_state R50). -/
theorem resetBlock_eq_update {R P A W : Type} (b : Built R P A W) (e e' : Nat) :
    resetBlock b e = { resetBlock b e' with
      period := b.unspecified.period e, binres := b.unspecified.binRes e, epoch := e } := rfl

/-- Settles O27: the next state is the reset block of the next number, whose locations all hold the free samples. -/
theorem resetPutsTheBlockInItsInitialState : Obligations.ResetPutsTheBlockInItsInitialState := by
  intro s
  have hread (j : Nat) : (memRead (s.withBlock (resetBlock s.built (s.epoch + 1))) j).toNat < 2 ^ s.cfg.sampleW := by
    rw [memRead, withBlock_built, withBlock_toBlockState, readOver_resetBlock]
    exact unwrittenSample_lt s.built (s.epoch + 1) j
  exact ⟨_, exec_reset.2 rfl, rfl, rfl, rfl, rfl, rfl, rfl, rfl, rfl, rfl, rfl, rfl, rfl, rfl, rfl, rfl,
    status_reset s _, rfl, hread⟩

/-- Settles O28: both resets are of one block, and their registers differ only where a reset leaves them unspecified. -/
theorem twoResetsEqualOne : Obligations.TwoResetsEqualOne := by
  intro s t u hfirst hsecond
  obtain rfl := exec_reset.1 hfirst
  obtain rfl := exec_reset.1 hsecond
  exact congrArg s.withBlock (resetBlock_eq_update s.built (s.epoch + 1) (s.epoch + 1 + 1)).symm

end Sys2Proof.Machine
end
